-- ==== Sys2Proof/Word.lean ====
section
/-! DEFINITION. The word types of the DQ/CD block: bytes, command payloads, binary32 and binary64 bit patterns. -/

namespace Sys2Proof

/-- One byte of the `CMD` or `WIRE` space (R51, R53). -/
abbrev Byte := BitVec 8

/-- A command payload: an unsigned 32-bit number (R82). -/
abbrev Word := BitVec 32

/-- The bit pattern of a binary32 number, `f32bits` of the spec (R12): sign in bit 31, exponent in bits 30 to 23,
fraction in bits 22 to 0. -/
abbrev F32 := BitVec 32

/-- The bit pattern of a binary64 number (R13): sign in bit 63, exponent in bits 62 to 52, fraction in bits 51 to 0. -/
abbrev F64 := BitVec 64

/-- One value of the random port (R173): a binary32 number `v` with `0 <= v < 1` and a clear sign bit. These are exactly
the numbers whose bit pattern is below 0x3F800000, the pattern of 1.0, so the pattern itself is the datum. -/
abbrev UnitDraw := Fin 0x3F800000

end Sys2Proof
end

