-- ==== Sys2Proof/Config.lean ====
section
/-! DEFINITION. What an implementation fixes (the OPEN parameters of `00_scope.md`, R5 to R10) and the values the spec
leaves free. An `opaque` constant here has no body, so no proof can use a value of it. -/

namespace Sys2Proof

/-- `TuningState.bitDepth`: 8, 16 or 32 and nothing else, "the type has three members" (R20, R24). -/
inductive BitDepth where
  | d8
  | d16
  | d32
deriving DecidableEq, Repr

/-- The binary32 operation that gave a NaN; it indexes the free NaN pattern (log entry 8). -/
inductive FloatOp where
  | add
  | sub
  | mul
  | div
  | round
deriving DecidableEq, Repr

/-- The parameters a model takes as arguments (R5 to R10); "None of them changes while the block runs". `POW10` (R6)
is a function and so stands apart, as `Config.openPow10` under the bounds of `Machine.pow10`. -/
structure Config where
  /-- `GAIN_SCALE` (R5) -/
  gainScale : F32
  /-- `MAX_BLOCK_PAIRS` (R7) -/
  maxBlockPairs : Nat
  /-- `CMD_BUF_MAX` (R8) -/
  cmdBufMax : Nat
  /-- `BIT_DEPTH` (R9) -/
  bitDepth : BitDepth
  /-- `INIT_SAMPLE_RATE` (R10) -/
  initSampleRate : F64
  /-- `INIT_CENTER_FREQ` (R10) -/
  initCenterFreq : F64
  /-- `INIT_GAIN_LINEAR` (R10) -/
  initGainLinear : F32
deriving DecidableEq, Repr

/-! The OPEN parameters, each drawn from exactly the values the spec calls legal. -/

/-- `GAIN_SCALE`, counted from the smallest positive normal binary32 number (R5). -/
opaque Config.openGainScale : Fin 0x7F000000

/-- `INIT_GAIN_LINEAR`, counted from the smallest positive binary32 number (R10). -/
opaque Config.openInitGain : Fin 0x7F7FFFFF

/-- `INIT_SAMPLE_RATE`: the sign and the magnitude pattern of a finite binary64 number (R10). -/
opaque Config.openInitSampleRate : Bool × Fin 0x7FF0000000000000

/-- `INIT_CENTER_FREQ`: the sign and the magnitude pattern of a finite binary64 number (R10). -/
opaque Config.openInitCenterFreq : Bool × Fin 0x7FF0000000000000

/-- `CMD_BUF_MAX` less one: the parameter is a positive integer (R8). -/
opaque Config.openCmdBufMax : Nat

/-- `POW10` before it is held inside the bounds R6 sets (`Machine.pow10`). -/
opaque Config.openPow10 : F32 → F32

/-! The free values. The `Nat` argument is a counter of `State`, so each use is a fresh value. -/

/-- What `Draw()` returns when the host has put no value on the random port's tape (R173); by draw number. -/
opaque Config.freeDraw : Nat → UnitDraw

/-- Whether the Sample Source accepts a call, when the host has put no reply on its tape (R174); by call number. -/
opaque Config.freeSrcOk : Nat → Bool

/-- `ANY8` (R137). -/
opaque Config.freeAny8 : Nat → BitVec 8

/-- `ANY16` (R143). -/
opaque Config.freeAny16 : Nat → BitVec 16

/-- The carries after a `POR` request, "unspecified" (R36, R190). -/
opaque Config.freeCarry : Nat → F32

/-- Which NaN an operation returns (R149): its sign bit and its fraction field less one, by operation and operands. -/
opaque Config.freeNaN : FloatOp → F32 → F32 → Bool × Fin 0x7FFFFF

/-- The finite binary64 pattern with this sign and magnitude pattern. -/
def Config.f64OfSignMagnitude (v : Bool × Fin 0x7FF0000000000000) : F64 :=
  BitVec.ofNat 64 ((if v.1 then 2 ^ 63 else 0) + v.2.val)

/-- The parameters of the machine `State.reset` starts from: the spec's defaults where it gives one (`MAX_BLOCK_PAIRS`
R7, `BIT_DEPTH` R9), the OPEN constants above elsewhere (log entry 3). -/
def Config.atReset : Config where
  gainScale := BitVec.ofNat 32 (0x00800000 + Config.openGainScale.val)
  maxBlockPairs := 16384
  cmdBufMax := Config.openCmdBufMax + 1
  bitDepth := .d8
  initSampleRate := Config.f64OfSignMagnitude Config.openInitSampleRate
  initCenterFreq := Config.f64OfSignMagnitude Config.openInitCenterFreq
  initGainLinear := BitVec.ofNat 32 (0x00000001 + Config.openInitGain.val)

end Sys2Proof
end

