-- ==== Sys2Proof/Syntax.lean ====
section
/-! DEFINITION. The instruction set: the commands of the opcode map (R84) and the three quantizer modes (R91), which
`spec/opcode_table.json` lists beside them. -/

namespace Sys2Proof

/-- Where an instruction's bits stand: a 5-byte command frame (R80) or the one-byte mode selector (R91). -/
inductive Format where
  | cmd
  | mode
deriving DecidableEq, Repr

/-- One constructor per mnemonic of the opcode table. The seven `NOPHI` rows are one command with its opcode as an
operand, `NOPHI(opcode, payload)` (R109; log entry 14). -/
inductive Instr where
  /-- opcode 0x00 (R108) -/
  | nop0 (payload : Word)
  /-- opcode 0x01 (R104) -/
  | setfreq (payload : Word)
  /-- opcode 0x02 (R105) -/
  | setrate (payload : Word)
  /-- opcode 0x03 (R106) -/
  | info3 (payload : Word)
  /-- opcode 0x04 (R107) -/
  | setgain (payload : Word)
  /-- opcodes 0x05 to 0xFF (R109) -/
  | nophi (opcode : Byte) (payload : Word)
  /-- mode byte 0x08: 8-bit quantizer with dither (R135) -/
  | quant8
  /-- mode byte 0x10: 16-bit quantizer (R140) -/
  | quant16
  /-- mode byte 0x20: 32-bit pass-through (R144) -/
  | pass32
deriving DecidableEq, Repr

/-- Which of the two formats an instruction is written in. -/
def Instr.format : Instr → Format
  | .nop0 _ => .cmd
  | .setfreq _ => .cmd
  | .setrate _ => .cmd
  | .info3 _ => .cmd
  | .setgain _ => .cmd
  | .nophi _ _ => .cmd
  | .quant8 => .mode
  | .quant16 => .mode
  | .pass32 => .mode

end Sys2Proof
end

