-- ==== Sys2Proof/WellFormed.lean ====
section
/-! DEFINITION. Which terms of `Instr` stand for an instruction. -/

namespace Sys2Proof

/-- A `NOPHI` frame has an opcode above 4, 0x05 to 0xFF (R109): a smaller opcode is another command's (R84). Every other
term is an instruction: no payload value is reserved (R86). -/
def Instr.wellFormed : Instr → Bool
  | .nophi opcode _ => 4 < opcode.toNat
  | .nop0 _ => true
  | .setfreq _ => true
  | .setrate _ => true
  | .info3 _ => true
  | .setgain _ => true
  | .quant8 => true
  | .quant16 => true
  | .pass32 => true

end Sys2Proof
end

