-- ==== Sys2Proof/Decode.lean ====
section
/-! DEFINITION. The decoder, total on any bytes and rejecting by name, and the encoder, both from `30_encoding.md`. -/

namespace Sys2Proof

/-- Why bytes are not an instruction. -/
inductive DecodeError where
  /-- fewer than five bytes are left: "A run of fewer than 5 bytes at the end of a buffer is not a frame" (R86) -/
  | partialFrame
  /-- no mode byte is there -/
  | noModeByte
  /-- the mode byte is none of 0x08, 0x10, 0x20 (R24, R91) -/
  | noSuchMode
deriving DecidableEq, Repr

/-- What the decoder answers. -/
inductive Decoded where
  /-- an instruction and the bytes after it -/
  | ok (i : Instr) (rest : List Byte)
  /-- no instruction, and why -/
  | rejected (why : DecodeError)
deriving DecidableEq, Repr

/-- `BE32` (R82): the byte at frame offset 1 is the most significant (R55). -/
def be32 (b1 b2 b3 b4 : Byte) : Word :=
  BitVec.ofNat 32 (b1.toNat * 2 ^ 24 + b2.toNat * 2 ^ 16 + b3.toNat * 2 ^ 8 + b4.toNat)

/-- The four bytes of a payload, most significant first (R55, R80). -/
def be32Bytes (w : Word) : List Byte :=
  [BitVec.ofNat 8 (w.toNat / 2 ^ 24), BitVec.ofNat 8 (w.toNat / 2 ^ 16), BitVec.ofNat 8 (w.toNat / 2 ^ 8),
    BitVec.ofNat 8 w.toNat]

/-- The opcode map (R84, R103): the opcode byte alone selects, and the case analysis is total. -/
def selectCommand (opcode : Byte) (payload : Word) : Instr :=
  if opcode = 0x00#8 then .nop0 payload
  else if opcode = 0x01#8 then .setfreq payload
  else if opcode = 0x02#8 then .setrate payload
  else if opcode = 0x03#8 then .info3 payload
  else if opcode = 0x04#8 then .setgain payload
  else .nophi opcode payload

/-- The mode selector (R91). -/
def selectMode (b : Byte) : Option Instr :=
  if b = 0x08#8 then some .quant8
  else if b = 0x10#8 then some .quant16
  else if b = 0x20#8 then some .pass32
  else none

/-- The byte a value of `TS.bitDepth` shows as (R91): header byte 7. -/
def modeByte : BitDepth → Byte
  | .d8 => 0x08#8
  | .d16 => 0x10#8
  | .d32 => 0x20#8

/-- Read one instruction of the given format from the front of the bytes (R80, R91). -/
def decode : Format → List Byte → Decoded
  | .cmd, b0 :: b1 :: b2 :: b3 :: b4 :: rest => .ok (selectCommand b0 (be32 b1 b2 b3 b4)) rest
  | .cmd, _ => .rejected .partialFrame
  | .mode, [] => .rejected .noModeByte
  | .mode, b :: rest =>
    match selectMode b with
    | some i => .ok i rest
    | none => .rejected .noSuchMode

/-- The five bytes of a command frame (R80). -/
def frame (opcode : Byte) (payload : Word) : List Byte := opcode :: be32Bytes payload

/-- The bytes of an instruction: a frame (R80, R84, R89) or a mode byte (R91). -/
def encode : Instr → List Byte
  | .nop0 p => frame 0x00#8 p
  | .setfreq p => frame 0x01#8 p
  | .setrate p => frame 0x02#8 p
  | .info3 p => frame 0x03#8 p
  | .setgain p => frame 0x04#8 p
  | .nophi opcode p => frame opcode p
  | .quant8 => [0x08#8]
  | .quant16 => [0x10#8]
  | .pass32 => [0x20#8]

/-- The five bytes of the 40-bit word `F` of R81, the first byte most significant: `F[39:32]` is the opcode. -/
def frameBytesOfWord (w : Nat) : List Byte :=
  [BitVec.ofNat 8 (w / 2 ^ 32), BitVec.ofNat 8 (w / 2 ^ 24), BitVec.ofNat 8 (w / 2 ^ 16), BitVec.ofNat 8 (w / 2 ^ 8),
    BitVec.ofNat 8 w]

/-- The format and the bytes of an instruction whose bits are `w`, numbered as `spec/opcode_table.json` numbers them
(log entry 12): rows of 40 bits are one word `F` (R81), rows of 8 bits one mode byte (R91). -/
def tableWordBytes (nbits w : Nat) : Format × List Byte :=
  if nbits ≤ 8 then (.mode, [BitVec.ofNat 8 w]) else (.cmd, frameBytesOfWord w)

/-- The instruction the decoder reads from a word of the opcode table. -/
def decodeTableWord (nbits w : Nat) : Option Instr :=
  match decode (tableWordBytes nbits w).1 (tableWordBytes nbits w).2 with
  | .ok i _ => some i
  | .rejected _ => none

end Sys2Proof
end

