-- ==== Sys2Proof/Machine/State.lean ====
section
/-! DEFINITION. The state of the DQ/CD block (`10_state.md`), its three data spaces (`20_memory.md` R50), its ports
(`60_exceptions.md` R173 to R175) and the host's pending requests (`00_scope.md` R16), as plain data. -/

namespace Sys2Proof.Machine

/-- TuningState, the block's control registers (R20 to R24). -/
structure Tuning where
  /-- `TS.sampleRate` (R21) -/
  sampleRate : F64
  /-- `TS.centerFrequency` (R22) -/
  centerFrequency : F64
  /-- `TS.gainLinear` (R23) -/
  gainLinear : F32
  /-- `TS.bitDepth` (R24) -/
  bitDepth : BitDepth
deriving DecidableEq, Repr

/-- DitherState, the quantizer's private registers: the previous draw of each channel (R25, R26). -/
structure Dither where
  /-- `DS.carryI` -/
  carryI : F32
  /-- `DS.carryQ` -/
  carryQ : F32
deriving DecidableEq, Repr

/-- The debug accumulators, one per channel (R28). -/
structure Debug where
  /-- `DBG.errAccI` -/
  errAccI : F32
  /-- `DBG.errAccQ` -/
  errAccQ : F32
deriving DecidableEq, Repr

/-- `PHASE`, the lifecycle register (R32). -/
inductive Phase where
  | off
  | idle
  | active
  | halted
deriving DecidableEq, Repr

/-- The two channels of a sample pair; each has its own carry and accumulator (glossary, R150). -/
inductive Channel where
  | i
  | q
deriving DecidableEq, Repr

/-- One (I,Q) pair of a SampleBlock (R52): a block holds whole pairs. -/
structure Pair where
  i : F32
  q : F32
deriving DecidableEq, Repr

/-- The result of a DECODE request (R92). -/
inductive Action where
  /-- `Continue` -/
  | continued
  /-- `Disconnect` -/
  | disconnect
  /-- `Fatal` -/
  | fatal
deriving DecidableEq, Repr

/-- The two calls of the Sample Source that the block makes (R174). -/
inductive SrcOp where
  | configureFrequency
  | configureSampleRate
deriving DecidableEq, Repr

/-- One call on the Sample Source port: an observable event (R67, R174). -/
structure SrcCall where
  op : SrcOp
  arg : F64
deriving DecidableEq, Repr

/-- What a Sample Source call returns (R174). -/
inductive SrcStatus where
  | ok
  | err
deriving DecidableEq, Repr

/-- What the host's socket read gave a DECODE request (R51): bytes, as many as the read returned, or a read error, whose
result is negative. Zero bytes are a closed peer. -/
inductive SocketRead where
  /-- the read returned `-(k + 1)` -/
  | error (k : Nat)
  /-- the read returned these bytes -/
  | data (bytes : List Byte)
deriving DecidableEq, Repr

/-- What the host can ask of the block (R16). -/
inductive Request where
  /-- `POR` (R190) -/
  | por
  /-- `SESSION_START` (R192) -/
  | sessionStart
  /-- `SESSION_END` (R193) -/
  | sessionEnd
  /-- `DECODE(buf, len, sendFailed)` (R100); the flag is the host's (R29) -/
  | decode (read : SocketRead) (sendFailed : Bool)
  /-- `QUANTIZE(block)` (R130) -/
  | quantize (block : List Pair)
deriving DecidableEq, Repr

/-- The whole machine: the persistent registers of R33, what lives inside one request (R30, R31, R50), the answer of the
last request, and the inputs the outside world supplies. -/
structure State where
  /-- the implementation parameters (R5 to R10); no step changes them -/
  cfg : Config
  /-- TuningState (R20) -/
  ts : Tuning
  /-- DitherState (R25) -/
  ds : Dither
  /-- the debug accumulators (R28) -/
  dbg : Debug
  /-- `PHASE` (R32) -/
  phase : Phase
  /-- the `CMD` space of the DECODE request in progress (R51) -/
  cmd : List Byte
  /-- the frame cursor `pos` (R30) -/
  pos : Nat
  /-- the `SAMPLE` space of the QUANTIZE request in progress (R52) -/
  sample : List Pair
  /-- the sample index `i` (R31) -/
  idx : Nat
  /-- the `WIRE` space: the bytes the last QUANTIZE request returned (R53) -/
  wire : List Byte
  /-- the Action the last DECODE request returned (R92) -/
  action : Option Action
  /-- the requests the host has issued and the block has not served, the next one first (R16, R70) -/
  requests : List Request
  /-- the values waiting on the random port (R173) -/
  rnd : List UnitDraw
  /-- how many draws have been consumed -/
  drawn : Nat
  /-- the replies waiting on the Sample Source port (R174) -/
  srcReplies : List SrcStatus
  /-- the calls made on the Sample Source port, oldest first (R174) -/
  srcCalls : List SrcCall
  /-- how many unspecified values have been used; the model's own counter (log entries 4 and 7) -/
  freeUsed : Nat
deriving DecidableEq, Repr

/-- Why the machine stops with a fault. -/
inductive Fault where
  /-- Raised by `step` in PHASE HALTED when no request is pending: the process has terminated and "a run that reaches it
  never ends well" (R162, R169). Safe: the spec gives no step from there. -/
  | halted
deriving DecidableEq, Repr

/-- Why the machine gives no meaning. -/
inductive Refusal where
  /-- Raised by an arm of `exec` for an instruction without a meaning; no arm does. Safe. -/
  | notModelled (mnemonic : String)
  /-- Raised by `serve` for a request that the current phase does not admit (R32): "the model gives it no meaning,
  because the host the document describes never issues it". Safe. -/
  | notAdmitted
  /-- Raised by `serve` for a block of more than `MAX_BLOCK_PAIRS` pairs (R7). Safe. -/
  | blockTooLong
  /-- Raised by `serve` for a buffer of more than `CMD_BUF_MAX` bytes (R8). Safe. -/
  | bufferTooLong
  /-- Raised by `serve` for a POR with an illegal parameter: "a model refuses such a configuration" (R191). Safe. -/
  | invalidConfiguration
deriving DecidableEq, Repr

/-- The machine right after power-on reset (R36, R190): TuningState from the parameters, the accumulators +0.0, PHASE
IDLE. The carries are unspecified there and hold +0.0 (log entry 4). Nothing is pending and nothing has happened. -/
def State.reset : State where
  cfg := Config.atReset
  ts :=
    { sampleRate := Config.atReset.initSampleRate
      centerFrequency := Config.atReset.initCenterFreq
      gainLinear := Config.atReset.initGainLinear
      bitDepth := Config.atReset.bitDepth }
  ds := { carryI := 0#32, carryQ := 0#32 }
  dbg := { errAccI := 0#32, errAccQ := 0#32 }
  phase := .idle
  cmd := []
  pos := 0
  sample := []
  idx := 0
  wire := []
  action := none
  requests := []
  rnd := []
  drawn := 0
  srcReplies := []
  srcCalls := []
  freeUsed := 0

end Sys2Proof.Machine
end

