-- ==== Sys2Proof/Machine/Float.lean ====
section
/-! DEFINITION. binary32 and binary64 arithmetic (`00_scope.md` R12 to R15): every operation is computed exactly, on
integers, and rounded once, to nearest with ties to even. A finite magnitude is a natural number of units of `2^-149`,
the smallest positive binary32 number, so every finite binary32 number is an integer number of units. -/

namespace Sys2Proof.Machine

/-- A binary32 number by its value. -/
inductive FVal where
  | nan
  | inf (neg : Bool)
  /-- `(-1)^neg * mag * 2^-149` -/
  | fin (neg : Bool) (mag : Nat)
deriving DecidableEq, Repr

/-- The sign bit. -/
def signBit (b : F32) : Bool := 2 ^ 31 ≤ b.toNat

/-- The magnitude pattern: all bits but the sign. -/
def magBits (b : F32) : Nat := b.toNat % 2 ^ 31

/-- The pattern with this sign bit and this magnitude pattern. -/
def pack32 (neg : Bool) (bits : Nat) : F32 := BitVec.ofNat 32 ((if neg then 2 ^ 31 else 0) + bits)

/-- The units of a finite magnitude pattern: subnormals have exponent field 0, normals an implicit leading 1 (R12). -/
def unitsOf (bits : Nat) : Nat :=
  if bits / 2 ^ 23 = 0 then bits else (2 ^ 23 + bits % 2 ^ 23) * 2 ^ (bits / 2 ^ 23 - 1)

/-- The value of a pattern (R12): exponent field 255 is an infinity or a NaN. -/
def unpack32 (b : F32) : FVal :=
  if magBits b / 2 ^ 23 = 255 then
    if magBits b % 2 ^ 23 = 0 then .inf (signBit b) else .nan
  else .fin (signBit b) (unitsOf (magBits b))

/-- The magnitude pattern of infinity. -/
def infBits : Nat := 0x7F800000

/-- The nearest integer to `num / den`, ties to even. -/
def nearestEven (num den : Nat) : Nat :=
  if 2 * (num % den) < den then num / den
  else if den < 2 * (num % den) then num / den + 1
  else num / den + num / den % 2

/-- How many binary places the last place of a binary32 number near `num / den` units stands above one unit. -/
def lastPlace (num den : Nat) : Nat := Nat.log2 (num / den) - 23

/-- The magnitude pattern of `num / den` units rounded to nearest, ties to even (R12). Consecutive patterns are
consecutive numbers, so a carry out of the fraction steps the exponent field, and beyond the largest number to infinity. -/
def roundMag (num den : Nat) : Nat :=
  min infBits (lastPlace num den * 2 ^ 23 + nearestEven num (den * 2 ^ lastPlace num den))

/-- The result of an operation that is a NaN: which one is free (R149; log entry 8). -/
def nanResult (op : FloatOp) (a b : F32) : F32 :=
  pack32 (Config.freeNaN op a b).1 (infBits + 1 + (Config.freeNaN op a b).2.val)

/-- An integer number of units, signed. -/
def signedUnits (neg : Bool) (mag : Nat) : Int := if neg then -(mag : Int) else mag

/-- A signed integer number of units, rounded; an exact zero has the sign given (log entry 11). -/
def roundUnits (zeroNeg : Bool) (z : Int) : F32 :=
  if z = 0 then pack32 zeroNeg 0 else pack32 (z < 0) (roundMag z.natAbs 1)

/-- The sum of two values; `op`, `a`, `b` only index a NaN result. -/
def addVals (op : FloatOp) (a b : F32) : FVal → FVal → F32
  | .fin s m, .fin t n => roundUnits (s && t) (signedUnits s m + signedUnits t n)
  | .inf s, .fin _ _ => pack32 s infBits
  | .fin _ _, .inf t => pack32 t infBits
  | .inf s, .inf t => if s = t then pack32 s infBits else nanResult op a b
  | .nan, _ => nanResult op a b
  | .fin _ _, .nan => nanResult op a b
  | .inf _, .nan => nanResult op a b

/-- The value with its sign changed. -/
def negVal : FVal → FVal
  | .nan => .nan
  | .inf s => .inf (!s)
  | .fin s m => .fin (!s) m

/-- `fadd32` (R12). -/
def fadd32 (a b : F32) : F32 := addVals .add a b (unpack32 a) (unpack32 b)

/-- `fsub32` (R12). -/
def fsub32 (a b : F32) : F32 := addVals .sub a b (unpack32 a) (negVal (unpack32 b))

/-- The product of two values; `a`, `b` only index a NaN result. -/
def mulVals (a b : F32) : FVal → FVal → F32
  | .fin s m, .fin t n => pack32 (s != t) (roundMag (m * n) (2 ^ 149))
  | .inf s, .fin t n => if n = 0 then nanResult .mul a b else pack32 (s != t) infBits
  | .fin s m, .inf t => if m = 0 then nanResult .mul a b else pack32 (s != t) infBits
  | .inf s, .inf t => pack32 (s != t) infBits
  | .nan, _ => nanResult .mul a b
  | .fin _ _, .nan => nanResult .mul a b
  | .inf _, .nan => nanResult .mul a b

/-- `fmul32` (R12). -/
def fmul32 (a b : F32) : F32 := mulVals a b (unpack32 a) (unpack32 b)

/-- The quotient of two values; `a`, `b` only index a NaN result. -/
def divVals (a b : F32) : FVal → FVal → F32
  | .fin s m, .fin t n =>
    if n = 0 then if m = 0 then nanResult .div a b else pack32 (s != t) infBits
    else pack32 (s != t) (roundMag (m * 2 ^ 149) n)
  | .inf s, .fin t _ => pack32 (s != t) infBits
  | .fin s _, .inf t => pack32 (s != t) 0
  | .inf _, .inf _ => nanResult .div a b
  | .nan, _ => nanResult .div a b
  | .fin _ _, .nan => nanResult .div a b
  | .inf _, .nan => nanResult .div a b

/-- `fdiv32` (R12). -/
def fdiv32 (a b : F32) : F32 := divVals a b (unpack32 a) (unpack32 b)

/-- `finite` (notation table of `00_scope.md`): neither an infinity nor a NaN. -/
def finite32 (b : F32) : Bool := magBits b / 2 ^ 23 != 255

/-- Whether a pattern is a NaN (R12). -/
def isNaN32 (b : F32) : Bool := infBits < magBits b

/-- `RoundHalfAway` (R14): the nearest integer, a half away from zero, the sign of the operand kept. -/
def roundHalfAway (y : F32) : F32 :=
  match unpack32 y with
  | .nan => nanResult .round y y
  | .inf _ => y
  | .fin s m => pack32 s (roundMag ((m + 2 ^ 148) / 2 ^ 149 * 2 ^ 149) 1)

/-- `int` of a finite integer-valued number (R15). -/
def intOf (q : F32) : Int :=
  match unpack32 q with
  | .nan => 0
  | .inf _ => 0
  | .fin s m => signedUnits s (m / 2 ^ 149)

/-- `u32_to_f32` (R12): the nearest binary32 number, ties to even. -/
def u32ToF32 (n : Word) : F32 := pack32 false (roundMag (n.toNat * 2 ^ 149) 1)

/-- `u32_to_f64` (R13): the binary64 number equal to `n`, always exact. -/
def u32ToF64 (n : Word) : F64 :=
  if n.toNat = 0 then 0#64
  else
    BitVec.ofNat 64
      ((Nat.log2 n.toNat + 1023) * 2 ^ 52 + (n.toNat - 2 ^ Nat.log2 n.toNat) * 2 ^ (52 - Nat.log2 n.toNat))

/-- Whether a binary64 pattern is a finite number (R13). -/
def finite64 (x : F64) : Bool := x.toNat / 2 ^ 52 % 2 ^ 11 != 2047

/-- Whether a binary64 pattern is a NaN (R13). -/
def isNaN64 (x : F64) : Bool := 2047 * 2 ^ 52 < x.toNat % 2 ^ 63

/-- `!=` of two binary64 numbers (R105): a comparison of numeric values, so the two zeros are equal and a NaN differs from
everything (log entry 26). -/
def differ64 (x y : F64) : Bool :=
  if isNaN64 x || isNaN64 y then true
  else if x.toNat % 2 ^ 63 = 0 ∧ y.toNat % 2 ^ 63 = 0 then false
  else x != y

end Sys2Proof.Machine
end

