-- ==== Sys2Proof/Machine/Pow10.lean ====
section
/-! DEFINITION. `POW10`, ten to a power (`00_scope.md` R6): an OPEN numerics parameter. The model takes an uninterpreted
function and holds its result between the smallest and the largest binary32 number that properties P2, P3, P5 and P6
allow for the operand, so that every allowed result remains (log entry 9). The power is enclosed between two
rational numbers, computed in fixed point with 128 binary places. -/

namespace Sys2Proof.Machine

/-- 1 in fixed point. -/
def fixOne : Nat := 2 ^ 128

/-- The natural logarithm of 10 in fixed point, rounded down. -/
def fixLn10 : Nat := 783529105480883066805338482703447369891

/-- Horner's scheme for the exponential series in fixed point, where `one` is 1, rounded down: after `j` steps, at most
`exp z`. -/
def expBelow (one z : Nat) : Nat → Nat → Nat
  | 0, acc => acc
  | j + 1, acc => expBelow one z j (one + z * acc / ((j + 1) * one))

/-- The same scheme rounded up. -/
def expAbove (one z : Nat) : Nat → Nat → Nat
  | 0, acc => acc
  | j + 1, acc => expAbove one z j (one + z * acc / ((j + 1) * one) + 1)

/-- Below ten to the power `a * 2^-149`, for `a` below `2^149`, in fixed point. -/
def tenToFractionBelow (a : Nat) : Nat := expBelow fixOne (a * fixLn10 / 2 ^ 149) 64 fixOne - 1

/-- Above ten to the power `a * 2^-149`, for `a` below `2^149`, in fixed point. The series starts from 2, which is more
than the terms after the 64th can add. -/
def tenToFractionAbove (a : Nat) : Nat := expAbove fixOne (a * (fixLn10 + 1) / 2 ^ 149 + 1) 64 (2 * fixOne)

/-- `num / den` units rounded up to a magnitude pattern. -/
def ceilMag (num den : Nat) : Nat :=
  min infBits (lastPlace num den * 2 ^ 23 + (num + den * 2 ^ lastPlace num den - 1) / (den * 2 ^ lastPlace num den))

/-- `num / den` units rounded down to a magnitude pattern. -/
def floorMag (num den : Nat) : Nat :=
  min infBits (lastPlace num den * 2 ^ 23 + num / (den * 2 ^ lastPlace num den))

/-- The smallest and the largest magnitude pattern `POW10` may return where the power lies between `below / den` and
`above / den` units: `+Inf` where it exceeds the largest finite number and any subnormal or +0 where it is below the
smallest normal number (P5), and all that is within one unit in the last place elsewhere (P6). -/
def pow10Range (below above den : Nat) : Nat × Nat :=
  if (2 ^ 24 - 1) * 2 ^ 253 * den < below then (infBits, infBits)
  else if above < 2 ^ 23 * den then (0, 2 ^ 23)
  else
    (ceilMag (below - 2 ^ lastPlace above den * den) den,
      min (infBits - 1) (floorMag (above + 2 ^ lastPlace above den * den) den))

/-- The range for the power of ten with exponent `n + a * 2^-149`, for `a` below `2^149`. -/
def pow10RangePos (n a : Nat) : Nat × Nat :=
  pow10Range (10 ^ n * tenToFractionBelow a * 2 ^ 149) (10 ^ n * tenToFractionAbove a * 2 ^ 149) fixOne

/-- The range for the power of ten with exponent `-n + a * 2^-149`, for `a` below `2^149`. -/
def pow10RangeNeg (n a : Nat) : Nat × Nat :=
  pow10Range (tenToFractionBelow a * 2 ^ 149) (tenToFractionAbove a * 2 ^ 149) (fixOne * 10 ^ n)

/-- The allowed results for a finite exponent of `mag` units (P3 for a zero; exponents from 64 up overflow, those from
-64 down underflow). -/
def pow10Bounds (neg : Bool) (mag : Nat) : Nat × Nat :=
  if mag = 0 then (0x3F800000, 0x3F800000)
  else if 64 * 2 ^ 149 ≤ mag then if neg then (0, 2 ^ 23) else (infBits, infBits)
  else if neg then
    pow10RangeNeg ((mag + 2 ^ 149 - 1) / 2 ^ 149) ((mag + 2 ^ 149 - 1) / 2 ^ 149 * 2 ^ 149 - mag)
  else pow10RangePos (mag / 2 ^ 149) (mag % 2 ^ 149)

/-- A number brought into a range, to its lower end where the range has no other. -/
def clamp (range : Nat × Nat) (n : Nat) : Nat :=
  if range.2 ≤ range.1 then range.1 else max range.1 (min range.2 n)

/-- `POW10` (R6). The result depends on the operand alone (P1). For the infinities and the NaNs see log entry 10. -/
def pow10 (e : F32) : F32 :=
  match unpack32 e with
  | .nan => Config.openPow10 e
  | .inf true => BitVec.ofNat 32 (clamp (0, 2 ^ 23) (Config.openPow10 e).toNat)
  | .inf false => BitVec.ofNat 32 infBits
  | .fin s m => BitVec.ofNat 32 (clamp (pow10Bounds s m) (Config.openPow10 e).toNat)

end Sys2Proof.Machine
end

