-- ==== Sys2Proof/Machine/Ops.lean ====
section
/-! DEFINITION. The named operations over the registers, the data spaces and the ports; the events (`60_exceptions.md`
R160 to R169); the two resets and the session bookkeeping (`70_reset_and_hazards.md` R190 to R193). -/

namespace Sys2Proof.Machine

/-! ## Registers -/

/-- `TS.sampleRate <- v` (R21). -/
def State.setSampleRate (v : F64) (s : State) : State := { s with ts := { s.ts with sampleRate := v } }

/-- `TS.centerFrequency <- v` (R22). -/
def State.setCenterFrequency (v : F64) (s : State) : State := { s with ts := { s.ts with centerFrequency := v } }

/-- `TS.gainLinear <- v` (R23). -/
def State.setGainLinear (v : F32) (s : State) : State := { s with ts := { s.ts with gainLinear := v } }

/-- `DS.carry[c]` (R26). -/
def State.carry (c : Channel) (s : State) : F32 :=
  match c with
  | .i => s.ds.carryI
  | .q => s.ds.carryQ

/-- `DS.carry[c] <- v` (R26). -/
def State.setCarry (c : Channel) (v : F32) (s : State) : State :=
  { s with
    ds :=
      match c with
      | .i => { s.ds with carryI := v }
      | .q => { s.ds with carryQ := v } }

/-- `DBG.errAcc[c]` (R28); with `State.setErrAcc` the only access to it, the debug port's read included (R175). -/
def State.errAcc (c : Channel) (s : State) : F32 :=
  match c with
  | .i => s.dbg.errAccI
  | .q => s.dbg.errAccQ

/-- `DBG.errAcc[c] <- v` (R28). -/
def State.setErrAcc (c : Channel) (v : F32) (s : State) : State :=
  { s with
    dbg :=
      match c with
      | .i => { s.dbg with errAccI := v }
      | .q => { s.dbg with errAccQ := v } }

/-- `PHASE <- p` (R32). -/
def State.setPhase (p : Phase) (s : State) : State := { s with phase := p }

/-- The Action of the request (R92). -/
def State.setAction (a : Action) (s : State) : State := { s with action := some a }

/-! ## Data spaces -/

/-- `pos <- p` (R30). -/
def State.setPos (p : Nat) (s : State) : State := { s with pos := p }

/-- `i <- n` (R31). -/
def State.setIdx (n : Nat) (s : State) : State := { s with idx := n }

/-- `MemWrite(WIRE, …)`: the offsets of `WIRE` are written in increasing order, each once (R53), so a write appends. -/
def State.emit (bytes : List Byte) (s : State) : State := { s with wire := s.wire ++ bytes }

/-- An empty `WIRE` space, as a QUANTIZE request finds it (R53). -/
def State.clearWire (s : State) : State := { s with wire := [] }

/-- The `CMD` space of a DECODE request and its cursor (R51, R30). -/
def State.loadCmd (bytes : List Byte) (s : State) : State := { s with cmd := bytes, pos := 0 }

/-- The `SAMPLE` space of a QUANTIZE request (R52). -/
def State.loadSample (block : List Pair) (s : State) : State := { s with sample := block }

/-- The next request is taken from the host's queue; what the last request returned is gone, since "no space outlives
its request" (R50). -/
def State.takeRequest (rest : List Request) (s : State) : State :=
  { s with requests := rest, wire := [], action := none }

/-! ## Ports -/

/-- The binary32 number a draw stands for (R173). -/
def drawBits (d : UnitDraw) : F32 := BitVec.ofNat 32 d.val

/-- The value the next `Draw()` returns: the next one on the random port, else a free value (R173; log entry 5). -/
def State.nextDraw (s : State) : F32 :=
  match s.rnd with
  | d :: _ => drawBits d
  | [] => drawBits (Config.freeDraw s.drawn)

/-- What `Draw()` consumes (R173). -/
def State.dropDraw (s : State) : State := { s with rnd := s.rnd.tail, drawn := s.drawn + 1 }

/-- The reply the next Sample Source call gets: the next one on the port, else a free one (R174; log entry 6). -/
def State.nextReply (s : State) : SrcStatus :=
  match s.srcReplies with
  | r :: _ => r
  | [] => if Config.freeSrcOk s.srcCalls.length then .ok else .err

/-- A call is made on the Sample Source port and its reply consumed (R174). -/
def State.recordCall (op : SrcOp) (arg : F64) (s : State) : State :=
  { s with srcReplies := s.srcReplies.tail, srcCalls := s.srcCalls ++ [{ op := op, arg := arg }] }

/-- An unspecified value has been used. -/
def State.useFree (s : State) : State := { s with freeUsed := s.freeUsed + 1 }

/-! ## Events -/

/-- `raise DeviceFatal` (R162, R169): `PHASE <- HALTED` and nothing else; the request returns `Fatal`. The call that
failed and its argument are the last of `srcCalls` (R160). -/
def raiseDeviceFatal (s : State) : State := (s.setPhase .halted).setAction .fatal

/-- `raise Disconnect` (R161, R167): no register changes; the request returns `Disconnect`. -/
def raiseDisconnect (s : State) : State := s.setAction .disconnect

/-- `st <- SrcCall(op, arg)`, DeviceFatal on `err`, and on `ok` the command's own write (R104, R105): the write comes
after the call. -/
def configureSource (op : SrcOp) (arg : F64) (onOk : State → State) (s : State) : State :=
  match s.nextReply with
  | .ok => onOk (s.recordCall op arg)
  | .err => raiseDeviceFatal (s.recordCall op arg)

/-! ## Resets and sessions -/

/-- The conditions on the parameters (R5, R7, R8, R10, R191). A positive, finite and normal `GAIN_SCALE` meets the last
condition of R5 as well (log entry 25); `BIT_DEPTH` is legal by its type. -/
def configLegal (c : Config) : Bool :=
  0x00800000 ≤ c.gainScale.toNat && c.gainScale.toNat < infBits
    && (0 < c.initGainLinear.toNat && c.initGainLinear.toNat < infBits)
    && (finite64 c.initSampleRate && finite64 c.initCenterFreq)
    && (0 < c.maxBlockPairs && 0 < c.cmdBufMax)

/-- `POR` (R190): TuningState from the parameters, the accumulators +0.0, the carries unspecified (a free value each),
PHASE IDLE. No draw and no call. -/
def powerOnReset (s : State) : State :=
  { s with
    ts :=
      { sampleRate := s.cfg.initSampleRate
        centerFrequency := s.cfg.initCenterFreq
        gainLinear := s.cfg.initGainLinear
        bitDepth := s.cfg.bitDepth }
    ds := { carryI := Config.freeCarry s.freeUsed, carryQ := Config.freeCarry (s.freeUsed + 1) }
    dbg := { errAccI := 0#32, errAccQ := 0#32 }
    phase := .idle
    freeUsed := s.freeUsed + 2 }

/-- One draw becomes the carry of a channel (R192). -/
def seedCarry (c : Channel) (s : State) : State := (s.setCarry c s.nextDraw).dropDraw

/-- `SESSION_START` (R192): two draws, I first, the accumulators +0.0, PHASE ACTIVE, TuningState unchanged. It is also
the way back after a Disconnect (R168). -/
def sessionStart (s : State) : State :=
  (((seedCarry .q (seedCarry .i s)).setErrAcc .i 0#32).setErrAcc .q 0#32).setPhase .active

/-- `SESSION_END` (R193): `PHASE <- IDLE` and nothing else. -/
def sessionEnd (s : State) : State := s.setPhase .idle

end Sys2Proof.Machine
end

