-- ==== Sys2Proof/Machine/Flags.lean ====
section
/-! DEFINITION. Flags. The block has none of its own: no condition code, no carry or overflow flag, no floating-point
exception flag (R34). The one flag it reads is the host's send-failed flag, an argument of DECODE (R29). -/

namespace Sys2Proof.Machine

/-- `len`, the signed result of the socket read (R51). -/
def readLength : SocketRead → Int
  | .error k => -(k + 1 : Int)
  | .data bytes => bytes.length

/-- The bytes of the `CMD` space; a failed read has none (R51). -/
def readBytes : SocketRead → List Byte
  | .error _ => []
  | .data bytes => bytes

/-- The disconnect condition (R100, R161): "buffer length is ≤0 or the session's send-failed flag is set". -/
def disconnectCondition (read : SocketRead) (sendFailed : Bool) : Bool := readLength read ≤ 0 || sendFailed

end Sys2Proof.Machine
end

