-- ==== Sys2Proof/Machine/Operands.lean ====
section
/-! DEFINITION. Operand forms: the binary32 constants of R11, the narrowing of a rounded sample to its wire component
(`41_quantizer.md` R136, R142), and the byte order on the wire (`20_memory.md` R56, R57, R59). -/

namespace Sys2Proof.Machine

/-- 0.25, the 8-bit gain factor (R11). -/
def f32Quarter : F32 := 0x3E800000#32

/-- 4.0, the 16-bit gain factor (R11). -/
def f32Four : F32 := 0x40800000#32

/-- 10.0, the divisor of SETGAIN (R11). -/
def f32Ten : F32 := 0x41200000#32

/-- 12.0, the calibration offset of SETGAIN (R11). -/
def f32Twelve : F32 := 0x41400000#32

/-- `(int(q) + 128) mod 256` (R136). -/
def narrow8 (q : F32) : BitVec 8 := BitVec.ofInt 8 ((intOf q + 128) % 256)

/-- `int(q) mod 65536` (R142). -/
def narrow16 (q : F32) : BitVec 16 := BitVec.ofInt 16 (intOf q % 65536)

/-- `LE16` (R56). -/
def le16 (w : BitVec 16) : List Byte := [BitVec.ofNat 8 w.toNat, BitVec.ofNat 8 (w.toNat / 2 ^ 8)]

/-- `LE32` (R57). -/
def le32 (w : F32) : List Byte :=
  [BitVec.ofNat 8 w.toNat, BitVec.ofNat 8 (w.toNat / 2 ^ 8), BitVec.ofNat 8 (w.toNat / 2 ^ 16),
    BitVec.ofNat 8 (w.toNat / 2 ^ 24)]

/-- The numeric code of an Action (R92, R160). -/
def actionCode : Action → Nat
  | .continued => 0
  | .disconnect => 1
  | .fatal => 2

/-- The bytes of one pair on the wire, `S` of R53. -/
def pairSize : BitDepth → Nat
  | .d8 => 2
  | .d16 => 4
  | .d32 => 8

/-- The wire header, which the host sends and the block does not build (context, R59, R60): the magic tag, the bit
depth, the tuner type 1 and, but for the 8-bit mode, the gain count 2. -/
def wireHeader (depth : BitDepth) : List Byte :=
  [0x4C#8, 0x4D#8, 0x4D#8, 0x30#8, 0x00#8, 0x00#8, 0x00#8, modeByte depth, 0x00#8, 0x00#8, 0x00#8, 0x01#8]
    ++ (if depth = .d8 then [] else [0x00#8, 0x00#8, 0x00#8, 0x02#8])

end Sys2Proof.Machine
end

