-- ==== Sys2Proof/Machine/Commands.lean ====
section
/-! DEFINITION. The commands (`40_commands.md` R104 to R109). `Log` is omitted (R176; log entry 19). -/

namespace Sys2Proof.Machine

/-- NOP0, opcode 0 (R108): no register changes and no call is made. -/
def execNop0 (_payload : Word) (s : State) : Host.Outcome State Fault Refusal := .next s

/-- SETFREQ, opcode 1 (R104): the retune request is issued every time. -/
def execSetfreq (payload : Word) (s : State) : Host.Outcome State Fault Refusal :=
  .next (configureSource .configureFrequency (u32ToF64 payload) (State.setCenterFrequency (u32ToF64 payload)) s)

/-- SETRATE, opcode 2 (R105): only if the new rate differs from the stored one. -/
def execSetrate (payload : Word) (s : State) : Host.Outcome State Fault Refusal :=
  .next
    (if differ64 (u32ToF64 payload) s.ts.sampleRate then
      configureSource .configureSampleRate (u32ToF64 payload) (State.setSampleRate (u32ToF64 payload)) s
    else s)

/-- INFO3, opcode 3 (R106): no register changes and no call is made. -/
def execInfo3 (_payload : Word) (s : State) : Host.Outcome State Fault Refusal := .next s

/-- The exponent of ten SETGAIN computes: `(payload / 10 - 12) / 10`, each step rounded to binary32 (R107). -/
def gainExponent (payload : Word) : F32 :=
  fdiv32 (fsub32 (fdiv32 (u32ToF32 payload) f32Ten) f32Twelve) f32Ten

/-- The gain SETGAIN stores (R107). -/
def gainOf (gainScale : F32) (payload : Word) : F32 := fmul32 gainScale (pow10 (gainExponent payload))

/-- SETGAIN, opcode 4 (R107): honoured when the bit depth is 8 or 16. -/
def execSetgain (payload : Word) (s : State) : Host.Outcome State Fault Refusal :=
  .next
    (match s.ts.bitDepth with
    | .d8 => s.setGainLinear (gainOf s.cfg.gainScale payload)
    | .d16 => s.setGainLinear (gainOf s.cfg.gainScale payload)
    | .d32 => s)

/-- NOPHI, opcodes 5 to 255 (R109): no register changes and no call is made. -/
def execNophi (_opcode : Byte) (_payload : Word) (s : State) : Host.Outcome State Fault Refusal := .next s

end Sys2Proof.Machine
end

