-- ==== Sys2Proof/Machine/Quantizer.lean ====
section
/-! DEFINITION. The three modes of the quantize operation (`41_quantizer.md` R130 to R146) on the block in the `SAMPLE`
space. -/

namespace Sys2Proof.Machine

/-- The loop all modes share (R71): pairs in increasing index, channel I before channel Q; `n` is the number of pairs
left. -/
def overPairs (component : Channel → F32 → State → State) : Nat → State → State
  | 0, s => s
  | n + 1, s =>
    match s.sample[s.idx]? with
    | some p => overPairs component n ((component .q p.q (component .i p.i s)).setIdx (s.idx + 1))
    | none => s

/-- A whole mode: an empty `WIRE`, every pair, and the sample index discarded (R31). -/
def quantizeBlock (component : Channel → F32 → State → State) (s : State) : State :=
  (overPairs component s.sample.length (s.clearWire.setIdx 0)).setIdx 0

/-- The scaled and dithered sample of the 8-bit mode: `y = g8*x + r` with `r = rnd - carry`, the product rounded before
the sum (R134, R135). -/
def dithered (g8 x rnd carry : F32) : F32 := fadd32 (fmul32 g8 x) (fsub32 rnd carry)

/-- The output byte for `y` (R136), `ANY8` where `y` is not finite (R137). -/
def emit8 (y : F32) (s : State) : State :=
  if finite32 y then s.emit [narrow8 (roundHalfAway y)]
  else (s.emit [Config.freeAny8 s.freeUsed]).useFree

/-- The register effects of one 8-bit component, given its `y`: the draw consumed, the residue accumulated, the draw
carried (R135). -/
def carryDraw (c : Channel) (y : F32) (s : State) : State :=
  ((s.setErrAcc c (fadd32 (s.errAcc c) (fsub32 y (roundHalfAway y)))).setCarry c s.nextDraw).dropDraw

/-- One component of the 8-bit mode (R135). -/
def quant8Component (g8 : F32) (c : Channel) (x : F32) (s : State) : State :=
  emit8 (dithered g8 x s.nextDraw (s.carry c)) (carryDraw c (dithered g8 x s.nextDraw (s.carry c)) s)

/-- QUANT8 (R133 to R139). The gain is read once (R131). -/
def execQuant8 (s : State) : Host.Outcome State Fault Refusal :=
  .next (quantizeBlock (quant8Component (fmul32 f32Quarter s.ts.gainLinear)) s)

/-- The output word for `y` (R142), `ANY16` where `y` is not finite (R143). -/
def emit16 (y : F32) (s : State) : State :=
  if finite32 y then s.emit (le16 (narrow16 (roundHalfAway y)))
  else (s.emit (le16 (Config.freeAny16 s.freeUsed))).useFree

/-- One component of the 16-bit mode (R140): no dither, no draw (R141). -/
def quant16Component (g16 : F32) (_c : Channel) (x : F32) (s : State) : State := emit16 (fmul32 g16 x) s

/-- QUANT16 (R140 to R143). -/
def execQuant16 (s : State) : Host.Outcome State Fault Refusal :=
  .next (quantizeBlock (quant16Component (fmul32 f32Four s.ts.gainLinear)) s)

/-- One component of the 32-bit mode (R144): the bit pattern, copied. -/
def pass32Component (_c : Channel) (x : F32) (s : State) : State := s.emit (le32 x)

/-- PASS32 (R144, R145): the gain is not applied. -/
def execPass32 (s : State) : Host.Outcome State Fault Refusal := .next (quantizeBlock pass32Component s)

end Sys2Proof.Machine
end

