-- ==== Sys2Proof/Machine/Dispatch.lean ====
section
/-! DEFINITION. The meaning of every instruction: one arm per constructor of `Instr` (R103, R130). -/

namespace Sys2Proof.Machine

def exec (i : Instr) (s : State) : Host.Outcome State Fault Refusal :=
  match i with
  | .nop0 payload => Sys2Proof.Machine.execNop0 payload s
  | .setfreq payload => Sys2Proof.Machine.execSetfreq payload s
  | .setrate payload => Sys2Proof.Machine.execSetrate payload s
  | .info3 payload => Sys2Proof.Machine.execInfo3 payload s
  | .setgain payload => Sys2Proof.Machine.execSetgain payload s
  | .nophi opcode payload => Sys2Proof.Machine.execNophi opcode payload s
  | .quant8 => Sys2Proof.Machine.execQuant8 s
  | .quant16 => Sys2Proof.Machine.execQuant16 s
  | .pass32 => Sys2Proof.Machine.execPass32 s

end Sys2Proof.Machine
end

