-- ==== Sys2Proof/Machine/Requests.lean ====
section
/-! DEFINITION. The requests of the host (`00_scope.md` R16): their admission (R7, R8, R32, R191), the decoder's frame
loop (R100 to R102, R112) and the quantize request (R130). -/

namespace Sys2Proof.Machine

/-- The frame at the cursor (R61, R101). -/
def fetchFrame (s : State) : Decoded := decode .cmd (s.cmd.drop s.pos)

/-- The frame loop (R101) with at most `n` frames left: each frame is executed to completion and advances the cursor by
exactly 5 (R30). A DeviceFatal ends it at once (R112). -/
def frameLoop : Nat → State → Host.Outcome State Fault Refusal
  | 0, s => .next s
  | n + 1, s =>
    if s.phase = .halted then .next s
    else
      match fetchFrame s with
      | .rejected _ => .next s
      | .ok i _ =>
        match exec i s with
        | .next t => frameLoop n (t.setPos (t.pos + 5))
        | .fault r => .fault r
        | .refused r => .refused r

/-- The end of a DECODE request (R102): the tail, the buffer and the cursor are discarded and the Action is `Continue`,
unless a DeviceFatal has made it `Fatal` (R112). -/
def finishDecode (s : State) : State :=
  if s.phase = .halted then s.loadCmd [] else (s.loadCmd []).setAction .continued

/-- What follows an outcome that is a next state. -/
def thenNext (o : Host.Outcome State Fault Refusal) (f : State → State) : Host.Outcome State Fault Refusal :=
  match o with
  | .next s => .next (f s)
  | .fault r => .fault r
  | .refused r => .refused r

/-- `DECODE(buf, len, sendFailed)`, once admitted: the disconnect check first (R100, R166), then `floor(len / 5)` frames
(R101). -/
def decodeRequest (read : SocketRead) (sendFailed : Bool) (s : State) : Host.Outcome State Fault Refusal :=
  if disconnectCondition read sendFailed then .next (raiseDisconnect s)
  else thenNext (frameLoop ((readBytes read).length / 5) (s.loadCmd (readBytes read))) finishDecode

/-- The mode that `TS.bitDepth` selects (R91, R130). -/
def fetchMode (s : State) : Decoded := decode .mode [modeByte s.ts.bitDepth]

/-- `QUANTIZE(block)`, once admitted: the selected mode runs on the block, which is "consumed and discarded" (R52,
R130). -/
def quantizeRequest (block : List Pair) (s : State) : Host.Outcome State Fault Refusal :=
  match fetchMode s with
  | .ok i _ => thenNext (exec i (s.loadSample block)) (State.loadSample [])
  | .rejected _ => .next s

/-- Which requests a phase admits (R32; POR in every phase, R190, log entry 29). -/
def phaseAdmits : Phase → Request → Bool
  | _, .por => true
  | .idle, .sessionStart => true
  | .active, .sessionEnd => true
  | .active, .decode _ _ => true
  | .active, .quantize _ => true
  | _, _ => false

/-- One whole request (R16), refused where it is not admitted. -/
def serve (r : Request) (s : State) : Host.Outcome State Fault Refusal :=
  if phaseAdmits s.phase r then
    match r with
    | .por => if configLegal s.cfg then .next (powerOnReset s) else .refused .invalidConfiguration
    | .sessionStart => .next (sessionStart s)
    | .sessionEnd => .next (sessionEnd s)
    | .decode read sendFailed =>
      if (readBytes read).length ≤ s.cfg.cmdBufMax then decodeRequest read sendFailed s
      else .refused .bufferTooLong
    | .quantize block =>
      if block.length ≤ s.cfg.maxBlockPairs then quantizeRequest block s else .refused .blockTooLong
  else .refused .notAdmitted

/-- A machine of which the host asks nothing: it stays as it is (R16), but HALTED is a fault (R169). -/
def noRequest (s : State) : Host.Outcome State Fault Refusal :=
  if s.phase = .halted then .fault .halted else .next s

/-- A parameter of at least 5, so that one frame fits in a read (log entry 13). -/
def atLeastFrame (n : Nat) : Nat := n - 5 + 5

/-- The state in which the next request is a DECODE of exactly these bytes (log entry 13). -/
def offerFrame (bytes : List Byte) (s : State) : State :=
  { s with
    phase := .active
    cfg := { s.cfg with cmdBufMax := atLeastFrame s.cfg.cmdBufMax }
    requests := .decode (.data bytes) false :: s.requests }

/-- The state in which the next request is a QUANTIZE, in this mode, of the block in the `SAMPLE` space (log
entry 13). -/
def offerMode (depth : BitDepth) (s : State) : State :=
  { s with
    phase := .active
    ts := { s.ts with bitDepth := depth }
    requests := .quantize s.sample :: s.requests }

/-- The bit depth that selects a mode (R91). -/
def depthOfMode : Instr → Option BitDepth
  | .quant8 => some .d8
  | .quant16 => some .d16
  | .pass32 => some .d32
  | .nop0 _ => none
  | .setfreq _ => none
  | .setrate _ => none
  | .info3 _ => none
  | .setgain _ => none
  | .nophi _ _ => none

/-- The state in which the next request runs the instruction of these bytes. -/
def offerBytes (f : Format) (bytes : List Byte) (s : State) : State :=
  match f with
  | .cmd => offerFrame bytes s
  | .mode =>
    match decode .mode bytes with
    | .rejected _ => s
    | .ok i _ =>
      match depthOfMode i with
      | some d => offerMode d s
      | none => s

end Sys2Proof.Machine
end

