-- ==== Sys2Proof/Machine/Step.lean ====
section
/-! DEFINITION. The step: one whole request of the host (`00_scope.md` R16, `70_reset_and_hazards.md` R205). -/

namespace Sys2Proof.Machine

/-- One step: the next request the host has issued, as a whole. -/
def step (s : State) : Host.Outcome State Fault Refusal :=
  match s.requests with
  | [] => noRequest s
  | r :: rest => serve r (s.takeRequest rest)

/-- `s` with the instruction of an opcode-table word standing where the next step fetches its instruction. -/
def State.withFetchWord (s : State) (nbits w : Nat) : State :=
  offerBytes (tableWordBytes nbits w).1 (tableWordBytes nbits w).2 s

end Sys2Proof.Machine
end

