-- ==== Sys2Proof/Safety.lean ====
section
/-! DEFINITION. What claims call a good state and a good end of a run. -/

namespace Sys2Proof.Machine

/-- A binary32 number in `[0,1)` with a clear sign bit (R27, R173). -/
def inUnit (v : F32) : Bool := v.toNat < 0x3F800000

/-- A binary32 number above zero: not a NaN, not a zero, the sign clear; +Inf is one (R23). -/
def positive32 (v : F32) : Bool := 0 < v.toNat && v.toNat ≤ infBits

/-- The `k`-th draw from here, counting from 0 (R150, R173): the random port's values first, free values after them. -/
def drawAt (s : State) (k : Nat) : F32 :=
  match s.rnd[k]? with
  | some d => drawBits d
  | none => drawBits (Config.freeDraw (s.drawn + k))

/-- The reply the `k`-th Sample Source call from here gets, counting from 0 (R174). -/
def replyAt (s : State) (k : Nat) : SrcStatus :=
  match s.srcReplies[k]? with
  | some r => r
  | none => if Config.freeSrcOk (s.srcCalls.length + k) then .ok else .err

/-- 0 for channel I and 1 for channel Q, `off` of R135. -/
def chanOff : Channel → Nat
  | .i => 0
  | .q => 1

/-- The sample of a channel in a pair (R52). -/
def Pair.at (p : Pair) : Channel → F32
  | .i => p.i
  | .q => p.q

/-- The scaled and dithered sample `y` of pair `k`, channel `c`, in the 8-bit mode, from the block, the gain, the draws
and the carries the request starts with: its own draw is number `2k + off(c)`, and what is subtracted is the previous
draw of the channel, the carry for the first pair (R134, R135, R150). -/
def scaled8 (s : State) (k : Nat) (c : Channel) (x : F32) : F32 :=
  dithered (fmul32 f32Quarter s.ts.gainLinear) x (drawAt s (2 * k + chanOff c))
    (if k = 0 then s.carry c else drawAt s (2 * (k - 1) + chanOff c))

/-- The scaled sample `y` in the 16-bit mode (R140). -/
def scaled16 (s : State) (x : F32) : F32 := fmul32 (fmul32 f32Four s.ts.gainLinear) x

/-- The invariant of the block between two requests. -/
structure Inv (s : State) : Prop where
  /-- the parameters meet their conditions (R191) -/
  legal : configLegal s.cfg = true
  /-- `gainLinear > 0` (R20, R23) -/
  gain : positive32 s.ts.gainLinear = true
  /-- the rate and the frequency are finite numbers (R10, R21, R22) -/
  rates : finite64 s.ts.sampleRate = true ∧ finite64 s.ts.centerFrequency = true
  /-- in a session the carries are in `[0,1)` (R27) -/
  carries : s.phase = .active → inUnit s.ds.carryI = true ∧ inUnit s.ds.carryQ = true
  /-- the cursor, the sample index and the two input spaces are those of no request (R30, R31, R50, R52) -/
  transient : s.cmd = [] ∧ s.pos = 0 ∧ s.sample = [] ∧ s.idx = 0

/-- The next `n` requests, served one after another. -/
def steps : Nat → State → Host.Outcome State Fault Refusal
  | 0, s => .next s
  | n + 1, s =>
    match step s with
    | .next t => steps n t
    | .fault r => .fault r
    | .refused r => .refused r

/-- A run is "the sequence of requests the host issues from a POR on" (R206): those pending in `s`, and when all have been
served the block is in `t`. That the POR is the first of the pending requests, so that requests placed into `State.reset`
without one are no run, and that a run stops before the next POR are the model's choices (log entry 30). -/
def RunEndsIn (s t : State) : Prop :=
  s.requests.head? = some .por ∧ .por ∉ s.requests.tail ∧ steps s.requests.length s = .next t

/-- A run ends well "only in PHASE IDLE, after a SESSION_END, with no request in progress" (R206). -/
def EndsWell (s t : State) : Prop :=
  RunEndsIn s t ∧ s.requests.getLast? = some .sessionEnd ∧ t.phase = .idle ∧ t.requests = []

/-- `r` is the exact number of `num / den` units, rounded once to nearest with ties to even (R12). From half a last place
above the largest finite number up it is an infinity (R149; log entry 11). -/
structure RoundedOnce (r : F32) (num : Int) (den : Nat) : Prop where
  /-- the sign is that of the exact number, which of a zero says nothing -/
  sign : num ≠ 0 → signBit r = decide (num < 0)
  /-- a number too large gives an infinity -/
  overflow : (2 ^ 25 - 1) * 2 ^ 252 * den ≤ num.natAbs → magBits r = infBits
  /-- any other gives a finite number -/
  finite : num.natAbs < (2 ^ 25 - 1) * 2 ^ 252 * den → finite32 r = true
  /-- no finite number is nearer than a finite result -/
  nearest : ∀ (s t : Bool) (m n : Nat) (c : F32), unpack32 r = .fin s m → unpack32 c = .fin t n →
    (signedUnits s m * den - num).natAbs ≤ (signedUnits t n * den - num).natAbs
  /-- if another number is equally near, the result is the one with an even pattern -/
  even : ∀ (s t : Bool) (m n : Nat) (c : F32), unpack32 r = .fin s m → unpack32 c = .fin t n →
    signedUnits t n ≠ signedUnits s m →
      (signedUnits t n * den - num).natAbs = (signedUnits s m * den - num).natAbs → r.toNat % 2 = 0

end Sys2Proof.Machine
end

