-- ==== Sys2Proof/Certificates/Slice0/Obligations.lean ====
section
/-! DEFINITION. The statements for the provers. Each docstring names the rule of the spec it formalises. -/

open Sys2Proof Sys2Proof.Machine

/-! ## Encoding -/

/-- Words written out from R80, R89 and R91 decode to the instructions they stand for. -/
def Obligations.WrittenWordsDecode : Prop :=
  decode .cmd [0x00#8, 0xC8#8, 0x02#8, 0x00#8, 0x24#8] = .ok (.nop0 3355574308#32) [] ∧
    decode .cmd [0x01#8, 0x05#8, 0xF5#8, 0xE1#8, 0x00#8] = .ok (.setfreq 100000000#32) [] ∧
    decode .cmd [0x02#8, 0x00#8, 0x24#8, 0x9F#8, 0x00#8] = .ok (.setrate 2400000#32) [] ∧
    decode .cmd [0x04#8, 0x00#8, 0x00#8, 0x00#8, 0xC8#8] = .ok (.setgain 200#32) [] ∧
    decode .cmd [0xFF#8, 0x01#8, 0x02#8, 0x03#8, 0x04#8] = .ok (.nophi 0xFF#8 16909060#32) [] ∧
    decode .mode [0x10#8] = .ok .quant16 []

/-- Decoding the encoding of a well-formed instruction gives it back, with every operand (R80, R84, R91). -/
def Obligations.DecodeOfEncodeIsTheInstruction : Prop :=
  ∀ (i : Instr) (rest : List Byte), i.wellFormed = true → decode i.format (encode i ++ rest) = .ok i rest

/-- Whatever the decoder accepts is well formed and is written by exactly the bytes it was read from (R80, R84). -/
def Obligations.EncodeOfDecodeIsTheBytes : Prop :=
  ∀ (f : Format) (bs : List Byte) (i : Instr) (rest : List Byte),
    decode f bs = .ok i rest → i.wellFormed = true ∧ i.format = f ∧ encode i ++ rest = bs

/-- The opcode byte alone selects the command, over all 256 values (R103), and the payload is the unsigned big-endian
number of the other four bytes (R82). -/
def Obligations.OpcodeSelectsAndPayloadIsBigEndian : Prop :=
  ∀ (b0 b1 b2 b3 b4 : Byte) (rest : List Byte),
    ∃ p : Word,
      p.toNat = b1.toNat * 2 ^ 24 + b2.toNat * 2 ^ 16 + b3.toNat * 2 ^ 8 + b4.toNat ∧
        decode .cmd (b0 :: b1 :: b2 :: b3 :: b4 :: rest) =
          .ok
            (if b0.toNat = 0 then .nop0 p
            else if b0.toNat = 1 then .setfreq p
            else if b0.toNat = 2 then .setrate p
            else if b0.toNat = 3 then .info3 p
            else if b0.toNat = 4 then .setgain p
            else .nophi b0 p)
            rest

/-- Every group of five bytes is a frame, and fewer than five bytes are none (R86). -/
def Obligations.FiveBytesAreAFrameAndFewerAreNone : Prop :=
  ∀ bs : List Byte,
    (5 ≤ bs.length → ∃ i, decode .cmd bs = .ok i (bs.drop 5) ∧ i.wellFormed = true) ∧
      (bs.length < 5 → decode .cmd bs = .rejected .partialFrame)

/-! ## Commands -/

/-- NOP0, INFO3 and NOPHI leave the whole state as it was, whatever the payload (R106, R108, R109). -/
def Obligations.ReservedCommandsChangeNothing : Prop :=
  ∀ (opcode : Byte) (p : Word) (s : State),
    exec (.nop0 p) s = .next s ∧ exec (.info3 p) s = .next s ∧ exec (.nophi opcode p) s = .next s

/-- SETFREQ (R104): one call, whatever the stored frequency; on `ok` the field is written, on `err` DeviceFatal is raised
and nothing is written. Everything else stays as it was. -/
def Obligations.SetfreqRetunesThenStores : Prop :=
  ∀ (p : Word) (s : State),
    (s.nextReply = .ok →
      exec (.setfreq p) s =
        .next
          { s with
            ts := { s.ts with centerFrequency := u32ToF64 p }
            srcReplies := s.srcReplies.tail
            srcCalls := s.srcCalls ++ [{ op := .configureFrequency, arg := u32ToF64 p }] }) ∧
      (s.nextReply = .err →
        exec (.setfreq p) s =
          .next
            { s with
              phase := .halted
              action := some .fatal
              srcReplies := s.srcReplies.tail
              srcCalls := s.srcCalls ++ [{ op := .configureFrequency, arg := u32ToF64 p }] })

/-- SETRATE (R105): no call and no write when the rate is the stored one; else one call, and on `ok` the write, on `err`
DeviceFatal with the old rate kept. Everything else stays as it was. -/
def Obligations.SetrateActsOnlyOnADifferentRate : Prop :=
  ∀ (p : Word) (s : State),
    (differ64 (u32ToF64 p) s.ts.sampleRate = false → exec (.setrate p) s = .next s) ∧
      (differ64 (u32ToF64 p) s.ts.sampleRate = true →
        s.nextReply = .ok →
          exec (.setrate p) s =
            .next
              { s with
                ts := { s.ts with sampleRate := u32ToF64 p }
                srcReplies := s.srcReplies.tail
                srcCalls := s.srcCalls ++ [{ op := .configureSampleRate, arg := u32ToF64 p }] }) ∧
      (differ64 (u32ToF64 p) s.ts.sampleRate = true →
        s.nextReply = .err →
          exec (.setrate p) s =
            .next
              { s with
                phase := .halted
                action := some .fatal
                srcReplies := s.srcReplies.tail
                srcCalls := s.srcCalls ++ [{ op := .configureSampleRate, arg := u32ToF64 p }] })

/-- `u32_to_f64` is exact (R13): the pattern's value, `(2^52 + fraction) * 2^(exponent - 1023) / 2^52`, is the payload. -/
def Obligations.PayloadConvertsToBinary64Exactly : Prop :=
  ∀ n : Word,
    (n.toNat = 0 → (u32ToF64 n).toNat = 0) ∧
      (n.toNat ≠ 0 →
        (u32ToF64 n).toNat < 2 ^ 63 ∧
          1023 ≤ (u32ToF64 n).toNat / 2 ^ 52 ∧
          (2 ^ 52 + (u32ToF64 n).toNat % 2 ^ 52) * 2 ^ ((u32ToF64 n).toNat / 2 ^ 52 - 1023) = n.toNat * 2 ^ 52)

/-- The comparison SETRATE makes between rates set by commands is exact: it is that of the payloads (R13, R105). -/
def Obligations.RateComparisonIsThatOfThePayloads : Prop :=
  ∀ m n : Word, differ64 (u32ToF64 m) (u32ToF64 n) = true ↔ m ≠ n

/-- Setting the rate again to the value just accepted makes no call and changes nothing (R105, example S3). -/
def Obligations.SetrateIsIdempotent : Prop :=
  ∀ (p : Word) (s t : State),
    exec (.setrate p) s = .next t → t.phase ≠ .halted → exec (.setrate p) t = .next t

/-- SETGAIN (R107): in the 8-bit and 16-bit modes the gain is the product of `GAIN_SCALE` and ten to the power
`((payload / 10) - 12) / 10`, every step in binary32; in the 32-bit mode nothing changes. Everything else stays as it
was. -/
def Obligations.SetgainStoresTheScaledPower : Prop :=
  ∀ (p : Word) (s : State),
    (s.ts.bitDepth = .d8 ∨ s.ts.bitDepth = .d16 →
      exec (.setgain p) s =
        .next
          { s with
            ts :=
              { s.ts with
                gainLinear :=
                  fmul32 s.cfg.gainScale
                    (pow10
                      (fdiv32 (fsub32 (fdiv32 (u32ToF32 p) 0x41200000#32) 0x41400000#32) 0x41200000#32)) } }) ∧
      (s.ts.bitDepth = .d32 → exec (.setgain p) s = .next s)

/-- Corner case (b) of R107: payload 120 stores `GAIN_SCALE` itself. -/
def Obligations.SetgainAt120StoresGainScale : Prop :=
  ∀ s : State,
    configLegal s.cfg = true →
      s.ts.bitDepth ≠ .d32 →
        exec (.setgain 120#32) s = .next { s with ts := { s.ts with gainLinear := s.cfg.gainScale } }

/-- Corner case (d) of R107: from payload 3974 up the gain is `+Inf`. -/
def Obligations.SetgainFrom3974StoresInfinity : Prop :=
  ∀ (p : Word) (s : State),
    configLegal s.cfg = true →
      s.ts.bitDepth ≠ .d32 →
        3974 ≤ p.toNat →
          exec (.setgain p) s = .next { s with ts := { s.ts with gainLinear := 0x7F800000#32 } }

/-- A gain a command stores is above zero, for every payload (R23, R107 corner case (c)); it rests on the bounds the model
puts on `POW10` (log entry 9) and on its reading of R5 (log entry 25). -/
def Obligations.SetgainStoresAPositiveGain : Prop :=
  ∀ (p : Word) (s t : State),
    configLegal s.cfg = true →
      s.ts.bitDepth ≠ .d32 → exec (.setgain p) s = .next t → positive32 t.ts.gainLinear = true

/-- What commands never touch, as the spec derives it (the sentence of `40_commands.md` section 3 marked [derived]):
DitherState, the accumulators, WIRE, the random port, the bit depth and, but for
DeviceFatal, PHASE; the rest of the frame with them. Nor does a command read DitherState or the accumulators: with others
there it does the same. -/
def Obligations.CommandsNeverTouchTheQuantizer : Prop :=
  ∀ (i : Instr) (s : State),
    i.format = .cmd →
      ∃ t,
        exec i s = .next t ∧
          (t.ds = s.ds ∧ t.dbg = s.dbg ∧ t.wire = s.wire ∧ t.rnd = s.rnd ∧ t.drawn = s.drawn) ∧
          (t.ts.bitDepth = s.ts.bitDepth ∧
            (t.phase = s.phase ∨ t.phase = .halted ∧ t.action = some .fatal ∧ s.nextReply = .err)) ∧
          (t.cfg = s.cfg ∧ t.cmd = s.cmd ∧ t.pos = s.pos ∧ t.sample = s.sample ∧ t.idx = s.idx ∧
            t.requests = s.requests ∧ t.freeUsed = s.freeUsed) ∧
          ∀ (ds : Dither) (dbg : Debug), exec i { s with ds := ds, dbg := dbg } = .next { t with ds := ds, dbg := dbg }

/-! ## The DECODE request -/

/-- A step runs the decoded command: a DECODE request of one frame is `exec` of the frame's instruction on the loaded
state, then the end of the request (R101, R102). -/
def Obligations.StepRunsTheDecodedCommand : Prop :=
  ∀ (s : State) (i : Instr) (rest : List Request),
    s.phase = .active →
      i.format = .cmd →
        i.wellFormed = true →
          5 ≤ s.cfg.cmdBufMax →
            s.requests = .decode (.data (encode i)) false :: rest →
              step s =
                thenNext (exec i ((s.takeRequest rest).loadCmd (encode i)))
                  (fun t => finishDecode (t.setPos (t.pos + 5)))

/-- One turn of the frame loop runs the instruction whose bytes stand at the cursor and then goes on 5 bytes further
(R30, R101). -/
def Obligations.FrameLoopRunsTheFrameAtTheCursor : Prop :=
  ∀ (n : Nat) (s : State) (i : Instr) (rest : List Byte),
    s.phase ≠ .halted →
      decode .cmd (s.cmd.drop s.pos) = .ok i rest →
        ∃ t, exec i s = .next t ∧ frameLoop (n + 1) s = frameLoop n (t.setPos (t.pos + 5))

/-- The disconnect condition (R100, R161): the request answers `Disconnect` and changes no register, whatever the buffer
holds. -/
def Obligations.DisconnectChangesNoRegister : Prop :=
  ∀ (s : State) (read : SocketRead) (sendFailed : Bool) (rest : List Request),
    s.phase = .active →
      (readBytes read).length ≤ s.cfg.cmdBufMax →
        readLength read ≤ 0 ∨ sendFailed = true →
          s.requests = .decode read sendFailed :: rest →
            step s = .next { s with requests := rest, wire := [], action := some .disconnect }

/-- The tail after the last complete frame is dropped without a trace (R62), and so is a whole read of one to four bytes:
it executes no frame, changes nothing and is no disconnect (R102). -/
def Obligations.TrailingBytesAreDropped : Prop :=
  ∀ (s : State) (frames tail : List Byte) (rest : List Request),
    s.phase = .active →
      frames.length % 5 = 0 →
        tail.length < 5 →
          frames.length + tail.length ≤ s.cfg.cmdBufMax →
            (frames ≠ [] →
                step { s with requests := .decode (.data (frames ++ tail)) false :: rest } =
                  step { s with requests := .decode (.data frames) false :: rest }) ∧
              (tail ≠ [] →
                step { s with requests := .decode (.data tail) false :: rest } =
                  .next { s with requests := rest, wire := [], action := some .continued, cmd := [], pos := 0 })

/-- Concatenation law, as the spec derives it in its own terms (the sentence of `40_commands.md` section 3 marked
[derived]): decoding `a ++ b` is decoding `a` and then `b`, when no call returns `err`. -/
def Obligations.DecodeOfConcatenationIsBothInOrder : Prop :=
  ∀ (s : State) (a b : List Byte) (rest : List Request),
    s.phase = .active →
      a ≠ [] →
        b ≠ [] →
          a.length % 5 = 0 →
            b.length % 5 = 0 →
              a.length + b.length ≤ s.cfg.cmdBufMax →
                (∀ k, k < (a.length + b.length) / 5 → replyAt s k = .ok) →
                  ∃ t u,
                    step { s with requests := .decode (.data (a ++ b)) false :: rest } = .next t ∧
                      step
                          { s with
                            requests := .decode (.data a) false :: .decode (.data b) false :: rest } = .next u ∧
                      step u = .next t ∧ u.action = some .continued ∧ t.action = some .continued

/-- A DeviceFatal ends the request at once (R112): the request returns `Fatal`, what follows the failing frame in the
buffer is not executed, and what the frames before it did stays done. -/
def Obligations.DeviceFatalEndsTheRequest : Prop :=
  ∀ (s u : State) (frames tail : List Byte) (rest : List Request),
    s.phase = .active →
      frames ≠ [] →
        frames.length % 5 = 0 →
          tail ≠ [] →
            frames.length + tail.length ≤ s.cfg.cmdBufMax →
              step { s with requests := .decode (.data frames) false :: rest } = .next u →
                (u.phase = .halted →
                    u.action = some .fatal ∧
                      step { s with requests := .decode (.data (frames ++ tail)) false :: rest } = .next u) ∧
                  (u.phase ≠ .halted →
                    u.action = some .continued ∧
                      step { s with requests := .decode (.data (frames ++ tail)) false :: rest } =
                        step { u with requests := .decode (.data tail) false :: rest })

/-- A failing retune, as a whole request (R162, R169): PHASE is HALTED, the Action `Fatal`, the call recorded, and no
register is written; the bytes after the frame do not matter. -/
def Obligations.FailedRetuneHaltsTheBlock : Prop :=
  ∀ (s : State) (p : Word) (tail : List Byte) (rest : List Request),
    s.phase = .active →
      5 + tail.length ≤ s.cfg.cmdBufMax →
        s.nextReply = .err →
          s.requests = .decode (.data (encode (.setfreq p) ++ tail)) false :: rest →
            step s =
              .next
                { s with
                  requests := rest
                  wire := []
                  cmd := []
                  pos := 0
                  phase := .halted
                  action := some .fatal
                  srcReplies := s.srcReplies.tail
                  srcCalls := s.srcCalls ++ [{ op := .configureFrequency, arg := u32ToF64 p }] }

/-- No input stops the decoder (R163): every admitted DECODE request, whatever its bytes, ends in a next state with an
Action, and either the session goes on or a Sample Source call has failed. -/
def Obligations.EveryDecodeRequestCompletes : Prop :=
  ∀ (s : State) (read : SocketRead) (sendFailed : Bool) (rest : List Request),
    s.phase = .active →
      (readBytes read).length ≤ s.cfg.cmdBufMax →
        s.requests = .decode read sendFailed :: rest →
          ∃ t,
            step s = .next t ∧ t.requests = rest ∧
              (t.phase = .active ∧ (t.action = some .continued ∨ t.action = some .disconnect) ∨
                t.phase = .halted ∧ t.action = some .fatal)

/-! ## The quantizer -/

/-- A step runs the selected mode: a QUANTIZE request is `exec` of the mode whose byte `TS.bitDepth` shows as, on the
loaded block, which is then discarded (R52, R91, R130). -/
def Obligations.StepRunsTheSelectedMode : Prop :=
  ∀ (s : State) (i : Instr) (block : List Pair) (rest : List Request),
    s.phase = .active →
      block.length ≤ s.cfg.maxBlockPairs →
        decode .mode [modeByte s.ts.bitDepth] = .ok i [] →
          s.requests = .quantize block :: rest →
            step s = thenNext (exec i ((s.takeRequest rest).loadSample block)) (State.loadSample [])

/-- QUANT8's bytes (R134, R135, R136, R139): component `c` of pair `k` is the byte at offset `2k + off(c)`; for a
finite `y` it is `(int(round(y)) + 128) mod 256`, `y` being made of that sample, the gain, its own draw and the previous
draw of its channel, the lane semantics of `41_quantizer.md` section 5, which the spec marks [derived]. -/
def Obligations.Quant8EmitsTheDitheredSamples : Prop :=
  ∀ s : State,
    ∃ t,
      exec .quant8 s = .next t ∧
        t.wire.length = 2 * s.sample.length ∧
        ∀ (k : Nat) (p : Pair) (c : Channel),
          s.sample[k]? = some p →
            finite32 (scaled8 s k c (p.at c)) = true →
              t.wire[2 * k + chanOff c]? =
                some (BitVec.ofInt 8 ((intOf (roundHalfAway (scaled8 s k c (p.at c))) + 128) % 256))

/-- QUANT8's registers (R26, R28, R135): each carry is the last draw of its channel, each accumulator the sum of its
channel's residues from the first pair to the last, and `2N` draws are consumed. Everything but those registers, WIRE and
the model's counter of unspecified values stays as it was. Which NaN an accumulator holds rests on log entry 8. -/
def Obligations.Quant8UpdatesCarriesAndAccumulators : Prop :=
  ∀ s : State,
    ∃ t,
      exec .quant8 s = .next t ∧
        (∀ c, t.carry c =
          if s.sample.length = 0 then s.carry c else drawAt s (2 * (s.sample.length - 1) + chanOff c)) ∧
        (∀ c, t.errAcc c =
          (s.sample.zipIdx).foldl
            (fun acc pk =>
              fadd32 acc (fsub32 (scaled8 s pk.2 c (pk.1.at c)) (roundHalfAway (scaled8 s pk.2 c (pk.1.at c)))))
            (s.errAcc c)) ∧
        t =
          { s with
            ds := t.ds
            dbg := t.dbg
            wire := t.wire
            idx := 0
            rnd := s.rnd.drop (2 * s.sample.length)
            drawn := s.drawn + 2 * s.sample.length
            freeUsed := t.freeUsed }

/-- A sample whose `y` is a NaN or an infinity makes its channel's accumulator a NaN, and it stays one to the end of the
block (R137). -/
def Obligations.NonFiniteSampleMakesTheAccumulatorNaN : Prop :=
  ∀ (s t : State) (k : Nat) (p : Pair) (c : Channel),
    s.sample[k]? = some p →
      finite32 (scaled8 s k c (p.at c)) = false → exec .quant8 s = .next t → isNaN32 (t.errAcc c) = true

/-- QUANT16 (R140, R141, R142): component `c` of pair `k` is the word at offset `4k + 2 off(c)`, low byte first; for a
finite `y = g16 * x` it is `int(round(y)) mod 65536`. No register changes. -/
def Obligations.Quant16EmitsTheRoundedSamples : Prop :=
  ∀ s : State,
    ∃ t,
      exec .quant16 s = .next t ∧
        t = { s with wire := t.wire, idx := 0, freeUsed := t.freeUsed } ∧
        t.wire.length = 4 * s.sample.length ∧
        ∀ (k : Nat) (p : Pair) (c : Channel),
          s.sample[k]? = some p →
            finite32 (scaled16 s (p.at c)) = true →
              ∃ w : BitVec 16,
                (w.toNat : Int) = intOf (roundHalfAway (scaled16 s (p.at c))) % 65536 ∧
                  t.wire[4 * k + 2 * chanOff c]? = some (w.extractLsb' 0 8) ∧
                  t.wire[4 * k + 2 * chanOff c + 1]? = some (w.extractLsb' 8 8)

/-- PASS32 (R144, R145): the bit patterns of the block, each little-endian, I before Q, whatever the gain; no register
changes. -/
def Obligations.Pass32CopiesTheBlock : Prop :=
  ∀ s : State,
    exec .pass32 s =
      .next
        { s with
          idx := 0
          wire :=
            s.sample.flatMap fun p =>
              [p.i.extractLsb' 0 8, p.i.extractLsb' 8 8, p.i.extractLsb' 16 8, p.i.extractLsb' 24 8,
                p.q.extractLsb' 0 8, p.q.extractLsb' 8 8, p.q.extractLsb' 16 8, p.q.extractLsb' 24 8] }

/-- An empty block gives zero bytes and changes no register in every mode (R132). -/
def Obligations.EmptyBlockGivesNoBytes : Prop :=
  ∀ (i : Instr) (s : State),
    i.format = .mode → s.sample = [] → exec i s = .next { s with wire := [], idx := 0 }

/-- Output sizes by mode (R54), for a QUANTIZE request. -/
def Obligations.QuantizeReturnsTheSizeOfItsMode : Prop :=
  ∀ (s : State) (block : List Pair) (rest : List Request),
    s.phase = .active →
      block.length ≤ s.cfg.maxBlockPairs →
        s.requests = .quantize block :: rest →
          ∃ t,
            step s = .next t ∧
              (s.ts.bitDepth = .d8 → t.wire.length = 2 * block.length) ∧
              (s.ts.bitDepth = .d16 → t.wire.length = 4 * block.length) ∧
              (s.ts.bitDepth = .d32 → t.wire.length = 8 * block.length)

/-- Purity (R147, with R141 and R145): a QUANTIZE request changes nothing but the returned bytes, the draws, DitherState
and the accumulators (and the model's counter of unspecified values; the request and its block are consumed), so it makes
no Sample Source call, raises no event and writes no TuningState field, for any input. Outside the 8-bit mode it leaves
DitherState, the accumulators and the random port as they were. -/
def Obligations.QuantizeIsPure : Prop :=
  ∀ (s : State) (block : List Pair) (rest : List Request),
    s.phase = .active →
      block.length ≤ s.cfg.maxBlockPairs →
        s.requests = .quantize block :: rest →
          ∃ t,
            step s = .next t ∧
              t =
                { s with
                  requests := rest
                  action := none
                  sample := []
                  idx := 0
                  wire := t.wire
                  ds := t.ds
                  dbg := t.dbg
                  rnd := t.rnd
                  drawn := t.drawn
                  freeUsed := t.freeUsed } ∧
              (s.ts.bitDepth ≠ .d8 → t.ds = s.ds ∧ t.dbg = s.dbg ∧ t.rnd = s.rnd ∧ t.drawn = s.drawn)

/-- The quantizer reads `TS.bitDepth` and `TS.gainLinear` and nothing else of TuningState (R130; C7 of
`90_conflicts.md`): with another rate and frequency it does the same. For unspecified bytes and NaN patterns that rests on
log entries 7 and 8. -/
def Obligations.QuantizerDoesNotReadRateOrFrequency : Prop :=
  ∀ (i : Instr) (s : State) (rate freq : F64),
    i.format = .mode →
      ∃ t,
        exec i s = .next t ∧
          exec i { s with ts := { s.ts with sampleRate := rate, centerFrequency := freq } } =
            .next { t with ts := { t.ts with sampleRate := rate, centerFrequency := freq } }

/-- There is no framing between blocks (R53): quantizing one block and then another gives the bytes of quantizing the two
as one block, and leaves the same registers. That the bytes of a component that is not finite are the same too rests on
free values numbered by a counter (log entry 7), and that an accumulator that is a NaN holds the same NaN rests on the
model's choice that equal operations give equal NaNs (log entry 8). -/
def Obligations.BlocksMayBeCutAnywhere : Prop :=
  ∀ (i : Instr) (s : State) (a b : List Pair),
    i.format = .mode →
      ∃ t u v,
        exec i (s.loadSample (a ++ b)) = .next t ∧
          exec i (s.loadSample a) = .next u ∧
          exec i (u.loadSample b) = .next v ∧
          t.wire = u.wire ++ v.wire ∧ v = { t with wire := v.wire, sample := b }

/-- All-zero input in the 8-bit mode, property (a) of `41_quantizer.md` section 2, which the spec marks [derived]: with a
finite gain every byte is 0x7F, 0x80 or 0x81. -/
def Obligations.AllZeroInputStaysAtTheOffset : Prop :=
  ∀ (s t : State) (b : Byte),
    finite32 s.ts.gainLinear = true →
      inUnit s.ds.carryI = true →
        inUnit s.ds.carryQ = true →
          (∀ p ∈ s.sample, magBits p.i = 0 ∧ magBits p.q = 0) →
            exec .quant8 s = .next t → b ∈ t.wire → b = 0x7F#8 ∨ b = 0x80#8 ∨ b = 0x81#8

/-- 8-bit narrowing (R136), through the byte the component emits: no clamp, the low 8 bits of the integer plus 128; the
integers from -128 to 127 map to 0 to 255 in order; from magnitude 2^31 up the byte is 0x80, a sentence the spec marks [derived]. -/
def Obligations.EightBitNarrowingWrapsAround : Prop :=
  ∀ (y : F32) (s : State),
    finite32 y = true →
      ∃ b : Byte,
        emit8 y s = { s with wire := s.wire ++ [b] } ∧
          (b.toNat : Int) = (intOf (roundHalfAway y) + 128) % 256 ∧
          (-128 ≤ intOf (roundHalfAway y) →
            intOf (roundHalfAway y) ≤ 127 → (b.toNat : Int) = intOf (roundHalfAway y) + 128) ∧
          (2 ^ 31 ≤ (intOf (roundHalfAway y)).natAbs → b = 0x80#8)

/-- 16-bit narrowing (R142), through the bytes the component emits: no clamp, the low 16 bits; the integers from -32768 to
32767 are read back exactly as signed words; from magnitude 2^39 up the word is zero, a sentence the spec marks [derived]. -/
def Obligations.SixteenBitNarrowingWrapsAround : Prop :=
  ∀ (y : F32) (s : State),
    finite32 y = true →
      ∃ w : BitVec 16,
        emit16 y s = { s with wire := s.wire ++ [w.extractLsb' 0 8, w.extractLsb' 8 8] } ∧
          (w.toNat : Int) = intOf (roundHalfAway y) % 65536 ∧
          (-32768 ≤ intOf (roundHalfAway y) →
            intOf (roundHalfAway y) ≤ 32767 → w.toInt = intOf (roundHalfAway y)) ∧
          (2 ^ 39 ≤ (intOf (roundHalfAway y)).natAbs → w = 0#16)

/-! ## Arithmetic -/

/-- `RoundHalfAway` (R14): the sign of `y` is kept and the magnitude is the integer `n` with `n - 1/2 <= |y| < n + 1/2`, so
the nearest one and, half way, the larger; a NaN gives a NaN and an infinity itself. -/
def Obligations.RoundHalfAwayIsTheNearestInteger : Prop :=
  ∀ y : F32,
    (∀ s m, unpack32 y = .fin s m →
      ∃ n, unpack32 (roundHalfAway y) = .fin s (n * 2 ^ 149) ∧
        n * 2 ^ 149 ≤ m + 2 ^ 148 ∧ m + 2 ^ 148 < (n + 1) * 2 ^ 149) ∧
      (∀ s, unpack32 y = .inf s → roundHalfAway y = y) ∧
      (unpack32 y = .nan → unpack32 (roundHalfAway y) = .nan)

/-- Sums and differences (R12, R149): of finite operands, the exact sum or difference rounded once to nearest, ties to
even, and an infinity where it is too large; a NaN for a NaN operand and for `Inf - Inf`. The sign of an exact zero is not
said (log entry 11). -/
def Obligations.SumAndDifferenceAreRoundedOnceToNearestEven : Prop :=
  ∀ a b : F32,
    (∀ (sa sb : Bool) (ma mb : Nat), unpack32 a = .fin sa ma → unpack32 b = .fin sb mb →
      RoundedOnce (fadd32 a b) (signedUnits sa ma + signedUnits sb mb) 1 ∧
        RoundedOnce (fsub32 a b) (signedUnits sa ma - signedUnits sb mb) 1) ∧
      (unpack32 a = .nan ∨ unpack32 b = .nan → isNaN32 (fadd32 a b) = true ∧ isNaN32 (fsub32 a b) = true) ∧
      (∀ s, unpack32 a = .inf s → unpack32 b = .inf (!s) → isNaN32 (fadd32 a b) = true) ∧
      (∀ s, unpack32 a = .inf s → unpack32 b = .inf s → isNaN32 (fsub32 a b) = true)

/-- Products (R12, R149): of finite operands, the exact product rounded once to nearest, ties to even, with the sign of the
exact product, and an infinity of that sign where it is too large; a NaN for a NaN operand and for `0 * Inf`; an infinity
for an infinity times a number that is neither, where the signs of the operands give its sign, and that of a zero product
too (log entry 11). The product of two units is `2^-149` units. -/
def Obligations.ProductIsRoundedOnceToNearestEven : Prop :=
  ∀ a b : F32,
    (∀ (sa sb : Bool) (ma mb : Nat), unpack32 a = .fin sa ma → unpack32 b = .fin sb mb →
      RoundedOnce (fmul32 a b) (signedUnits sa ma * signedUnits sb mb) (2 ^ 149) ∧
        signBit (fmul32 a b) = (sa != sb)) ∧
      (unpack32 a = .nan ∨ unpack32 b = .nan → isNaN32 (fmul32 a b) = true) ∧
      (∀ s t, unpack32 a = .fin s 0 ∧ unpack32 b = .inf t ∨ unpack32 a = .inf s ∧ unpack32 b = .fin t 0 →
        isNaN32 (fmul32 a b) = true) ∧
      (∀ s, unpack32 a = .inf s ∧ isNaN32 b = false ∧ magBits b ≠ 0 ∨
          unpack32 b = .inf s ∧ isNaN32 a = false ∧ magBits a ≠ 0 →
        unpack32 (fmul32 a b) = .inf (signBit a != signBit b))

/-- Quotients (R12, R149): of a finite number by a finite number that is not zero, the exact quotient rounded once to
nearest, ties to even, and an infinity where it is too large; a NaN for a NaN operand. The signs of the operands give its
sign, that of a zero quotient too (log entry 11). -/
def Obligations.QuotientIsRoundedOnceToNearestEven : Prop :=
  ∀ a b : F32,
    (∀ (sa sb : Bool) (ma mb : Nat), unpack32 a = .fin sa ma → unpack32 b = .fin sb mb → mb ≠ 0 →
      RoundedOnce (fdiv32 a b) (signedUnits (sa != sb) (ma * 2 ^ 149)) mb ∧ signBit (fdiv32 a b) = (sa != sb)) ∧
      (unpack32 a = .nan ∨ unpack32 b = .nan → isNaN32 (fdiv32 a b) = true)

/-- `u32_to_f32` (the notation of `00_scope.md`, R12): the payload rounded once to nearest, ties to even, with a clear sign
bit. -/
def Obligations.PayloadIsRoundedOnceToBinary32 : Prop :=
  ∀ n : Word, RoundedOnce (u32ToF32 n) (n.toNat * 2 ^ 149) 1 ∧ signBit (u32ToF32 n) = false

/-- The dither value lies strictly between -1 and 1, a sentence of `41_quantizer.md` section 2 that the spec marks
[derived]. -/
def Obligations.DitherValueIsBelowOne : Prop :=
  ∀ rnd carry : F32, inUnit rnd = true → inUnit carry = true → magBits (fsub32 rnd carry) < 0x3F800000

/-- `POW10` (R6): P2, not a NaN and at least +0; P3, exactly 1.0 at +0; P5, +Inf where the power exceeds the largest
finite number, so from exponent 39 up, and at most the smallest normal number where it is below that; P6, within one unit
in the last place elsewhere. `P` is the power in units of `2^-149`, and a last place at `P` is `2^k` units for the least `k`
with `P` below `2^(24+k)`. The terms `P / 2^100` are the slack of the model's enclosure of the power, and the reading of
P5 and P6 is the model's (log entry 9); P4 relates two operands and is not claimed. -/
def Obligations.Pow10StaysWithinItsBounds : Prop :=
  ∀ e : F32,
    (isNaN32 e = false → (pow10 e).toNat ≤ 0x7F800000) ∧
      (e = 0#32 → pow10 e = 0x3F800000#32) ∧
      (∀ m, unpack32 e = .fin false m → 39 * 2 ^ 149 ≤ m → pow10 e = 0x7F800000#32) ∧
      ∀ (s : Bool) (m : Nat) (P : ℝ),
        unpack32 e = .fin s m →
          P = 2 ^ 149 * (10 : ℝ) ^ ((signedUnits s m : ℝ) / 2 ^ 149) →
            ((2 ^ 24 - 1) * 2 ^ 253 < P - P / 2 ^ 100 → pow10 e = 0x7F800000#32) ∧
              (P + P / 2 ^ 100 < 2 ^ 23 → (pow10 e).toNat ≤ 0x00800000) ∧
              (2 ^ 23 ≤ P →
                P ≤ (2 ^ 24 - 1) * 2 ^ 253 →
                  ∃ n : Nat,
                    unpack32 (pow10 e) = .fin false n ∧
                      ∀ k : Nat, P + P / 2 ^ 100 < 2 ^ (24 + k) → |(n : ℝ) - P| ≤ 2 ^ k + P / 2 ^ 100)

/-! ## Ports, resets and sessions -/

/-- Every draw is a binary32 number in `[0,1)` with a clear sign bit (R173), and the next one is the one `Draw()`
returns. -/
def Obligations.DrawsAreInTheUnitInterval : Prop :=
  ∀ (s : State) (k : Nat), (drawAt s k).toNat < 0x3F800000 ∧ s.nextDraw = drawAt s 0 ∧ drawAt s.dropDraw k = drawAt s (k + 1)

/-- What reset leaves (R36, column POR; R190): TuningState at the parameters, which are legal (R191), the accumulators
+0.0, PHASE IDLE; and, the model's choice (log entry 2), no request pending and no answer of one held. -/
def Obligations.ResetLeavesTheInitialConfiguration : Prop :=
  State.reset.ts =
      { sampleRate := State.reset.cfg.initSampleRate
        centerFrequency := State.reset.cfg.initCenterFreq
        gainLinear := State.reset.cfg.initGainLinear
        bitDepth := State.reset.cfg.bitDepth } ∧
    State.reset.dbg = { errAccI := 0#32, errAccQ := 0#32 } ∧
    State.reset.phase = .idle ∧ configLegal State.reset.cfg = true ∧
    State.reset.requests = [] ∧ State.reset.wire = [] ∧ State.reset.action = none

/-- `POR` (R190) in any phase: TuningState from the parameters, the accumulators +0.0, PHASE IDLE; only the carries (and
the model's counter of unspecified values) are not said; everything else stays as it was. With an illegal parameter it is
refused (R191). -/
def Obligations.PorSetsTheInitialConfiguration : Prop :=
  ∀ (s : State) (rest : List Request),
    s.requests = .por :: rest →
      (configLegal s.cfg = true →
        ∃ ds n,
          step s =
            .next
              { s with
                requests := rest
                wire := []
                action := none
                ts :=
                  { sampleRate := s.cfg.initSampleRate
                    centerFrequency := s.cfg.initCenterFreq
                    gainLinear := s.cfg.initGainLinear
                    bitDepth := s.cfg.bitDepth }
                ds := ds
                dbg := { errAccI := 0#32, errAccQ := 0#32 }
                phase := .idle
                freeUsed := n }) ∧
        (configLegal s.cfg = false → step s = .refused .invalidConfiguration)

/-- `SESSION_START` (R192), only in PHASE IDLE: exactly two draws, I first, become the carries; the accumulators are +0.0,
PHASE ACTIVE; TuningState and everything else stay as they were. -/
def Obligations.SessionStartSeedsTheCarries : Prop :=
  ∀ (s : State) (rest : List Request),
    s.requests = .sessionStart :: rest →
      (s.phase = .idle →
        step s =
          .next
            { s with
              requests := rest
              wire := []
              action := none
              ds := { carryI := drawAt s 0, carryQ := drawAt s 1 }
              dbg := { errAccI := 0#32, errAccQ := 0#32 }
              phase := .active
              rnd := s.rnd.drop 2
              drawn := s.drawn + 2 }) ∧
        (s.phase ≠ .idle → step s = .refused .notAdmitted)

/-- `SESSION_END` (R193), only in PHASE ACTIVE: `PHASE <- IDLE` and nothing else. -/
def Obligations.SessionEndOnlyChangesThePhase : Prop :=
  ∀ (s : State) (rest : List Request),
    s.requests = .sessionEnd :: rest →
      (s.phase = .active → step s = .next { s with requests := rest, wire := [], action := none, phase := .idle }) ∧
        (s.phase ≠ .active → step s = .refused .notAdmitted)

/-- Admission (R32, R162, R190): OFF and HALTED admit only POR, IDLE only POR and SESSION_START, ACTIVE only POR, DECODE,
QUANTIZE and SESSION_END; exactly a request that is not admitted in the current phase is refused for that. That a POR is
served in HALTED, which R32 and R190 put differently, is the model's reading (log entry 29). -/
def Obligations.RequestsOutsideTheirPhaseAreRefused : Prop :=
  ∀ (s : State) (r : Request) (rest : List Request),
    s.requests = r :: rest →
      (step s = .refused .notAdmitted ↔
        ¬(r = .por ∨ s.phase = .idle ∧ r = .sessionStart ∨
          s.phase = .active ∧
            (r = .sessionEnd ∨ (∃ read sendFailed, r = .decode read sendFailed) ∨ ∃ block, r = .quantize block)))

/-- The bounds on a request (R7, R8): a longer block or a longer buffer is refused. -/
def Obligations.OverlongRequestsAreRefused : Prop :=
  ∀ (s : State) (rest : List Request),
    s.phase = .active →
      (∀ block, s.cfg.maxBlockPairs < block.length → s.requests = .quantize block :: rest →
        step s = .refused .blockTooLong) ∧
        (∀ bytes sendFailed, s.cfg.cmdBufMax < bytes.length →
          s.requests = .decode (.data bytes) sendFailed :: rest → step s = .refused .bufferTooLong)

/-- Only HALTED is a fault, and it is one exactly when no request is pending (R162, R169; log entry 15); otherwise a machine
of which nothing is asked stays as it is (the model's choice, log entry 16). -/
def Obligations.OnlyHaltedIsAFault : Prop :=
  ∀ s : State,
    (∀ r, step s = .fault r → s.phase = .halted ∧ s.requests = []) ∧
      (s.phase = .halted → s.requests = [] → step s = .fault .halted) ∧
      (s.phase ≠ .halted → s.requests = [] → step s = .next s)

/-! ## The whole machine -/

/-- The invariant holds right after reset. -/
def Obligations.InvariantHoldsAtReset : Prop := Inv State.reset

/-- Every step keeps the invariant: legal parameters, a positive gain (R23), finite rates, carries in `[0,1)` in a session
(`10_state.md` section 3, marked [derived]), and the `CMD` and `SAMPLE` spaces, the cursor and the sample index of no
request (R30, R31, R50, R52). -/
def Obligations.EveryStepKeepsTheInvariant : Prop := ∀ s t : State, Inv s → step s = .next t → Inv t

/-- The parameters never change, and `TS.bitDepth` only at POR (R172; the sentence of `10_state.md` section 2 that the spec
marks [derived]). -/
def Obligations.OnlyPorSetsTheBitDepth : Prop :=
  ∀ s t : State,
    step s = .next t →
      t.cfg = s.cfg ∧ (t.ts.bitDepth = s.ts.bitDepth ∨ ∃ rest, s.requests = .por :: rest ∧ t.ts.bitDepth = s.cfg.bitDepth)

/-- Who may write what (R172): in a step that changes TuningState the request is POR or DECODE, in a step that changes
DitherState or an accumulator it is POR, SESSION_START or QUANTIZE in the 8-bit mode. -/
def Obligations.RegistersAreWrittenOnlyByTheirOwners : Prop :=
  ∀ (s t : State) (r : Request) (rest : List Request),
    s.requests = r :: rest →
      step s = .next t →
        (t.ts ≠ s.ts → r = .por ∨ ∃ read, r = .decode read false) ∧
          (t.ds ≠ s.ds ∨ t.dbg ≠ s.dbg →
            r = .por ∨ r = .sessionStart ∨ ∃ block, r = .quantize block ∧ s.ts.bitDepth = .d8)

/-- How PHASE changes (R32, R160): only the request of the change makes it, and HALTED is entered only with the Action
`Fatal` of a DECODE request. -/
def Obligations.PhaseChangesOnlyAsListed : Prop :=
  ∀ (s t : State) (r : Request) (rest : List Request),
    s.requests = r :: rest →
      step s = .next t →
        t.phase ≠ s.phase →
          (r = .por ∧ t.phase = .idle) ∨
            (r = .sessionStart ∧ s.phase = .idle ∧ t.phase = .active) ∨
            (r = .sessionEnd ∧ s.phase = .active ∧ t.phase = .idle) ∨
            (∃ read, r = .decode read false ∧ s.phase = .active ∧ t.phase = .halted ∧ t.action = some .fatal)

/-- No output byte, no Action and no Sample Source call depends on the debug accumulators (R28): with others there a step
does the same. For unspecified bytes that rests on log entry 7. -/
def Obligations.NothingDependsOnTheAccumulators : Prop :=
  ∀ (s : State) (dbg : Debug),
    (∀ t, step s = .next t → ∃ dbg', step { s with dbg := dbg } = .next { t with dbg := dbg' }) ∧
      (∀ r, step s = .fault r → step { s with dbg := dbg } = .fault r) ∧
      (∀ r, step s = .refused r → step { s with dbg := dbg } = .refused r)

/-- The end of a run (R206): when its requests have been served none is pending; it ends well exactly if the last of them
was SESSION_END; and it ends in PHASE IDLE exactly if it ends well or has had no session at all, so one that stops in
ACTIVE or in HALTED does not end well. Where a run begins and stops is the model's choice (log entry 30). -/
def Obligations.RunEndsWellExactlyAfterItsSession : Prop :=
  ∀ s t : State,
    RunEndsIn s t →
      t.requests = [] ∧
        (EndsWell s t ↔ s.requests.getLast? = some .sessionEnd) ∧
        (t.phase = .idle ↔ EndsWell s t ∨ s.requests = [.por])
end

