-- ==== Sys2Proof/Laws/Decode.lean ====
section
/-! SUPPORT. The payload assembly and its inverse. -/

namespace Sys2Proof

theorem be32_toNat (b1 b2 b3 b4 : Byte) :
    (be32 b1 b2 b3 b4).toNat = b1.toNat * 2 ^ 24 + b2.toNat * 2 ^ 16 + b3.toNat * 2 ^ 8 + b4.toNat := by
  have := b1.isLt
  have := b2.isLt
  have := b3.isLt
  have := b4.isLt
  simp only [be32, BitVec.toNat_ofNat]
  omega

/-- The bytes of a payload assemble to it. -/
theorem be32_be32Bytes (w : Word) :
    be32 (BitVec.ofNat 8 (w.toNat / 2 ^ 24)) (BitVec.ofNat 8 (w.toNat / 2 ^ 16)) (BitVec.ofNat 8 (w.toNat / 2 ^ 8))
      (BitVec.ofNat 8 w.toNat) = w := by
  apply BitVec.eq_of_toNat_eq
  have := w.isLt
  simp only [be32_toNat, BitVec.toNat_ofNat]
  omega

/-- The bytes of an assembled payload are those it was assembled from. -/
theorem be32Bytes_be32 (b1 b2 b3 b4 : Byte) : be32Bytes (be32 b1 b2 b3 b4) = [b1, b2, b3, b4] := by
  have := b1.isLt
  have := b2.isLt
  have := b3.isLt
  have := b4.isLt
  simp only [be32Bytes, be32_toNat, List.cons.injEq, and_true]
  refine ⟨?_, ?_, ?_, ?_⟩ <;> apply BitVec.eq_of_toNat_eq <;> simp only [BitVec.toNat_ofNat] <;> omega

/-- No opcode above 4 is one of the listed five. -/
theorem selectCommand_of_lt {opcode : Byte} (h : 4 < opcode.toNat) (p : Word) :
    selectCommand opcode p = .nophi opcode p := by
  have hne : ∀ n : Nat, n ≤ 4 → opcode ≠ BitVec.ofNat 8 n := by
    intro n hn he
    subst he
    simp only [BitVec.toNat_ofNat] at h
    omega
  unfold selectCommand
  rw [if_neg (hne 0 (by omega)), if_neg (hne 1 (by omega)), if_neg (hne 2 (by omega)), if_neg (hne 3 (by omega)),
    if_neg (hne 4 (by omega))]

end Sys2Proof
end

