-- ==== Sys2Proof/Laws/State.lean ====
section
/-! SUPPORT. What each register operation does to each field of State: one lemma per field and operation. -/

namespace Sys2Proof.Machine

variable (s : State)

/-! ### `State.setSampleRate` -/

@[simp] theorem State.setSampleRate_cfg (v : F64) : (s.setSampleRate v).cfg = s.cfg := rfl
@[simp] theorem State.setSampleRate_ts (v : F64) : (s.setSampleRate v).ts = { s.ts with sampleRate := v } := rfl
@[simp] theorem State.setSampleRate_ds (v : F64) : (s.setSampleRate v).ds = s.ds := rfl
@[simp] theorem State.setSampleRate_dbg (v : F64) : (s.setSampleRate v).dbg = s.dbg := rfl
@[simp] theorem State.setSampleRate_phase (v : F64) : (s.setSampleRate v).phase = s.phase := rfl
@[simp] theorem State.setSampleRate_cmd (v : F64) : (s.setSampleRate v).cmd = s.cmd := rfl
@[simp] theorem State.setSampleRate_pos (v : F64) : (s.setSampleRate v).pos = s.pos := rfl
@[simp] theorem State.setSampleRate_sample (v : F64) : (s.setSampleRate v).sample = s.sample := rfl
@[simp] theorem State.setSampleRate_idx (v : F64) : (s.setSampleRate v).idx = s.idx := rfl
@[simp] theorem State.setSampleRate_wire (v : F64) : (s.setSampleRate v).wire = s.wire := rfl
@[simp] theorem State.setSampleRate_action (v : F64) : (s.setSampleRate v).action = s.action := rfl
@[simp] theorem State.setSampleRate_requests (v : F64) : (s.setSampleRate v).requests = s.requests := rfl
@[simp] theorem State.setSampleRate_rnd (v : F64) : (s.setSampleRate v).rnd = s.rnd := rfl
@[simp] theorem State.setSampleRate_drawn (v : F64) : (s.setSampleRate v).drawn = s.drawn := rfl
@[simp] theorem State.setSampleRate_srcReplies (v : F64) : (s.setSampleRate v).srcReplies = s.srcReplies := rfl
@[simp] theorem State.setSampleRate_srcCalls (v : F64) : (s.setSampleRate v).srcCalls = s.srcCalls := rfl
@[simp] theorem State.setSampleRate_freeUsed (v : F64) : (s.setSampleRate v).freeUsed = s.freeUsed := rfl

/-! ### `State.setCenterFrequency` -/

@[simp] theorem State.setCenterFrequency_cfg (v : F64) : (s.setCenterFrequency v).cfg = s.cfg := rfl
@[simp] theorem State.setCenterFrequency_ts (v : F64) : (s.setCenterFrequency v).ts = { s.ts with centerFrequency := v } := rfl
@[simp] theorem State.setCenterFrequency_ds (v : F64) : (s.setCenterFrequency v).ds = s.ds := rfl
@[simp] theorem State.setCenterFrequency_dbg (v : F64) : (s.setCenterFrequency v).dbg = s.dbg := rfl
@[simp] theorem State.setCenterFrequency_phase (v : F64) : (s.setCenterFrequency v).phase = s.phase := rfl
@[simp] theorem State.setCenterFrequency_cmd (v : F64) : (s.setCenterFrequency v).cmd = s.cmd := rfl
@[simp] theorem State.setCenterFrequency_pos (v : F64) : (s.setCenterFrequency v).pos = s.pos := rfl
@[simp] theorem State.setCenterFrequency_sample (v : F64) : (s.setCenterFrequency v).sample = s.sample := rfl
@[simp] theorem State.setCenterFrequency_idx (v : F64) : (s.setCenterFrequency v).idx = s.idx := rfl
@[simp] theorem State.setCenterFrequency_wire (v : F64) : (s.setCenterFrequency v).wire = s.wire := rfl
@[simp] theorem State.setCenterFrequency_action (v : F64) : (s.setCenterFrequency v).action = s.action := rfl
@[simp] theorem State.setCenterFrequency_requests (v : F64) : (s.setCenterFrequency v).requests = s.requests := rfl
@[simp] theorem State.setCenterFrequency_rnd (v : F64) : (s.setCenterFrequency v).rnd = s.rnd := rfl
@[simp] theorem State.setCenterFrequency_drawn (v : F64) : (s.setCenterFrequency v).drawn = s.drawn := rfl
@[simp] theorem State.setCenterFrequency_srcReplies (v : F64) : (s.setCenterFrequency v).srcReplies = s.srcReplies := rfl
@[simp] theorem State.setCenterFrequency_srcCalls (v : F64) : (s.setCenterFrequency v).srcCalls = s.srcCalls := rfl
@[simp] theorem State.setCenterFrequency_freeUsed (v : F64) : (s.setCenterFrequency v).freeUsed = s.freeUsed := rfl

/-! ### `State.setGainLinear` -/

@[simp] theorem State.setGainLinear_cfg (v : F32) : (s.setGainLinear v).cfg = s.cfg := rfl
@[simp] theorem State.setGainLinear_ts (v : F32) : (s.setGainLinear v).ts = { s.ts with gainLinear := v } := rfl
@[simp] theorem State.setGainLinear_ds (v : F32) : (s.setGainLinear v).ds = s.ds := rfl
@[simp] theorem State.setGainLinear_dbg (v : F32) : (s.setGainLinear v).dbg = s.dbg := rfl
@[simp] theorem State.setGainLinear_phase (v : F32) : (s.setGainLinear v).phase = s.phase := rfl
@[simp] theorem State.setGainLinear_cmd (v : F32) : (s.setGainLinear v).cmd = s.cmd := rfl
@[simp] theorem State.setGainLinear_pos (v : F32) : (s.setGainLinear v).pos = s.pos := rfl
@[simp] theorem State.setGainLinear_sample (v : F32) : (s.setGainLinear v).sample = s.sample := rfl
@[simp] theorem State.setGainLinear_idx (v : F32) : (s.setGainLinear v).idx = s.idx := rfl
@[simp] theorem State.setGainLinear_wire (v : F32) : (s.setGainLinear v).wire = s.wire := rfl
@[simp] theorem State.setGainLinear_action (v : F32) : (s.setGainLinear v).action = s.action := rfl
@[simp] theorem State.setGainLinear_requests (v : F32) : (s.setGainLinear v).requests = s.requests := rfl
@[simp] theorem State.setGainLinear_rnd (v : F32) : (s.setGainLinear v).rnd = s.rnd := rfl
@[simp] theorem State.setGainLinear_drawn (v : F32) : (s.setGainLinear v).drawn = s.drawn := rfl
@[simp] theorem State.setGainLinear_srcReplies (v : F32) : (s.setGainLinear v).srcReplies = s.srcReplies := rfl
@[simp] theorem State.setGainLinear_srcCalls (v : F32) : (s.setGainLinear v).srcCalls = s.srcCalls := rfl
@[simp] theorem State.setGainLinear_freeUsed (v : F32) : (s.setGainLinear v).freeUsed = s.freeUsed := rfl

/-! ### `State.setCarry` -/

@[simp] theorem State.setCarry_cfg (c : Channel) (v : F32) : (s.setCarry c v).cfg = s.cfg := rfl
@[simp] theorem State.setCarry_ts (c : Channel) (v : F32) : (s.setCarry c v).ts = s.ts := rfl
@[simp] theorem State.setCarry_dbg (c : Channel) (v : F32) : (s.setCarry c v).dbg = s.dbg := rfl
@[simp] theorem State.setCarry_phase (c : Channel) (v : F32) : (s.setCarry c v).phase = s.phase := rfl
@[simp] theorem State.setCarry_cmd (c : Channel) (v : F32) : (s.setCarry c v).cmd = s.cmd := rfl
@[simp] theorem State.setCarry_pos (c : Channel) (v : F32) : (s.setCarry c v).pos = s.pos := rfl
@[simp] theorem State.setCarry_sample (c : Channel) (v : F32) : (s.setCarry c v).sample = s.sample := rfl
@[simp] theorem State.setCarry_idx (c : Channel) (v : F32) : (s.setCarry c v).idx = s.idx := rfl
@[simp] theorem State.setCarry_wire (c : Channel) (v : F32) : (s.setCarry c v).wire = s.wire := rfl
@[simp] theorem State.setCarry_action (c : Channel) (v : F32) : (s.setCarry c v).action = s.action := rfl
@[simp] theorem State.setCarry_requests (c : Channel) (v : F32) : (s.setCarry c v).requests = s.requests := rfl
@[simp] theorem State.setCarry_rnd (c : Channel) (v : F32) : (s.setCarry c v).rnd = s.rnd := rfl
@[simp] theorem State.setCarry_drawn (c : Channel) (v : F32) : (s.setCarry c v).drawn = s.drawn := rfl
@[simp] theorem State.setCarry_srcReplies (c : Channel) (v : F32) : (s.setCarry c v).srcReplies = s.srcReplies := rfl
@[simp] theorem State.setCarry_srcCalls (c : Channel) (v : F32) : (s.setCarry c v).srcCalls = s.srcCalls := rfl
@[simp] theorem State.setCarry_freeUsed (c : Channel) (v : F32) : (s.setCarry c v).freeUsed = s.freeUsed := rfl

/-! ### `State.setErrAcc` -/

@[simp] theorem State.setErrAcc_cfg (c : Channel) (v : F32) : (s.setErrAcc c v).cfg = s.cfg := rfl
@[simp] theorem State.setErrAcc_ts (c : Channel) (v : F32) : (s.setErrAcc c v).ts = s.ts := rfl
@[simp] theorem State.setErrAcc_ds (c : Channel) (v : F32) : (s.setErrAcc c v).ds = s.ds := rfl
@[simp] theorem State.setErrAcc_phase (c : Channel) (v : F32) : (s.setErrAcc c v).phase = s.phase := rfl
@[simp] theorem State.setErrAcc_cmd (c : Channel) (v : F32) : (s.setErrAcc c v).cmd = s.cmd := rfl
@[simp] theorem State.setErrAcc_pos (c : Channel) (v : F32) : (s.setErrAcc c v).pos = s.pos := rfl
@[simp] theorem State.setErrAcc_sample (c : Channel) (v : F32) : (s.setErrAcc c v).sample = s.sample := rfl
@[simp] theorem State.setErrAcc_idx (c : Channel) (v : F32) : (s.setErrAcc c v).idx = s.idx := rfl
@[simp] theorem State.setErrAcc_wire (c : Channel) (v : F32) : (s.setErrAcc c v).wire = s.wire := rfl
@[simp] theorem State.setErrAcc_action (c : Channel) (v : F32) : (s.setErrAcc c v).action = s.action := rfl
@[simp] theorem State.setErrAcc_requests (c : Channel) (v : F32) : (s.setErrAcc c v).requests = s.requests := rfl
@[simp] theorem State.setErrAcc_rnd (c : Channel) (v : F32) : (s.setErrAcc c v).rnd = s.rnd := rfl
@[simp] theorem State.setErrAcc_drawn (c : Channel) (v : F32) : (s.setErrAcc c v).drawn = s.drawn := rfl
@[simp] theorem State.setErrAcc_srcReplies (c : Channel) (v : F32) : (s.setErrAcc c v).srcReplies = s.srcReplies := rfl
@[simp] theorem State.setErrAcc_srcCalls (c : Channel) (v : F32) : (s.setErrAcc c v).srcCalls = s.srcCalls := rfl
@[simp] theorem State.setErrAcc_freeUsed (c : Channel) (v : F32) : (s.setErrAcc c v).freeUsed = s.freeUsed := rfl

/-! ### `State.setPhase` -/

@[simp] theorem State.setPhase_cfg (p : Phase) : (s.setPhase p).cfg = s.cfg := rfl
@[simp] theorem State.setPhase_ts (p : Phase) : (s.setPhase p).ts = s.ts := rfl
@[simp] theorem State.setPhase_ds (p : Phase) : (s.setPhase p).ds = s.ds := rfl
@[simp] theorem State.setPhase_dbg (p : Phase) : (s.setPhase p).dbg = s.dbg := rfl
@[simp] theorem State.setPhase_phase (p : Phase) : (s.setPhase p).phase = p := rfl
@[simp] theorem State.setPhase_cmd (p : Phase) : (s.setPhase p).cmd = s.cmd := rfl
@[simp] theorem State.setPhase_pos (p : Phase) : (s.setPhase p).pos = s.pos := rfl
@[simp] theorem State.setPhase_sample (p : Phase) : (s.setPhase p).sample = s.sample := rfl
@[simp] theorem State.setPhase_idx (p : Phase) : (s.setPhase p).idx = s.idx := rfl
@[simp] theorem State.setPhase_wire (p : Phase) : (s.setPhase p).wire = s.wire := rfl
@[simp] theorem State.setPhase_action (p : Phase) : (s.setPhase p).action = s.action := rfl
@[simp] theorem State.setPhase_requests (p : Phase) : (s.setPhase p).requests = s.requests := rfl
@[simp] theorem State.setPhase_rnd (p : Phase) : (s.setPhase p).rnd = s.rnd := rfl
@[simp] theorem State.setPhase_drawn (p : Phase) : (s.setPhase p).drawn = s.drawn := rfl
@[simp] theorem State.setPhase_srcReplies (p : Phase) : (s.setPhase p).srcReplies = s.srcReplies := rfl
@[simp] theorem State.setPhase_srcCalls (p : Phase) : (s.setPhase p).srcCalls = s.srcCalls := rfl
@[simp] theorem State.setPhase_freeUsed (p : Phase) : (s.setPhase p).freeUsed = s.freeUsed := rfl

/-! ### `State.setAction` -/

@[simp] theorem State.setAction_cfg (a : Action) : (s.setAction a).cfg = s.cfg := rfl
@[simp] theorem State.setAction_ts (a : Action) : (s.setAction a).ts = s.ts := rfl
@[simp] theorem State.setAction_ds (a : Action) : (s.setAction a).ds = s.ds := rfl
@[simp] theorem State.setAction_dbg (a : Action) : (s.setAction a).dbg = s.dbg := rfl
@[simp] theorem State.setAction_phase (a : Action) : (s.setAction a).phase = s.phase := rfl
@[simp] theorem State.setAction_cmd (a : Action) : (s.setAction a).cmd = s.cmd := rfl
@[simp] theorem State.setAction_pos (a : Action) : (s.setAction a).pos = s.pos := rfl
@[simp] theorem State.setAction_sample (a : Action) : (s.setAction a).sample = s.sample := rfl
@[simp] theorem State.setAction_idx (a : Action) : (s.setAction a).idx = s.idx := rfl
@[simp] theorem State.setAction_wire (a : Action) : (s.setAction a).wire = s.wire := rfl
@[simp] theorem State.setAction_action (a : Action) : (s.setAction a).action = some a := rfl
@[simp] theorem State.setAction_requests (a : Action) : (s.setAction a).requests = s.requests := rfl
@[simp] theorem State.setAction_rnd (a : Action) : (s.setAction a).rnd = s.rnd := rfl
@[simp] theorem State.setAction_drawn (a : Action) : (s.setAction a).drawn = s.drawn := rfl
@[simp] theorem State.setAction_srcReplies (a : Action) : (s.setAction a).srcReplies = s.srcReplies := rfl
@[simp] theorem State.setAction_srcCalls (a : Action) : (s.setAction a).srcCalls = s.srcCalls := rfl
@[simp] theorem State.setAction_freeUsed (a : Action) : (s.setAction a).freeUsed = s.freeUsed := rfl

/-! ### `State.setPos` -/

@[simp] theorem State.setPos_cfg (p : Nat) : (s.setPos p).cfg = s.cfg := rfl
@[simp] theorem State.setPos_ts (p : Nat) : (s.setPos p).ts = s.ts := rfl
@[simp] theorem State.setPos_ds (p : Nat) : (s.setPos p).ds = s.ds := rfl
@[simp] theorem State.setPos_dbg (p : Nat) : (s.setPos p).dbg = s.dbg := rfl
@[simp] theorem State.setPos_phase (p : Nat) : (s.setPos p).phase = s.phase := rfl
@[simp] theorem State.setPos_cmd (p : Nat) : (s.setPos p).cmd = s.cmd := rfl
@[simp] theorem State.setPos_pos (p : Nat) : (s.setPos p).pos = p := rfl
@[simp] theorem State.setPos_sample (p : Nat) : (s.setPos p).sample = s.sample := rfl
@[simp] theorem State.setPos_idx (p : Nat) : (s.setPos p).idx = s.idx := rfl
@[simp] theorem State.setPos_wire (p : Nat) : (s.setPos p).wire = s.wire := rfl
@[simp] theorem State.setPos_action (p : Nat) : (s.setPos p).action = s.action := rfl
@[simp] theorem State.setPos_requests (p : Nat) : (s.setPos p).requests = s.requests := rfl
@[simp] theorem State.setPos_rnd (p : Nat) : (s.setPos p).rnd = s.rnd := rfl
@[simp] theorem State.setPos_drawn (p : Nat) : (s.setPos p).drawn = s.drawn := rfl
@[simp] theorem State.setPos_srcReplies (p : Nat) : (s.setPos p).srcReplies = s.srcReplies := rfl
@[simp] theorem State.setPos_srcCalls (p : Nat) : (s.setPos p).srcCalls = s.srcCalls := rfl
@[simp] theorem State.setPos_freeUsed (p : Nat) : (s.setPos p).freeUsed = s.freeUsed := rfl

/-! ### `State.setIdx` -/

@[simp] theorem State.setIdx_cfg (n : Nat) : (s.setIdx n).cfg = s.cfg := rfl
@[simp] theorem State.setIdx_ts (n : Nat) : (s.setIdx n).ts = s.ts := rfl
@[simp] theorem State.setIdx_ds (n : Nat) : (s.setIdx n).ds = s.ds := rfl
@[simp] theorem State.setIdx_dbg (n : Nat) : (s.setIdx n).dbg = s.dbg := rfl
@[simp] theorem State.setIdx_phase (n : Nat) : (s.setIdx n).phase = s.phase := rfl
@[simp] theorem State.setIdx_cmd (n : Nat) : (s.setIdx n).cmd = s.cmd := rfl
@[simp] theorem State.setIdx_pos (n : Nat) : (s.setIdx n).pos = s.pos := rfl
@[simp] theorem State.setIdx_sample (n : Nat) : (s.setIdx n).sample = s.sample := rfl
@[simp] theorem State.setIdx_idx (n : Nat) : (s.setIdx n).idx = n := rfl
@[simp] theorem State.setIdx_wire (n : Nat) : (s.setIdx n).wire = s.wire := rfl
@[simp] theorem State.setIdx_action (n : Nat) : (s.setIdx n).action = s.action := rfl
@[simp] theorem State.setIdx_requests (n : Nat) : (s.setIdx n).requests = s.requests := rfl
@[simp] theorem State.setIdx_rnd (n : Nat) : (s.setIdx n).rnd = s.rnd := rfl
@[simp] theorem State.setIdx_drawn (n : Nat) : (s.setIdx n).drawn = s.drawn := rfl
@[simp] theorem State.setIdx_srcReplies (n : Nat) : (s.setIdx n).srcReplies = s.srcReplies := rfl
@[simp] theorem State.setIdx_srcCalls (n : Nat) : (s.setIdx n).srcCalls = s.srcCalls := rfl
@[simp] theorem State.setIdx_freeUsed (n : Nat) : (s.setIdx n).freeUsed = s.freeUsed := rfl

/-! ### `State.emit` -/

@[simp] theorem State.emit_cfg (bs : List Byte) : (s.emit bs).cfg = s.cfg := rfl
@[simp] theorem State.emit_ts (bs : List Byte) : (s.emit bs).ts = s.ts := rfl
@[simp] theorem State.emit_ds (bs : List Byte) : (s.emit bs).ds = s.ds := rfl
@[simp] theorem State.emit_dbg (bs : List Byte) : (s.emit bs).dbg = s.dbg := rfl
@[simp] theorem State.emit_phase (bs : List Byte) : (s.emit bs).phase = s.phase := rfl
@[simp] theorem State.emit_cmd (bs : List Byte) : (s.emit bs).cmd = s.cmd := rfl
@[simp] theorem State.emit_pos (bs : List Byte) : (s.emit bs).pos = s.pos := rfl
@[simp] theorem State.emit_sample (bs : List Byte) : (s.emit bs).sample = s.sample := rfl
@[simp] theorem State.emit_idx (bs : List Byte) : (s.emit bs).idx = s.idx := rfl
@[simp] theorem State.emit_wire (bs : List Byte) : (s.emit bs).wire = s.wire ++ bs := rfl
@[simp] theorem State.emit_action (bs : List Byte) : (s.emit bs).action = s.action := rfl
@[simp] theorem State.emit_requests (bs : List Byte) : (s.emit bs).requests = s.requests := rfl
@[simp] theorem State.emit_rnd (bs : List Byte) : (s.emit bs).rnd = s.rnd := rfl
@[simp] theorem State.emit_drawn (bs : List Byte) : (s.emit bs).drawn = s.drawn := rfl
@[simp] theorem State.emit_srcReplies (bs : List Byte) : (s.emit bs).srcReplies = s.srcReplies := rfl
@[simp] theorem State.emit_srcCalls (bs : List Byte) : (s.emit bs).srcCalls = s.srcCalls := rfl
@[simp] theorem State.emit_freeUsed (bs : List Byte) : (s.emit bs).freeUsed = s.freeUsed := rfl

/-! ### `State.clearWire` -/

@[simp] theorem State.clearWire_cfg : (s.clearWire).cfg = s.cfg := rfl
@[simp] theorem State.clearWire_ts : (s.clearWire).ts = s.ts := rfl
@[simp] theorem State.clearWire_ds : (s.clearWire).ds = s.ds := rfl
@[simp] theorem State.clearWire_dbg : (s.clearWire).dbg = s.dbg := rfl
@[simp] theorem State.clearWire_phase : (s.clearWire).phase = s.phase := rfl
@[simp] theorem State.clearWire_cmd : (s.clearWire).cmd = s.cmd := rfl
@[simp] theorem State.clearWire_pos : (s.clearWire).pos = s.pos := rfl
@[simp] theorem State.clearWire_sample : (s.clearWire).sample = s.sample := rfl
@[simp] theorem State.clearWire_idx : (s.clearWire).idx = s.idx := rfl
@[simp] theorem State.clearWire_wire : (s.clearWire).wire = [] := rfl
@[simp] theorem State.clearWire_action : (s.clearWire).action = s.action := rfl
@[simp] theorem State.clearWire_requests : (s.clearWire).requests = s.requests := rfl
@[simp] theorem State.clearWire_rnd : (s.clearWire).rnd = s.rnd := rfl
@[simp] theorem State.clearWire_drawn : (s.clearWire).drawn = s.drawn := rfl
@[simp] theorem State.clearWire_srcReplies : (s.clearWire).srcReplies = s.srcReplies := rfl
@[simp] theorem State.clearWire_srcCalls : (s.clearWire).srcCalls = s.srcCalls := rfl
@[simp] theorem State.clearWire_freeUsed : (s.clearWire).freeUsed = s.freeUsed := rfl

/-! ### `State.loadCmd` -/

@[simp] theorem State.loadCmd_cfg (bs : List Byte) : (s.loadCmd bs).cfg = s.cfg := rfl
@[simp] theorem State.loadCmd_ts (bs : List Byte) : (s.loadCmd bs).ts = s.ts := rfl
@[simp] theorem State.loadCmd_ds (bs : List Byte) : (s.loadCmd bs).ds = s.ds := rfl
@[simp] theorem State.loadCmd_dbg (bs : List Byte) : (s.loadCmd bs).dbg = s.dbg := rfl
@[simp] theorem State.loadCmd_phase (bs : List Byte) : (s.loadCmd bs).phase = s.phase := rfl
@[simp] theorem State.loadCmd_cmd (bs : List Byte) : (s.loadCmd bs).cmd = bs := rfl
@[simp] theorem State.loadCmd_pos (bs : List Byte) : (s.loadCmd bs).pos = 0 := rfl
@[simp] theorem State.loadCmd_sample (bs : List Byte) : (s.loadCmd bs).sample = s.sample := rfl
@[simp] theorem State.loadCmd_idx (bs : List Byte) : (s.loadCmd bs).idx = s.idx := rfl
@[simp] theorem State.loadCmd_wire (bs : List Byte) : (s.loadCmd bs).wire = s.wire := rfl
@[simp] theorem State.loadCmd_action (bs : List Byte) : (s.loadCmd bs).action = s.action := rfl
@[simp] theorem State.loadCmd_requests (bs : List Byte) : (s.loadCmd bs).requests = s.requests := rfl
@[simp] theorem State.loadCmd_rnd (bs : List Byte) : (s.loadCmd bs).rnd = s.rnd := rfl
@[simp] theorem State.loadCmd_drawn (bs : List Byte) : (s.loadCmd bs).drawn = s.drawn := rfl
@[simp] theorem State.loadCmd_srcReplies (bs : List Byte) : (s.loadCmd bs).srcReplies = s.srcReplies := rfl
@[simp] theorem State.loadCmd_srcCalls (bs : List Byte) : (s.loadCmd bs).srcCalls = s.srcCalls := rfl
@[simp] theorem State.loadCmd_freeUsed (bs : List Byte) : (s.loadCmd bs).freeUsed = s.freeUsed := rfl

/-! ### `State.loadSample` -/

@[simp] theorem State.loadSample_cfg (block : List Pair) : (s.loadSample block).cfg = s.cfg := rfl
@[simp] theorem State.loadSample_ts (block : List Pair) : (s.loadSample block).ts = s.ts := rfl
@[simp] theorem State.loadSample_ds (block : List Pair) : (s.loadSample block).ds = s.ds := rfl
@[simp] theorem State.loadSample_dbg (block : List Pair) : (s.loadSample block).dbg = s.dbg := rfl
@[simp] theorem State.loadSample_phase (block : List Pair) : (s.loadSample block).phase = s.phase := rfl
@[simp] theorem State.loadSample_cmd (block : List Pair) : (s.loadSample block).cmd = s.cmd := rfl
@[simp] theorem State.loadSample_pos (block : List Pair) : (s.loadSample block).pos = s.pos := rfl
@[simp] theorem State.loadSample_sample (block : List Pair) : (s.loadSample block).sample = block := rfl
@[simp] theorem State.loadSample_idx (block : List Pair) : (s.loadSample block).idx = s.idx := rfl
@[simp] theorem State.loadSample_wire (block : List Pair) : (s.loadSample block).wire = s.wire := rfl
@[simp] theorem State.loadSample_action (block : List Pair) : (s.loadSample block).action = s.action := rfl
@[simp] theorem State.loadSample_requests (block : List Pair) : (s.loadSample block).requests = s.requests := rfl
@[simp] theorem State.loadSample_rnd (block : List Pair) : (s.loadSample block).rnd = s.rnd := rfl
@[simp] theorem State.loadSample_drawn (block : List Pair) : (s.loadSample block).drawn = s.drawn := rfl
@[simp] theorem State.loadSample_srcReplies (block : List Pair) : (s.loadSample block).srcReplies = s.srcReplies := rfl
@[simp] theorem State.loadSample_srcCalls (block : List Pair) : (s.loadSample block).srcCalls = s.srcCalls := rfl
@[simp] theorem State.loadSample_freeUsed (block : List Pair) : (s.loadSample block).freeUsed = s.freeUsed := rfl

/-! ### `State.takeRequest` -/

@[simp] theorem State.takeRequest_cfg (rest : List Request) : (s.takeRequest rest).cfg = s.cfg := rfl
@[simp] theorem State.takeRequest_ts (rest : List Request) : (s.takeRequest rest).ts = s.ts := rfl
@[simp] theorem State.takeRequest_ds (rest : List Request) : (s.takeRequest rest).ds = s.ds := rfl
@[simp] theorem State.takeRequest_dbg (rest : List Request) : (s.takeRequest rest).dbg = s.dbg := rfl
@[simp] theorem State.takeRequest_phase (rest : List Request) : (s.takeRequest rest).phase = s.phase := rfl
@[simp] theorem State.takeRequest_cmd (rest : List Request) : (s.takeRequest rest).cmd = s.cmd := rfl
@[simp] theorem State.takeRequest_pos (rest : List Request) : (s.takeRequest rest).pos = s.pos := rfl
@[simp] theorem State.takeRequest_sample (rest : List Request) : (s.takeRequest rest).sample = s.sample := rfl
@[simp] theorem State.takeRequest_idx (rest : List Request) : (s.takeRequest rest).idx = s.idx := rfl
@[simp] theorem State.takeRequest_wire (rest : List Request) : (s.takeRequest rest).wire = [] := rfl
@[simp] theorem State.takeRequest_action (rest : List Request) : (s.takeRequest rest).action = none := rfl
@[simp] theorem State.takeRequest_requests (rest : List Request) : (s.takeRequest rest).requests = rest := rfl
@[simp] theorem State.takeRequest_rnd (rest : List Request) : (s.takeRequest rest).rnd = s.rnd := rfl
@[simp] theorem State.takeRequest_drawn (rest : List Request) : (s.takeRequest rest).drawn = s.drawn := rfl
@[simp] theorem State.takeRequest_srcReplies (rest : List Request) : (s.takeRequest rest).srcReplies = s.srcReplies := rfl
@[simp] theorem State.takeRequest_srcCalls (rest : List Request) : (s.takeRequest rest).srcCalls = s.srcCalls := rfl
@[simp] theorem State.takeRequest_freeUsed (rest : List Request) : (s.takeRequest rest).freeUsed = s.freeUsed := rfl

/-! ### `State.dropDraw` -/

@[simp] theorem State.dropDraw_cfg : (s.dropDraw).cfg = s.cfg := rfl
@[simp] theorem State.dropDraw_ts : (s.dropDraw).ts = s.ts := rfl
@[simp] theorem State.dropDraw_ds : (s.dropDraw).ds = s.ds := rfl
@[simp] theorem State.dropDraw_dbg : (s.dropDraw).dbg = s.dbg := rfl
@[simp] theorem State.dropDraw_phase : (s.dropDraw).phase = s.phase := rfl
@[simp] theorem State.dropDraw_cmd : (s.dropDraw).cmd = s.cmd := rfl
@[simp] theorem State.dropDraw_pos : (s.dropDraw).pos = s.pos := rfl
@[simp] theorem State.dropDraw_sample : (s.dropDraw).sample = s.sample := rfl
@[simp] theorem State.dropDraw_idx : (s.dropDraw).idx = s.idx := rfl
@[simp] theorem State.dropDraw_wire : (s.dropDraw).wire = s.wire := rfl
@[simp] theorem State.dropDraw_action : (s.dropDraw).action = s.action := rfl
@[simp] theorem State.dropDraw_requests : (s.dropDraw).requests = s.requests := rfl
@[simp] theorem State.dropDraw_rnd : (s.dropDraw).rnd = s.rnd.tail := rfl
@[simp] theorem State.dropDraw_drawn : (s.dropDraw).drawn = s.drawn + 1 := rfl
@[simp] theorem State.dropDraw_srcReplies : (s.dropDraw).srcReplies = s.srcReplies := rfl
@[simp] theorem State.dropDraw_srcCalls : (s.dropDraw).srcCalls = s.srcCalls := rfl
@[simp] theorem State.dropDraw_freeUsed : (s.dropDraw).freeUsed = s.freeUsed := rfl

/-! ### `State.recordCall` -/

@[simp] theorem State.recordCall_cfg (op : SrcOp) (arg : F64) : (s.recordCall op arg).cfg = s.cfg := rfl
@[simp] theorem State.recordCall_ts (op : SrcOp) (arg : F64) : (s.recordCall op arg).ts = s.ts := rfl
@[simp] theorem State.recordCall_ds (op : SrcOp) (arg : F64) : (s.recordCall op arg).ds = s.ds := rfl
@[simp] theorem State.recordCall_dbg (op : SrcOp) (arg : F64) : (s.recordCall op arg).dbg = s.dbg := rfl
@[simp] theorem State.recordCall_phase (op : SrcOp) (arg : F64) : (s.recordCall op arg).phase = s.phase := rfl
@[simp] theorem State.recordCall_cmd (op : SrcOp) (arg : F64) : (s.recordCall op arg).cmd = s.cmd := rfl
@[simp] theorem State.recordCall_pos (op : SrcOp) (arg : F64) : (s.recordCall op arg).pos = s.pos := rfl
@[simp] theorem State.recordCall_sample (op : SrcOp) (arg : F64) : (s.recordCall op arg).sample = s.sample := rfl
@[simp] theorem State.recordCall_idx (op : SrcOp) (arg : F64) : (s.recordCall op arg).idx = s.idx := rfl
@[simp] theorem State.recordCall_wire (op : SrcOp) (arg : F64) : (s.recordCall op arg).wire = s.wire := rfl
@[simp] theorem State.recordCall_action (op : SrcOp) (arg : F64) : (s.recordCall op arg).action = s.action := rfl
@[simp] theorem State.recordCall_requests (op : SrcOp) (arg : F64) : (s.recordCall op arg).requests = s.requests := rfl
@[simp] theorem State.recordCall_rnd (op : SrcOp) (arg : F64) : (s.recordCall op arg).rnd = s.rnd := rfl
@[simp] theorem State.recordCall_drawn (op : SrcOp) (arg : F64) : (s.recordCall op arg).drawn = s.drawn := rfl
@[simp] theorem State.recordCall_srcReplies (op : SrcOp) (arg : F64) : (s.recordCall op arg).srcReplies = s.srcReplies.tail := rfl
@[simp] theorem State.recordCall_srcCalls (op : SrcOp) (arg : F64) : (s.recordCall op arg).srcCalls = s.srcCalls ++ [{ op := op, arg := arg }] := rfl
@[simp] theorem State.recordCall_freeUsed (op : SrcOp) (arg : F64) : (s.recordCall op arg).freeUsed = s.freeUsed := rfl

/-! ### `State.useFree` -/

@[simp] theorem State.useFree_cfg : (s.useFree).cfg = s.cfg := rfl
@[simp] theorem State.useFree_ts : (s.useFree).ts = s.ts := rfl
@[simp] theorem State.useFree_ds : (s.useFree).ds = s.ds := rfl
@[simp] theorem State.useFree_dbg : (s.useFree).dbg = s.dbg := rfl
@[simp] theorem State.useFree_phase : (s.useFree).phase = s.phase := rfl
@[simp] theorem State.useFree_cmd : (s.useFree).cmd = s.cmd := rfl
@[simp] theorem State.useFree_pos : (s.useFree).pos = s.pos := rfl
@[simp] theorem State.useFree_sample : (s.useFree).sample = s.sample := rfl
@[simp] theorem State.useFree_idx : (s.useFree).idx = s.idx := rfl
@[simp] theorem State.useFree_wire : (s.useFree).wire = s.wire := rfl
@[simp] theorem State.useFree_action : (s.useFree).action = s.action := rfl
@[simp] theorem State.useFree_requests : (s.useFree).requests = s.requests := rfl
@[simp] theorem State.useFree_rnd : (s.useFree).rnd = s.rnd := rfl
@[simp] theorem State.useFree_drawn : (s.useFree).drawn = s.drawn := rfl
@[simp] theorem State.useFree_srcReplies : (s.useFree).srcReplies = s.srcReplies := rfl
@[simp] theorem State.useFree_srcCalls : (s.useFree).srcCalls = s.srcCalls := rfl
@[simp] theorem State.useFree_freeUsed : (s.useFree).freeUsed = s.freeUsed + 1 := rfl

/-! ### The per-channel registers -/

@[simp] theorem State.carry_i : s.carry .i = s.ds.carryI := rfl
@[simp] theorem State.carry_q : s.carry .q = s.ds.carryQ := rfl
@[simp] theorem State.errAcc_i : s.errAcc .i = s.dbg.errAccI := rfl
@[simp] theorem State.errAcc_q : s.errAcc .q = s.dbg.errAccQ := rfl
@[simp] theorem State.setCarry_i_ds (v : F32) : (s.setCarry .i v).ds = { s.ds with carryI := v } := rfl
@[simp] theorem State.setCarry_q_ds (v : F32) : (s.setCarry .q v).ds = { s.ds with carryQ := v } := rfl
@[simp] theorem State.setErrAcc_i_dbg (v : F32) : (s.setErrAcc .i v).dbg = { s.dbg with errAccI := v } := rfl
@[simp] theorem State.setErrAcc_q_dbg (v : F32) : (s.setErrAcc .q v).dbg = { s.dbg with errAccQ := v } := rfl

theorem State.carry_setCarry (c d : Channel) (v : F32) :
    (s.setCarry c v).carry d = if d = c then v else s.carry d := by cases c <;> cases d <;> rfl

theorem State.errAcc_setErrAcc (c d : Channel) (v : F32) :
    (s.setErrAcc c v).errAcc d = if d = c then v else s.errAcc d := by cases c <;> cases d <;> rfl

end Sys2Proof.Machine
end

