-- ==== Sys2Proof/Laws/Exec.lean ====
section
/-! SUPPORT. What a command and an event can do: one lemma per shared operation. -/

namespace Sys2Proof.Machine

variable (s : State)

@[simp] theorem raiseDisconnect_eq : raiseDisconnect s = { s with action := some .disconnect } := rfl

@[simp] theorem raiseDeviceFatal_eq : raiseDeviceFatal s = { s with phase := .halted, action := some .fatal } := rfl

/-- All that `configureSource` can do. -/
theorem configureSource_cases (op : SrcOp) (arg : F64) (onOk : State → State) :
    (s.nextReply = .ok ∧ configureSource op arg onOk s = onOk (s.recordCall op arg)) ∨
      (s.nextReply = .err ∧ configureSource op arg onOk s = raiseDeviceFatal (s.recordCall op arg)) := by
  unfold configureSource
  cases h : s.nextReply with
  | ok => exact .inl ⟨rfl, rfl⟩
  | err => exact .inr ⟨rfl, rfl⟩

/-- Every instruction ends in a next state. -/
theorem exec_next (i : Instr) : ∃ t, exec i s = .next t := by
  cases i <;> exact ⟨_, rfl⟩

/-- Where an instruction is known to end in a next state, no other outcome needs a thought. -/
theorem thenNext_exec (i : Instr) (f : State → State) {t : State} (h : exec i s = .next t) :
    thenNext (exec i s) f = .next (f t) := by rw [h]; rfl

/-- A command is a function of the tuning registers, the reply and the bit depth: it writes no other register, and it
leaves PHASE unless the reply to its call is `err`. -/
theorem exec_command_frame {i : Instr} {t : State} (hi : i.format = .cmd) (h : exec i s = .next t) :
    t =
      { s with
        ts := { t.ts with bitDepth := s.ts.bitDepth }
        phase := t.phase
        action := t.action
        srcReplies := t.srcReplies
        srcCalls := t.srcCalls } ∧
      (t.phase = s.phase ∧ t.action = s.action ∨
        t.phase = .halted ∧ t.action = some .fatal ∧ t.ts = s.ts ∧ s.nextReply = .err) := by
  cases i with
  | nop0 p => cases h; exact ⟨rfl, .inl ⟨rfl, rfl⟩⟩
  | info3 p => cases h; exact ⟨rfl, .inl ⟨rfl, rfl⟩⟩
  | nophi o p => cases h; exact ⟨rfl, .inl ⟨rfl, rfl⟩⟩
  | setfreq p =>
    simp only [exec, execSetfreq, Host.Outcome.next.injEq] at h
    obtain ⟨hr, he⟩ | ⟨hr, he⟩ :=
      configureSource_cases s .configureFrequency (u32ToF64 p) (State.setCenterFrequency (u32ToF64 p)) <;>
      rw [he] at h <;> subst h
    · exact ⟨rfl, .inl ⟨rfl, rfl⟩⟩
    · exact ⟨rfl, .inr ⟨rfl, rfl, rfl, hr⟩⟩
  | setrate p =>
    simp only [exec, execSetrate, Host.Outcome.next.injEq] at h
    split at h
    · obtain ⟨hr, he⟩ | ⟨hr, he⟩ :=
        configureSource_cases s .configureSampleRate (u32ToF64 p) (State.setSampleRate (u32ToF64 p)) <;>
        rw [he] at h <;> subst h
      · exact ⟨rfl, .inl ⟨rfl, rfl⟩⟩
      · exact ⟨rfl, .inr ⟨rfl, rfl, rfl, hr⟩⟩
    · subst h; exact ⟨rfl, .inl ⟨rfl, rfl⟩⟩
  | setgain p =>
    simp only [exec, execSetgain, Host.Outcome.next.injEq] at h
    split at h <;> subst h <;> exact ⟨rfl, .inl ⟨rfl, rfl⟩⟩
  | quant8 => cases hi
  | quant16 => cases hi
  | pass32 => cases hi

end Sys2Proof.Machine
end

