-- ==== Sys2Proof/Laws/Float.lean ====
section
/-! SUPPORT. Patterns and values of binary32 numbers, and the bounds of rounding. -/

namespace Sys2Proof.Machine

variable (neg : Bool) (bits num den : Nat)

theorem pack32_toNat (h : bits < 2 ^ 31) : (pack32 neg bits).toNat = (if neg then 2 ^ 31 else 0) + bits := by
  simp only [pack32, BitVec.toNat_ofNat]
  split <;> omega

@[simp] theorem magBits_pack32 (h : bits < 2 ^ 31) : magBits (pack32 neg bits) = bits := by
  rw [magBits, pack32_toNat _ _ h]
  split <;> omega

@[simp] theorem signBit_pack32 (h : bits < 2 ^ 31) : signBit (pack32 neg bits) = neg := by
  rw [signBit, pack32_toNat _ _ h]
  cases neg <;> simp
  omega

/-- A pattern is its sign and its magnitude pattern. -/
theorem pack32_signBit_magBits (b : F32) : pack32 (signBit b) (magBits b) = b := by
  apply BitVec.eq_of_toNat_eq
  have := b.isLt
  have hm : magBits b < 2 ^ 31 := Nat.mod_lt _ (by decide)
  rw [pack32_toNat _ _ hm]
  simp only [signBit, magBits, decide_eq_true_eq]
  split <;> omega

theorem finite32_iff (b : F32) : finite32 b = true ↔ magBits b < infBits := by
  have : magBits b < 2 ^ 31 := Nat.mod_lt _ (by decide)
  simp only [finite32, infBits, bne_iff_ne, ne_eq]
  omega

/-- A finite pattern has a finite value. -/
theorem unpack32_of_finite {b : F32} (h : finite32 b = true) : unpack32 b = .fin (signBit b) (unitsOf (magBits b)) := by
  simp only [finite32, bne_iff_ne, ne_eq] at h
  rw [unpack32, if_neg h]

theorem isNaN32_iff (b : F32) : isNaN32 b = true ↔ unpack32 b = .nan := by
  have : magBits b < 2 ^ 31 := Nat.mod_lt _ (by decide)
  unfold isNaN32 unpack32 infBits
  split
  · split <;> simp <;> omega
  · simp
    omega

theorem isNaN32_nanResult (op : FloatOp) (a b : F32) : isNaN32 (nanResult op a b) = true := by
  have := (Config.freeNaN op a b).2.isLt
  rw [isNaN32, nanResult, magBits_pack32 _ _ (by simp only [infBits]; omega), decide_eq_true_eq]
  omega

theorem roundMag_le : roundMag num den ≤ infBits := Nat.min_le_left _ _

/-- The three ways an integer near a quotient is chosen. -/
theorem nearestEven_cases :
    (2 * (num % den) ≤ den ∧ nearestEven num den = num / den) ∨
      (den ≤ 2 * (num % den) ∧ nearestEven num den = num / den + 1) := by
  unfold nearestEven
  split
  · exact .inl ⟨by omega, rfl⟩
  · split
    · exact .inr ⟨by omega, rfl⟩
    · obtain h | h := Nat.mod_two_eq_zero_or_one (num / den)
      · exact .inl ⟨by omega, by rw [h, Nat.add_zero]⟩
      · exact .inr ⟨by omega, by rw [h]⟩

/-- Rounding to an integer is off by at most a half. -/
theorem nearestEven_bounds (h : 0 < den) :
    2 * num ≤ (2 * nearestEven num den + 1) * den ∧ 2 * nearestEven num den * den ≤ 2 * num + den := by
  have hnum := Nat.div_add_mod' num den
  have hlt := Nat.mod_lt num h
  have hodd : ∀ k, (2 * k + 1) * den = 2 * (k * den) + den := fun k => by ring
  have heven : ∀ k, 2 * k * den = 2 * (k * den) := fun k => by ring
  have hsucc : (num / den + 1) * den = num / den * den + den := by ring
  obtain ⟨hr, he⟩ | ⟨hr, he⟩ := nearestEven_cases num den <;> rw [he, hodd, heven]
  · omega
  · rw [hsucc]
    omega

/-- A tie is broken to an even integer. -/
theorem nearestEven_tie (h : 2 * (num % den) = den) : nearestEven num den % 2 = 0 := by
  unfold nearestEven
  rw [if_neg (by omega), if_neg (by omega)]
  omega

/-! ### Magnitude patterns and units -/

/-- The units of a pattern with `sh` in the exponent field, less one, and `q` as its integer significand. -/
theorem unitsOf_place (sh q : Nat) (hq : q ≤ 2 ^ 24) (hlow : sh = 0 ∨ 2 ^ 23 ≤ q) :
    unitsOf (sh * 2 ^ 23 + q) = q * 2 ^ sh := by
  unfold unitsOf
  by_cases h23 : q < 2 ^ 23
  · obtain rfl | h := hlow
    · rw [if_pos (by omega)]
      omega
    · omega
  · by_cases h24 : q = 2 ^ 24
    · subst h24
      have hd : (sh * 2 ^ 23 + 2 ^ 24) / 2 ^ 23 = sh + 2 := by omega
      rw [hd, if_neg (by omega)]
      have hm : (sh * 2 ^ 23 + 2 ^ 24) % 2 ^ 23 = 0 := by omega
      rw [hm, Nat.add_zero, show sh + 2 - 1 = sh + 1 by omega, pow_succ]
      omega
    · have hd : (sh * 2 ^ 23 + q) / 2 ^ 23 = sh + 1 := by omega
      have hm : 2 ^ 23 + (sh * 2 ^ 23 + q) % 2 ^ 23 = q := by omega
      rw [hd, if_neg (by omega), hm, Nat.add_sub_cancel]

/-- Every pattern is an exponent place and a significand. -/
theorem unitsOf_form (b : Nat) :
    ∃ sh q, b = sh * 2 ^ 23 + q ∧ q < 2 ^ 24 ∧ (sh = 0 ∨ 2 ^ 23 ≤ q) ∧ unitsOf b = q * 2 ^ sh := by
  by_cases h : b / 2 ^ 23 = 0
  · refine ⟨0, b, by omega, by omega, .inl rfl, ?_⟩
    rw [unitsOf, if_pos h, pow_zero, Nat.mul_one]
  · refine ⟨b / 2 ^ 23 - 1, 2 ^ 23 + b % 2 ^ 23, by omega, by omega, .inr (by omega), ?_⟩
    rw [unitsOf, if_neg h]

/-- What `lastPlace` says of the quotient: it has at most 24 binary places above it, and 24 where it is not 0. -/
theorem lastPlace_spec (hden : 0 < den) :
    num < 2 ^ 24 * (den * 2 ^ lastPlace num den) ∧
      (lastPlace num den = 0 ∨ 2 ^ 23 * (den * 2 ^ lastPlace num den) ≤ num) := by
  have hlt : num / den < 2 ^ (Nat.log2 (num / den) + 1) := Nat.lt_log2_self
  unfold lastPlace
  constructor
  · have h1 : num < den * 2 ^ (Nat.log2 (num / den) + 1) := by
      have := Nat.lt_mul_of_div_lt hlt hden
      rwa [Nat.mul_comm] at this
    have h2 : (2 : Nat) ^ (Nat.log2 (num / den) + 1) ≤ 2 ^ (24 + (Nat.log2 (num / den) - 23)) :=
      Nat.pow_le_pow_right (by decide) (by omega)
    calc num < den * 2 ^ (Nat.log2 (num / den) + 1) := h1
      _ ≤ den * 2 ^ (24 + (Nat.log2 (num / den) - 23)) := Nat.mul_le_mul_left _ h2
      _ = 2 ^ 24 * (den * 2 ^ (Nat.log2 (num / den) - 23)) := by rw [pow_add]; ring
  · by_cases h : Nat.log2 (num / den) ≤ 23
    · exact .inl (by omega)
    · refine .inr ?_
      have hne : num / den ≠ 0 := by
        intro h0
        rw [h0] at h
        simp at h
      have h1 : 2 ^ Nat.log2 (num / den) ≤ num / den := Nat.log2_self_le hne
      have h2 : Nat.log2 (num / den) = 23 + (Nat.log2 (num / den) - 23) := by omega
      calc 2 ^ 23 * (den * 2 ^ (Nat.log2 (num / den) - 23))
          = den * 2 ^ (23 + (Nat.log2 (num / den) - 23)) := by rw [pow_add]; ring
        _ = den * 2 ^ Nat.log2 (num / den) := by rw [← h2]
        _ ≤ den * (num / den) := Nat.mul_le_mul_left _ h1
        _ ≤ num := Nat.mul_div_le _ _

/-- The significand rounding computes has 24 binary places, and the carry into a 25th leaves zeros. -/
theorem significand_bounds (hden : 0 < den) :
    nearestEven num (den * 2 ^ lastPlace num den) ≤ 2 ^ 24 ∧
      (lastPlace num den = 0 ∨ 2 ^ 23 ≤ nearestEven num (den * 2 ^ lastPlace num den)) := by
  obtain ⟨hhi, hlo⟩ := lastPlace_spec num den hden
  have hpos : 0 < den * 2 ^ lastPlace num den := Nat.mul_pos hden (Nat.two_pow_pos _)
  generalize den * 2 ^ lastPlace num den = d at hhi hlo hpos ⊢
  obtain ⟨h1, h2⟩ := nearestEven_bounds num d hpos
  generalize nearestEven num d = q at h1 h2 ⊢
  constructor
  · by_contra hc
    have : (2 ^ 24 + 1) * d ≤ q * d := Nat.mul_le_mul_right _ (by omega)
    have : 2 * q * d = 2 * (q * d) := by ring
    omega
  · refine hlo.imp_right fun h => ?_
    by_contra hc
    have : (q + 1) * d ≤ 2 ^ 23 * d := Nat.mul_le_mul_right _ (by omega)
    have : (2 * q + 1) * d = 2 * (q * d) + d := by ring
    have : (q + 1) * d = q * d + d := by ring
    omega

/-- The units of a rounded magnitude that does not overflow. -/
theorem unitsOf_roundMag (hden : 0 < den) (h : roundMag num den < infBits) :
    unitsOf (roundMag num den) =
      nearestEven num (den * 2 ^ lastPlace num den) * 2 ^ lastPlace num den := by
  obtain ⟨hq, hlow⟩ := significand_bounds num den hden
  have he : roundMag num den =
      lastPlace num den * 2 ^ 23 + nearestEven num (den * 2 ^ lastPlace num den) := by
    unfold roundMag at h ⊢
    omega
  rw [he, unitsOf_place _ _ hq hlow]

/-! ### Rounding once -/

/-- A multiple of the divisor is no nearer than the one rounding chooses, and as near only in a tie. -/
theorem nearestEven_nearest (num d k : Nat) (hd : 0 < d) :
    ((nearestEven num d * d : Nat) - num : Int).natAbs ≤ ((k * d : Nat) - num : Int).natAbs ∧
      (((k * d : Nat) - num : Int).natAbs = ((nearestEven num d * d : Nat) - num : Int).natAbs →
        k ≠ nearestEven num d → nearestEven num d % 2 = 0) := by
  have hnum := Nat.div_add_mod' num d
  have hlt := Nat.mod_lt num hd
  have hsucc : (num / d + 1) * d = num / d * d + d := by ring
  have hk : k * d = num / d * d ∧ k = num / d ∨ k * d = num / d * d + d ∧ k = num / d + 1 ∨
      k * d + d ≤ num / d * d ∨ num / d * d + 2 * d ≤ k * d := by
    rcases Nat.lt_trichotomy k (num / d) with h | h | h
    · have : (k + 1) * d ≤ num / d * d := Nat.mul_le_mul_right _ h
      rw [Nat.add_mul] at this
      omega
    · exact .inl ⟨by rw [h], h⟩
    · by_cases h1 : k = num / d + 1
      · exact .inr (.inl ⟨by rw [h1, hsucc], h1⟩)
      · have : (num / d + 2) * d ≤ k * d := Nat.mul_le_mul_right _ (by omega)
        rw [Nat.add_mul] at this
        omega
  have htie := nearestEven_tie num d
  generalize k * d = kd at hk ⊢
  obtain ⟨hr, he⟩ | ⟨hr, he⟩ := nearestEven_cases num d <;> rw [he] at htie ⊢
  · generalize num / d * d = fd at *
    generalize num / d = f at *
    constructor
    · omega
    · intro h1 h2
      apply htie
      omega
  · rw [hsucc]
    generalize num / d * d = fd at *
    generalize num / d = f at *
    constructor
    · omega
    · intro h1 h2
      apply htie
      omega

theorem roundMag_overflow (num den : Nat) (hden : 0 < den) (h : (2 ^ 25 - 1) * 2 ^ 252 * den ≤ num) :
    roundMag num den = infBits := by
  obtain ⟨hhi, hlo⟩ := lastPlace_spec num den hden
  obtain ⟨hq, hqlo⟩ := significand_bounds num den hden
  have hsh : 253 ≤ lastPlace num den := by
    by_contra hc
    have : (2 : Nat) ^ lastPlace num den ≤ 2 ^ 252 := Nat.pow_le_pow_right (by decide) (by omega)
    have : 2 ^ 24 * (den * 2 ^ lastPlace num den) ≤ 2 ^ 24 * (den * 2 ^ 252) :=
      Nat.mul_le_mul_left _ (Nat.mul_le_mul_left _ this)
    omega
  unfold roundMag infBits
  by_cases h3 : lastPlace num den = 253
  · have htie := nearestEven_tie num (den * 2 ^ 253)
    have hb := nearestEven_bounds num (den * 2 ^ 253) (by positivity)
    rw [h3] at hq hqlo ⊢
    have hc := nearestEven_cases num (den * 2 ^ 253)
    have hnum := Nat.div_add_mod' num (den * 2 ^ 253)
    generalize nearestEven num (den * 2 ^ 253) = q at *
    have : 2 ^ 24 ≤ q := by
      by_contra hcon
      have hle : (2 * q + 1) * (den * 2 ^ 253) ≤ (2 * (2 ^ 24 - 1) + 1) * (den * 2 ^ 253) :=
        Nat.mul_le_mul_right _ (by omega)
      have heq : 2 * num = (2 * q + 1) * (den * 2 ^ 253) := by omega
      have hq1 : q = 2 ^ 24 - 1 := by
        by_contra hne
        have : (2 * q + 1) * (den * 2 ^ 253) ≤ (2 * (2 ^ 24 - 2) + 1) * (den * 2 ^ 253) :=
          Nat.mul_le_mul_right _ (by omega)
        omega
      subst hq1
      have hmod : 2 * (num % (den * 2 ^ 253)) = den * 2 ^ 253 := by
        rcases hc with ⟨h1, h2⟩ | ⟨h1, h2⟩
        · rw [← h2] at hnum; omega
        · have : num / (den * 2 ^ 253) = 2 ^ 24 - 2 := by omega
          rw [this] at hnum; have := Nat.mod_lt num (show 0 < den * 2 ^ 253 by positivity); omega
      have := htie hmod
      omega
    omega
  · omega

theorem roundMag_lt (num den : Nat) (hden : 0 < den) (h : num < (2 ^ 25 - 1) * 2 ^ 252 * den) :
    roundMag num den < infBits := by
  obtain ⟨hhi, hlo⟩ := lastPlace_spec num den hden
  obtain ⟨hq, hqlo⟩ := significand_bounds num den hden
  have hsh : lastPlace num den ≤ 253 := by
    by_contra hc
    have : (2 : Nat) ^ 254 ≤ 2 ^ lastPlace num den := Nat.pow_le_pow_right (by decide) (by omega)
    have : 2 ^ 23 * (den * 2 ^ 254) ≤ 2 ^ 23 * (den * 2 ^ lastPlace num den) :=
      Nat.mul_le_mul_left _ (Nat.mul_le_mul_left _ this)
    omega
  unfold roundMag infBits
  by_cases h3 : lastPlace num den = 253
  · have hb := nearestEven_bounds num (den * 2 ^ 253) (by positivity)
    rw [h3] at hq ⊢
    generalize nearestEven num (den * 2 ^ 253) = q at *
    have : q < 2 ^ 24 := by
      by_contra hcon
      have : 2 * 2 ^ 24 * (den * 2 ^ 253) ≤ 2 * q * (den * 2 ^ 253) :=
        Nat.mul_le_mul_right _ (by omega)
      omega
    omega
  · omega

/-- No magnitude is nearer than the rounded one, and as near only if the rounded one has an even pattern. -/
theorem roundMag_nearest (num den b : Nat) (hden : 0 < den) (h : roundMag num den < infBits) :
    ((unitsOf (roundMag num den) * den : Nat) - num : Int).natAbs ≤ ((unitsOf b * den : Nat) - num : Int).natAbs ∧
      (((unitsOf b * den : Nat) - num : Int).natAbs =
          ((unitsOf (roundMag num den) * den : Nat) - num : Int).natAbs →
        unitsOf b ≠ unitsOf (roundMag num den) → roundMag num den % 2 = 0) := by
  obtain ⟨hhi, hlo⟩ := lastPlace_spec num den hden
  have heven : roundMag num den % 2 = nearestEven num (den * 2 ^ lastPlace num den) % 2 := by
    unfold roundMag at h ⊢
    omega
  rw [heven, unitsOf_roundMag num den hden h]
  obtain ⟨sh, q, -, hq, hqlo, hu⟩ := unitsOf_form b
  rw [hu]
  have hpos : 0 < den * 2 ^ lastPlace num den := Nat.mul_pos hden (Nat.two_pow_pos _)
  have hU : nearestEven num (den * 2 ^ lastPlace num den) * 2 ^ lastPlace num den * den =
      nearestEven num (den * 2 ^ lastPlace num den) * (den * 2 ^ lastPlace num den) := by ring
  rw [hU]
  by_cases hs : lastPlace num den ≤ sh
  · have hk : q * 2 ^ sh * den = q * 2 ^ (sh - lastPlace num den) * (den * 2 ^ lastPlace num den) := by
      conv_lhs => rw [show sh = sh - lastPlace num den + lastPlace num den by omega, pow_add]
      ring
    rw [hk]
    obtain ⟨h1, h2⟩ := nearestEven_nearest num _ (q * 2 ^ (sh - lastPlace num den)) hpos
    refine ⟨h1, fun he hne => h2 he fun hc => hne ?_⟩
    rw [← hc, Nat.mul_assoc, ← pow_add, Nat.sub_add_cancel hs]
  · have hlo' : 2 ^ 23 * (den * 2 ^ lastPlace num den) ≤ num := hlo.resolve_left (by omega)
    obtain ⟨h1, -⟩ := nearestEven_nearest num _ (2 ^ 23) hpos
    have hlt : q * 2 ^ sh * den < 2 ^ 23 * (den * 2 ^ lastPlace num den) := by
      have e1 : (2 : Nat) ^ sh * 2 ≤ 2 ^ lastPlace num den := by
        rw [← pow_succ]
        exact Nat.pow_le_pow_right (by decide) (by omega)
      have e2 : q * 2 ^ sh < 2 ^ 24 * 2 ^ sh := Nat.mul_lt_mul_of_pos_right hq (Nat.two_pow_pos _)
      have e3 : q * 2 ^ sh < 2 ^ 23 * 2 ^ lastPlace num den := by omega
      calc q * 2 ^ sh * den < 2 ^ 23 * 2 ^ lastPlace num den * den := Nat.mul_lt_mul_of_pos_right e3 hden
        _ = _ := by ring
    generalize nearestEven num (den * 2 ^ lastPlace num den) * (den * 2 ^ lastPlace num den) = x at *
    generalize q * 2 ^ sh * den = y at *
    generalize 2 ^ 23 * (den * 2 ^ lastPlace num den) = w at *
    constructor <;> omega

theorem signedUnits_neg_iff (neg : Bool) (n : Nat) (h : signedUnits neg n ≠ 0) : neg = decide (signedUnits neg n < 0) := by
  cases neg <;> simp [signedUnits] at *
  omega

@[simp] theorem natAbs_signedUnits (neg : Bool) (n : Nat) : (signedUnits neg n).natAbs = n := by
  cases neg <;> simp [signedUnits]

theorem unpack32_eq_fin {b : F32} {s : Bool} {m : Nat} (h : unpack32 b = .fin s m) :
    finite32 b = true ∧ signBit b = s ∧ unitsOf (magBits b) = m := by
  unfold unpack32 at h
  unfold finite32
  split at h
  · split at h <;> cases h
  · cases h
    exact ⟨by simpa using ‹_›, rfl, rfl⟩

theorem signedUnits_mul (neg : Bool) (m den : Nat) : signedUnits neg m * den = signedUnits neg (m * den) := by
  cases neg <;> simp [signedUnits]

/-- Under signs, the number nearest among magnitudes stays nearest. -/
theorem signed_nearest (neg t : Bool) (x y num : Nat) (_h0 : ((x : Int) - num).natAbs ≤ (((0 : Nat) : Int) - num).natAbs)
    (h : ((x : Int) - num).natAbs ≤ ((y : Int) - num).natAbs) :
    (signedUnits neg x - signedUnits neg num).natAbs ≤ (signedUnits t y - signedUnits neg num).natAbs := by
  cases neg <;> cases t <;> simp only [signedUnits, ite_true, ite_false, Bool.false_eq_true] <;> omega

/-- A number of another sign is as near only if it is zero. -/
theorem signed_tie (neg t : Bool) (x y num : Nat) (h0 : ((x : Int) - num).natAbs ≤ (((0 : Nat) : Int) - num).natAbs)
    (h : (signedUnits t y - signedUnits neg num).natAbs = (signedUnits neg x - signedUnits neg num).natAbs) :
    (neg = t ∨ y = 0) ∧ ((y : Int) - num).natAbs = ((x : Int) - num).natAbs := by
  cases neg <;> cases t <;> simp only [signedUnits, ite_true, ite_false, Bool.false_eq_true] at h <;> simp <;> omega

/-- Packing a rounded magnitude under a sign rounds the signed number once (R12). -/
theorem roundedOnce_pack32 (neg : Bool) (num den : Nat) (hden : 0 < den) :
    RoundedOnce (pack32 neg (roundMag num den)) (signedUnits neg num) den := by
  have hb : roundMag num den < 2 ^ 31 := lt_of_le_of_lt (roundMag_le num den) (by decide)
  have hfin : ∀ s m, unpack32 (pack32 neg (roundMag num den)) = .fin s m →
      roundMag num den < infBits ∧ neg = s ∧ unitsOf (roundMag num den) = m := by
    intro s m h
    obtain ⟨h1, h2, h3⟩ := unpack32_eq_fin h
    rw [finite32_iff, magBits_pack32 _ _ hb] at h1
    rw [signBit_pack32 _ _ hb] at h2
    rw [magBits_pack32 _ _ hb] at h3
    exact ⟨h1, h2, h3⟩
  have hz : roundMag num den < infBits →
      ((unitsOf (roundMag num den) * den : Nat) - num : Int).natAbs ≤ (((0 : Nat) : Int) - num).natAbs := by
    intro h
    have := (roundMag_nearest num den 0 hden h).1
    rwa [show unitsOf 0 = 0 from rfl, Nat.zero_mul] at this
  refine ⟨fun h => ?_, fun h => ?_, fun h => ?_, fun s t m n c hr hc => ?_, fun s t m n c hr hc hne he => ?_⟩
  · rw [signBit_pack32 _ _ hb]
    exact signedUnits_neg_iff _ _ h
  · rw [magBits_pack32 _ _ hb]
    exact roundMag_overflow _ _ hden (by rwa [natAbs_signedUnits] at h)
  · rw [finite32_iff, magBits_pack32 _ _ hb]
    exact roundMag_lt _ _ hden (by rwa [natAbs_signedUnits] at h)
  · obtain ⟨hlt, rfl, rfl⟩ := hfin s m hr
    obtain ⟨-, -, rfl⟩ := unpack32_eq_fin hc
    rw [signedUnits_mul, signedUnits_mul]
    exact signed_nearest _ _ _ _ _ (hz hlt) (roundMag_nearest num den (magBits c) hden hlt).1
  · obtain ⟨hlt, rfl, rfl⟩ := hfin s m hr
    obtain ⟨-, -, rfl⟩ := unpack32_eq_fin hc
    rw [signedUnits_mul, signedUnits_mul] at he
    obtain ⟨hs, heq⟩ := signed_tie _ _ _ _ _ (hz hlt) he
    have hpar : (pack32 neg (roundMag num den)).toNat % 2 = roundMag num den % 2 := by
      rw [pack32_toNat _ _ hb]
      generalize roundMag num den = x
      split <;> omega
    rw [hpar]
    refine (roundMag_nearest num den (magBits c) hden hlt).2 heq fun hc0 => hne ?_
    rw [hc0]
    obtain rfl | hy := hs
    · rfl
    · rw [← hc0, (Nat.mul_eq_zero.mp hy).resolve_right hden.ne']
      cases neg <;> cases t <;> rfl

/-- An integer number of units, rounded once. -/
theorem roundedOnce_roundUnits (zeroNeg : Bool) (z : Int) : RoundedOnce (roundUnits zeroNeg z) z 1 := by
  unfold roundUnits
  split
  · subst z
    have h := roundedOnce_pack32 zeroNeg 0 1 Nat.one_pos
    rw [show roundMag 0 1 = 0 by decide +kernel] at h
    rwa [show signedUnits zeroNeg 0 = 0 by cases zeroNeg <;> rfl] at h
  · have h := roundedOnce_pack32 (decide (z < 0)) z.natAbs 1 Nat.one_pos
    rwa [show signedUnits (decide (z < 0)) z.natAbs = z by
      rw [signedUnits]
      simp only [decide_eq_true_eq]
      split <;> omega] at h

/-! ### The order of patterns -/

/-- A larger pattern stands for at least as many units. -/
theorem unitsOf_mono {b c : Nat} (h : b ≤ c) : unitsOf b ≤ unitsOf c := by
  unfold unitsOf
  by_cases hb : b / 2 ^ 23 = 0
  · rw [if_pos hb]
    by_cases hc : c / 2 ^ 23 = 0
    · rwa [if_pos hc]
    · rw [if_neg hc]
      have : 1 ≤ 2 ^ (c / 2 ^ 23 - 1) := Nat.one_le_two_pow
      calc b ≤ (2 ^ 23 + c % 2 ^ 23) * 1 := by omega
        _ ≤ _ := Nat.mul_le_mul_left _ this
  · have hc : ¬c / 2 ^ 23 = 0 := by omega
    rw [if_neg hb, if_neg hc]
    by_cases he : b / 2 ^ 23 = c / 2 ^ 23
    · rw [he]
      exact Nat.mul_le_mul_right _ (by omega)
    · have hp : (2 : Nat) ^ (b / 2 ^ 23 - 1) * 2 ≤ 2 ^ (c / 2 ^ 23 - 1) := by
        rw [← pow_succ]
        exact Nat.pow_le_pow_right (by decide) (by omega)
      have h1 : (2 ^ 23 + b % 2 ^ 23) * 2 ^ (b / 2 ^ 23 - 1) ≤ 2 ^ 24 * 2 ^ (b / 2 ^ 23 - 1) :=
        Nat.mul_le_mul_right _ (by omega)
      have h2 : 2 ^ 23 * 2 ^ (c / 2 ^ 23 - 1) ≤ (2 ^ 23 + c % 2 ^ 23) * 2 ^ (c / 2 ^ 23 - 1) :=
        Nat.mul_le_mul_right _ (by omega)
      omega

theorem unitsOf_infBits : unitsOf infBits = 2 ^ 277 := by decide +kernel

/-- A pattern of at most the units of the largest finite number is finite. -/
theorem lt_infBits_of_unitsOf {b : Nat} (h : unitsOf b < 2 ^ 277) : b < infBits := by
  by_contra hc
  have := unitsOf_mono (Nat.le_of_not_lt hc)
  rw [unitsOf_infBits] at this
  omega

theorem lastPlace_mono {num num' den : Nat} (h : num ≤ num') : lastPlace num den ≤ lastPlace num' den := by
  unfold lastPlace
  have : Nat.log2 (num / den) ≤ Nat.log2 (num' / den) := by
    by_cases h0 : num / den = 0
    · rw [h0]; simp
    · have hle := Nat.div_le_div_right (c := den) h
      rw [Nat.le_log2 fun hz => h0 (Nat.le_zero.mp (hz ▸ hle))]
      exact (Nat.log2_self_le h0).trans hle
  omega

end Sys2Proof.Machine
end

