-- ==== Sys2Proof/Laws/PerInstr.lean ====
section
/-! SUPPORT. Statements made for every instruction, one lemma per constructor of `Instr`. -/

namespace Sys2Proof.Laws.Length

/-- An instruction is five bytes long as a command frame (R80) and one byte as a mode (R91). -/
def Statement (i : Instr) : Prop :=
  (encode i).length =
    match i.format with
    | .cmd => 5
    | .mode => 1

theorem nop0 (payload : Word) : Statement (.nop0 payload) := rfl
theorem setfreq (payload : Word) : Statement (.setfreq payload) := rfl
theorem setrate (payload : Word) : Statement (.setrate payload) := rfl
theorem info3 (payload : Word) : Statement (.info3 payload) := rfl
theorem setgain (payload : Word) : Statement (.setgain payload) := rfl
theorem nophi (opcode : Byte) (payload : Word) : Statement (.nophi opcode payload) := rfl
theorem quant8 : Statement .quant8 := rfl
theorem quant16 : Statement .quant16 := rfl
theorem pass32 : Statement .pass32 := rfl

end Sys2Proof.Laws.Length
end

