-- ==== Sys2Proof/Laws/Ports.lean ====
section
/-! SUPPORT. The random port and the Sample Source port: what is read from them and what stays. -/

namespace Sys2Proof.Machine

variable (s : State)

theorem drawBits_toNat (d : UnitDraw) : (drawBits d).toNat = d.val := by
  have := d.isLt
  simp only [drawBits, BitVec.toNat_ofNat]
  omega

theorem inUnit_drawBits (d : UnitDraw) : inUnit (drawBits d) = true := by
  simp [inUnit, drawBits_toNat, d.isLt]

theorem nextDraw_eq_drawAt : s.nextDraw = drawAt s 0 := by
  unfold State.nextDraw drawAt
  cases s.rnd <;> rfl

theorem inUnit_nextDraw : inUnit s.nextDraw = true := by
  unfold State.nextDraw
  split <;> exact inUnit_drawBits _

theorem drawAt_dropDraw (k : Nat) : drawAt s.dropDraw k = drawAt s (k + 1) := by
  simp only [drawAt, State.dropDraw_rnd, State.dropDraw_drawn, List.getElem?_tail, Nat.add_assoc, Nat.add_comm 1 k]

/-- `drawAt` sees only the random port. -/
theorem drawAt_congr {s t : State} (hr : t.rnd = s.rnd) (hd : t.drawn = s.drawn) (k : Nat) : drawAt t k = drawAt s k := by
  simp only [drawAt, hr, hd]

end Sys2Proof.Machine
end

