-- ==== Sys2Proof/Laws/Pow10.lean ====
section
/-! SUPPORT. The enclosure of a power of ten that the bounds on `POW10` are computed from, and what those bounds allow. -/

namespace Sys2Proof.Machine

open Finset

/-! ### The exponential series in fixed point -/

/-- One term of the exponential series. -/
noncomputable def expTerm (x : ℝ) (j : Nat) : ℝ := x ^ j / j.factorial

theorem expTerm_succ (x : ℝ) (j : Nat) : x / (j + 1) * expTerm x j = expTerm x (j + 1) := by
  unfold expTerm
  rw [Nat.factorial_succ, pow_succ]
  push_cast
  have : (j : ℝ) + 1 ≠ 0 := by positivity
  have : (j.factorial : ℝ) ≠ 0 := by positivity
  field_simp

theorem expTerm_nonneg {x : ℝ} (h : 0 ≤ x) (j : Nat) : 0 ≤ expTerm x j := by
  unfold expTerm
  positivity

section

variable {one : Nat} (h1 : 0 < one) (z : Nat)
include h1

/-- The division of one step, with what it cuts off. -/
theorem expStep_bounds (j acc : Nat) :
    ((z : ℝ) / one) / (j + 1) * acc - 1 ≤ ((z * acc / ((j + 1) * one) : Nat) : ℝ) ∧
      ((z * acc / ((j + 1) * one) : Nat) : ℝ) ≤ ((z : ℝ) / one) / (j + 1) * acc := by
  have hd : 0 < (j + 1) * one := Nat.mul_pos (Nat.succ_pos j) h1
  have h2 := Nat.div_add_mod (z * acc) ((j + 1) * one)
  have h3 := Nat.mod_lt (z * acc) hd
  have hr : (0 : ℝ) < (j + 1) * one := by exact_mod_cast hd
  generalize z * acc / ((j + 1) * one) = q at *
  have e : ((z : ℝ) / one) / (j + 1) * acc = z * acc / ((j + 1) * one) := by
    have : (j : ℝ) + 1 ≠ 0 := by positivity
    have : (one : ℝ) ≠ 0 := by positivity
    field_simp
  rw [e]
  have h4 : ((j + 1) * one * q : ℝ) ≤ z * acc := by exact_mod_cast (by omega : (j + 1) * one * q ≤ z * acc)
  have h5 : (z * acc : ℝ) ≤ (j + 1) * one * q + (j + 1) * one := by
    exact_mod_cast (by omega : z * acc ≤ (j + 1) * one * q + (j + 1) * one)
  constructor
  · rw [sub_le_iff_le_add, div_le_iff₀ hr]
    linarith
  · rw [le_div_iff₀ hr]
    linarith

theorem expBelow_bounds : ∀ (j acc : Nat),
    ((one : ℝ) - 1) * ∑ i ∈ range j, expTerm (z / one) i + acc * expTerm (z / one) j ≤ expBelow one z j acc ∧
      (expBelow one z j acc : ℝ) ≤ one * ∑ i ∈ range j, expTerm (z / one) i + acc * expTerm (z / one) j
  | 0, acc => by simp [expBelow, expTerm]
  | j + 1, acc => by
    obtain ⟨h2, h3⟩ := expStep_bounds h1 z j acc
    obtain ⟨h4, h5⟩ := expBelow_bounds j (one + z * acc / ((j + 1) * one))
    have hx : 0 ≤ expTerm ((z : ℝ) / one) j := expTerm_nonneg (by positivity) j
    have hs := expTerm_succ ((z : ℝ) / one) j
    rw [expBelow, sum_range_succ]
    generalize z * acc / ((j + 1) * one) = q at *
    push_cast at h4 h5
    rw [← hs]
    have h6 := mul_le_mul_of_nonneg_right h2 hx
    have h7 := mul_le_mul_of_nonneg_right h3 hx
    constructor <;> linarith

theorem expAbove_bounds : ∀ (j acc : Nat),
    (one : ℝ) * ∑ i ∈ range j, expTerm (z / one) i + acc * expTerm (z / one) j ≤ expAbove one z j acc ∧
      (expAbove one z j acc : ℝ) ≤
        ((one : ℝ) + 1) * ∑ i ∈ range j, expTerm (z / one) i + acc * expTerm (z / one) j
  | 0, acc => by simp [expAbove, expTerm]
  | j + 1, acc => by
    obtain ⟨h2, h3⟩ := expStep_bounds h1 z j acc
    obtain ⟨h4, h5⟩ := expAbove_bounds j (one + z * acc / ((j + 1) * one) + 1)
    have hx : 0 ≤ expTerm ((z : ℝ) / one) j := expTerm_nonneg (by positivity) j
    have hs := expTerm_succ ((z : ℝ) / one) j
    rw [expAbove, sum_range_succ]
    generalize z * acc / ((j + 1) * one) = q at *
    push_cast at h4 h5
    rw [← hs]
    have h6 := mul_le_mul_of_nonneg_right h2 hx
    have h7 := mul_le_mul_of_nonneg_right h3 hx
    constructor <;> linarith

omit h1 in
theorem sum_expTerm_le_exp {x : ℝ} (hx : 0 ≤ x) (n : Nat) : ∑ i ∈ range n, expTerm x i ≤ Real.exp x :=
  Real.sum_le_exp_of_nonneg hx n

omit h1 in
theorem exp_le_sum_expTerm {x : ℝ} (hx : 0 ≤ x) {n : Nat} (hn : 2 * x ≤ n + 1) :
    Real.exp x ≤ ∑ i ∈ range n, expTerm x i + 2 * expTerm x n := by
  have h := Complex.exp_bound' (x := (x : ℂ)) (n := n) (by
    rw [Complex.norm_real, Real.norm_of_nonneg hx, div_le_iff₀ (by positivity)]
    push_cast
    linarith)
  have e : Complex.exp x - ∑ m ∈ range n, (x : ℂ) ^ m / m.factorial =
      ((Real.exp x - ∑ i ∈ range n, expTerm x i : ℝ) : ℂ) := by
    push_cast [expTerm]
    rfl
  rw [e, Complex.norm_real, Complex.norm_real, Real.norm_of_nonneg hx] at h
  have := le_trans (le_abs_self _) h
  unfold expTerm at *
  linarith

/-- The two schemes enclose the exponential. -/
theorem exp_enclosed {n : Nat} (hn : 2 * ((z : ℝ) / one) ≤ n + 1) :
    (expBelow one z n one : ℝ) ≤ one * Real.exp (z / one) ∧
      one * Real.exp (z / one) ≤ expAbove one z n (2 * one) := by
  have hx : 0 ≤ (z : ℝ) / one := by positivity
  constructor
  · have h := (expBelow_bounds h1 z n one).2
    have hs := sum_expTerm_le_exp hx (n + 1)
    rw [sum_range_succ] at hs
    have h2 := mul_le_mul_of_nonneg_left hs (Nat.cast_nonneg (α := ℝ) one)
    linarith
  · have h := (expAbove_bounds h1 z n (2 * one)).1
    have hs := exp_le_sum_expTerm hx hn
    have h2 := mul_le_mul_of_nonneg_left hs (Nat.cast_nonneg (α := ℝ) one)
    push_cast at h
    linarith

end

/-! ### The logarithm of ten and the power of a fraction -/

theorem exp_fixLn10_le : expAbove (2 ^ 256) (fixLn10 * 2 ^ 128) 80 (2 * 2 ^ 256) ≤ 10 * 2 ^ 256 := by decide +kernel

theorem le_exp_fixLn10 : 10 * 2 ^ 256 ≤ expBelow (2 ^ 256) ((fixLn10 + 1) * 2 ^ 128) 80 (2 ^ 256) := by decide +kernel

/-- The logarithm of 10 lies in the last place of `fixLn10`. -/
theorem log_ten_bounds : (fixLn10 : ℝ) / fixOne ≤ Real.log 10 ∧ Real.log 10 ≤ ((fixLn10 : ℝ) + 1) / fixOne := by
  have hL : (fixLn10 : ℝ) = 783529105480883066805338482703447369891 := by norm_num [fixLn10]
  have hO : (fixOne : ℝ) = 2 ^ 128 := by norm_num [fixOne]
  have e1 : ((fixLn10 * 2 ^ 128 : Nat) : ℝ) / ((2 ^ 256 : Nat) : ℝ) = fixLn10 / fixOne := by
    push_cast
    rw [hO]
    ring
  have e2 : (((fixLn10 + 1) * 2 ^ 128 : Nat) : ℝ) / ((2 ^ 256 : Nat) : ℝ) = (fixLn10 + 1) / fixOne := by
    push_cast
    rw [hO]
    ring
  have hpos : (0 : ℝ) < ((2 ^ 256 : Nat) : ℝ) := by positivity
  constructor
  · have h := (exp_enclosed (one := 2 ^ 256) (by positivity) (fixLn10 * 2 ^ 128) (n := 80)
      (by rw [e1, hL, hO]; norm_num)).2
    rw [e1] at h
    have h2 : (expAbove (2 ^ 256) (fixLn10 * 2 ^ 128) 80 (2 * 2 ^ 256) : ℝ) ≤ ((10 * 2 ^ 256 : Nat) : ℝ) := by
      exact_mod_cast exp_fixLn10_le
    rw [Real.le_log_iff_exp_le (by norm_num)]
    rw [Nat.cast_mul] at h2
    have h3 := le_trans h h2
    rw [mul_comm] at h3
    exact le_of_mul_le_mul_right h3 hpos
  · have h := (exp_enclosed (one := 2 ^ 256) (by positivity) ((fixLn10 + 1) * 2 ^ 128) (n := 80)
      (by rw [e2, hL, hO]; norm_num)).1
    rw [e2] at h
    have h2 : ((10 * 2 ^ 256 : Nat) : ℝ) ≤ expBelow (2 ^ 256) ((fixLn10 + 1) * 2 ^ 128) 80 (2 ^ 256) := by
      exact_mod_cast le_exp_fixLn10
    rw [Real.log_le_iff_le_exp (by norm_num)]
    rw [Nat.cast_mul] at h2
    have h3 := le_trans h2 h
    rw [mul_comm (((2 ^ 256 : Nat) : ℝ))] at h3
    exact le_of_mul_le_mul_right h3 hpos

theorem expTerm_small {x : ℝ} (h0 : 0 ≤ x) (h3 : x ≤ 3) : expTerm x 64 ≤ 1 / 2 ^ 180 ∧ expTerm x 65 ≤ 1 / 2 ^ 180 := by
  have h : ∀ n, expTerm x n ≤ 3 ^ n / n.factorial := fun n => by
    unfold expTerm
    gcongr
  exact ⟨(h 64).trans (by norm_num [Nat.factorial]), (h 65).trans (by norm_num [Nat.factorial])⟩

theorem natDiv_bounds {d : Nat} (hd : 0 < d) (a k : Nat) :
    (a : ℝ) / d * k - 1 ≤ ((a * k / d : Nat) : ℝ) ∧ ((a * k / d : Nat) : ℝ) ≤ a / d * k := by
  have h := expStep_bounds hd a 0 k
  simpa using h

/-- The exponents the two enclosures use. -/
theorem fraction_exponents {a : Nat} (ha : a < 2 ^ 149) :
    (Real.log 10 * (a / 2 ^ 149) - 2 / fixOne ≤ ((a * fixLn10 / 2 ^ 149 : Nat) : ℝ) / fixOne ∧
        ((a * fixLn10 / 2 ^ 149 : Nat) : ℝ) / fixOne ≤ Real.log 10 * (a / 2 ^ 149)) ∧
      Real.log 10 * (a / 2 ^ 149) ≤ ((a * (fixLn10 + 1) / 2 ^ 149 + 1 : Nat) : ℝ) / fixOne ∧
        ((a * (fixLn10 + 1) / 2 ^ 149 + 1 : Nat) : ℝ) / fixOne ≤ Real.log 10 * (a / 2 ^ 149) + 2 / fixOne := by
  obtain ⟨hl, hu⟩ := log_ten_bounds
  have hO : (0 : ℝ) < fixOne := by norm_num [fixOne]
  rw [div_le_iff₀ hO] at hl
  rw [le_div_iff₀ hO] at hu
  have hy0 : (0 : ℝ) ≤ a / 2 ^ 149 := by positivity
  have hy1 : (a : ℝ) / 2 ^ 149 ≤ 1 := by
    rw [div_le_one (by positivity)]
    exact_mod_cast ha.le
  have hdiv : ∀ k : Nat, (a : ℝ) / 2 ^ 149 * k - 1 ≤ ((a * k / 2 ^ 149 : Nat) : ℝ) ∧
      ((a * k / 2 ^ 149 : Nat) : ℝ) ≤ a / 2 ^ 149 * k := by
    intro k
    have h := natDiv_bounds (d := 2 ^ 149) (by positivity) a k
    rwa [Nat.cast_pow, Nat.cast_ofNat] at h
  obtain ⟨h1, h2⟩ := hdiv fixLn10
  obtain ⟨h3, h4⟩ := hdiv (fixLn10 + 1)
  generalize (a : ℝ) / 2 ^ 149 = y at *
  push_cast at h3 h4 ⊢
  generalize Real.log 10 = l at *
  generalize a * fixLn10 / 2 ^ 149 = p at *
  generalize a * (fixLn10 + 1) / 2 ^ 149 = q at *
  have e : ∀ u v : ℝ, u - 2 / fixOne ≤ v / fixOne ↔ u * fixOne - 2 ≤ v := fun u v => by
    rw [sub_le_iff_le_add, ← add_div, le_div_iff₀ hO, sub_le_iff_le_add]
  have e' : ∀ u v : ℝ, v / fixOne ≤ u + 2 / fixOne ↔ v ≤ u * fixOne + 2 := fun u v => by
    rw [← sub_le_iff_le_add, ← sub_div, div_le_iff₀ hO, sub_le_iff_le_add]
  have hyl := mul_le_mul_of_nonneg_left hl hy0
  have hyu := mul_le_mul_of_nonneg_left hu hy0
  refine ⟨⟨?_, ?_⟩, ?_, ?_⟩
  · rw [e]
    linarith
  · rw [div_le_iff₀ hO]
    linarith
  · rw [le_div_iff₀ hO]
    linarith
  · rw [e']
    linarith

theorem rpow_eq_exp (y : ℝ) : (10 : ℝ) ^ y = Real.exp (Real.log 10 * y) := Real.rpow_def_of_pos (by norm_num) y

/-- The two enclosures of ten to the power of a fraction. -/
theorem tenToFraction_enclosed {a : Nat} (ha : a < 2 ^ 149) :
    (fixOne * (10 : ℝ) ^ ((a : ℝ) / 2 ^ 149) * (1 - 1 / 2 ^ 110) ≤ tenToFractionBelow a ∧
        (tenToFractionBelow a : ℝ) ≤ fixOne * (10 : ℝ) ^ ((a : ℝ) / 2 ^ 149)) ∧
      fixOne * (10 : ℝ) ^ ((a : ℝ) / 2 ^ 149) ≤ tenToFractionAbove a ∧
        (tenToFractionAbove a : ℝ) ≤ fixOne * (10 : ℝ) ^ ((a : ℝ) / 2 ^ 149) * (1 + 1 / 2 ^ 110) := by
  obtain ⟨⟨h1, h2⟩, h3, h4⟩ := fraction_exponents ha
  have hO : (fixOne : ℝ) = 2 ^ 128 := by norm_num [fixOne]
  have hO0 : 0 < fixOne := by norm_num [fixOne]
  have hl0 : 0 ≤ Real.log 10 * ((a : ℝ) / 2 ^ 149) := mul_nonneg (Real.log_nonneg (by norm_num)) (by positivity)
  have hl3 : Real.log 10 * ((a : ℝ) / 2 ^ 149) ≤ 5 / 2 := by
    have hu := log_ten_bounds.2
    have hy1 : (a : ℝ) / 2 ^ 149 ≤ 1 := by
      rw [div_le_one (by positivity)]
      exact_mod_cast ha.le
    have h := mul_le_mul_of_nonneg_left hy1 (Real.log_nonneg (x := 10) (by norm_num))
    have : ((fixLn10 : ℝ) + 1) / fixOne ≤ 5 / 2 := by norm_num [fixLn10, fixOne]
    linarith
  have hsmall : (2 : ℝ) / fixOne ≤ 1 / 2 := by rw [hO]; norm_num
  unfold tenToFractionBelow tenToFractionAbove
  generalize a * fixLn10 / 2 ^ 149 = p at *
  generalize a * (fixLn10 + 1) / 2 ^ 149 + 1 = q at *
  have hp0 : 0 ≤ (p : ℝ) / fixOne := by positivity
  have hq0 : 0 ≤ (q : ℝ) / fixOne := by positivity
  have hB := exp_enclosed hO0 p (n := 64) (by push_cast; linarith)
  have hA := exp_enclosed hO0 q (n := 64) (by push_cast; linarith)
  have hBl := (expBelow_bounds hO0 p 64 fixOne).1
  have hAu := (expAbove_bounds hO0 q 64 (2 * fixOne)).2
  obtain ⟨ht1, ht2⟩ := expTerm_small hp0 (by linarith)
  obtain ⟨ht3, -⟩ := expTerm_small hq0 (by linarith)
  have hs1 := exp_le_sum_expTerm hp0 (n := 65) (by push_cast; linarith)
  have hs2 := sum_expTerm_le_exp hq0 64
  have hpos1 := expTerm_nonneg hp0 64
  rw [sum_range_succ] at hs1
  rw [rpow_eq_exp]
  have hT1 : 1 ≤ Real.exp (Real.log 10 * ((a : ℝ) / 2 ^ 149)) := Real.one_le_exp hl0
  have he1 : Real.exp (Real.log 10 * ((a : ℝ) / 2 ^ 149)) * (1 - 2 / fixOne) ≤ Real.exp (p / fixOne) := by
    have h := Real.exp_le_exp.mpr h1
    rw [sub_eq_add_neg, Real.exp_add] at h
    have h5 := Real.one_sub_le_exp_neg (2 / (fixOne : ℝ))
    exact (mul_le_mul_of_nonneg_left h5 (Real.exp_pos _).le).trans h
  have he2 : Real.exp (q / fixOne) ≤ Real.exp (Real.log 10 * ((a : ℝ) / 2 ^ 149)) * (1 + 4 / fixOne) := by
    have h := Real.exp_le_exp.mpr h4
    rw [Real.exp_add] at h
    have h5 : Real.exp (2 / (fixOne : ℝ)) ≤ 1 + 4 / fixOne := by
      have := Real.exp_bound_div_one_sub_of_interval (x := 2 / (fixOne : ℝ)) (by positivity) (by rw [hO]; norm_num)
      refine this.trans ?_
      rw [hO]
      norm_num
    exact h.trans (mul_le_mul_of_nonneg_left h5 (Real.exp_pos _).le)
  have he3 := Real.exp_le_exp.mpr h2
  have he4 := Real.exp_le_exp.mpr h3
  generalize Real.exp (Real.log 10 * ((a : ℝ) / 2 ^ 149)) = T at *
  generalize Real.exp (↑p / (fixOne : ℝ)) = E at *
  generalize Real.exp (↑q / (fixOne : ℝ)) = F at *
  generalize ∑ i ∈ range 64, expTerm (↑p / (fixOne : ℝ)) i = S at *
  generalize ∑ i ∈ range 64, expTerm (↑q / (fixOne : ℝ)) i = R at *
  generalize expTerm (↑p / (fixOne : ℝ)) 64 = u at *
  generalize expTerm (↑p / (fixOne : ℝ)) 65 = v at *
  generalize expTerm (↑q / (fixOne : ℝ)) 64 = w at *
  have hB1 := hB.1
  have hA2 := hA.2
  clear hB hA h1 h2 h3 h4 hl0 hl3 hsmall
  generalize expBelow fixOne p 64 fixOne = B at *
  generalize expAbove fixOne q 64 (2 * fixOne) = A at *
  rw [Nat.cast_mul, Nat.cast_ofNat] at hAu
  rw [hO] at *
  have hB0 : (1 : ℝ) ≤ B := by linarith
  have hBc : ((B - 1 : Nat) : ℝ) = B - 1 := by
    rw [Nat.cast_sub (by exact_mod_cast hB0)]
    simp
  rw [hBc]
  refine ⟨⟨?_, by linarith⟩, by linarith, ?_⟩
  · have : (2 ^ 128 - 1) * (T * (1 - 2 / 2 ^ 128) - 2 / 2 ^ 180) ≤ (B : ℝ) := by linarith
    linarith
  · linarith

/-! ### The bounds -/

theorem lt_of_mul_lt {x y den : Nat} (_hden : 0 < den) (h : x * den < y * den) : x < y := by
  by_contra hc
  have := Nat.mul_le_mul_right den (Nat.le_of_not_lt hc)
  omega

/-- Rounding up to a pattern, below the infinity. -/
theorem ceilMag_spec (num den : Nat) {top : Nat} (htop : 2 ^ 277 = top) (hden : 0 < den)
    (h : num + den * 2 ^ lastPlace num den ≤ top * den) :
    num ≤ unitsOf (ceilMag num den) * den ∧
      unitsOf (ceilMag num den) * den < num + den * 2 ^ lastPlace num den := by
  obtain ⟨hhi, hlo⟩ := lastPlace_spec num den hden
  have hpos : 0 < den * 2 ^ lastPlace num den := Nat.mul_pos hden (Nat.two_pow_pos _)
  obtain ⟨q, hq⟩ : ∃ q, (num + den * 2 ^ lastPlace num den - 1) / (den * 2 ^ lastPlace num den) = q := ⟨_, rfl⟩
  have hdm := Nat.div_add_mod' (num + den * 2 ^ lastPlace num den - 1) (den * 2 ^ lastPlace num den)
  have hml := Nat.mod_lt (num + den * 2 ^ lastPlace num den - 1) hpos
  rw [hq] at hdm
  have hU : ∀ k, q * 2 ^ k * den = q * (den * 2 ^ k) := fun k => by ring
  have hq1 : num ≤ q * (den * 2 ^ lastPlace num den) := by omega
  have hq2 : q * (den * 2 ^ lastPlace num den) < num + den * 2 ^ lastPlace num den := by omega
  have hq24 : q ≤ 2 ^ 24 := by
    by_contra hc
    have : (2 ^ 24 + 1) * (den * 2 ^ lastPlace num den) ≤ q * (den * 2 ^ lastPlace num den) :=
      Nat.mul_le_mul_right _ (by omega)
    omega
  have hqlo : lastPlace num den = 0 ∨ 2 ^ 23 ≤ q := by
    refine hlo.imp_right fun h => ?_
    by_contra hc
    have : (q + 1) * (den * 2 ^ lastPlace num den) ≤ 2 ^ 23 * (den * 2 ^ lastPlace num den) :=
      Nat.mul_le_mul_right _ (by omega)
    rw [Nat.add_mul] at this
    omega
  have hu := unitsOf_place _ _ hq24 hqlo
  have hlt : lastPlace num den * 2 ^ 23 + q < infBits := by
    apply lt_infBits_of_unitsOf
    rw [hu, htop]
    refine lt_of_mul_lt hden ?_
    rw [hU]
    exact hq2.trans_le h
  have hc : ceilMag num den = lastPlace num den * 2 ^ 23 + q := by
    unfold ceilMag
    simp only [hq]
    exact Nat.min_eq_right hlt.le
  rw [hc, hu, hU]
  exact ⟨hq1, hq2⟩

/-- Rounding down to a pattern. -/
theorem floorMag_spec (num den : Nat) (hden : 0 < den) : unitsOf (floorMag num den) * den ≤ num := by
  obtain ⟨hhi, hlo⟩ := lastPlace_spec num den hden
  have hpos : 0 < den * 2 ^ lastPlace num den := Nat.mul_pos hden (Nat.two_pow_pos _)
  have hq24 : num / (den * 2 ^ lastPlace num den) < 2 ^ 24 := by rwa [Nat.div_lt_iff_lt_mul hpos]
  have hqlo : lastPlace num den = 0 ∨ 2 ^ 23 ≤ num / (den * 2 ^ lastPlace num den) :=
    hlo.imp_right fun h => by rwa [Nat.le_div_iff_mul_le hpos]
  have hle : num / (den * 2 ^ lastPlace num den) * (den * 2 ^ lastPlace num den) ≤ num := Nat.div_mul_le_self _ _
  have hu := unitsOf_mono (Nat.min_le_right infBits
    (lastPlace num den * 2 ^ 23 + num / (den * 2 ^ lastPlace num den)))
  rw [unitsOf_place _ _ hq24.le hqlo] at hu
  unfold floorMag
  refine (Nat.mul_le_mul_right den hu).trans ?_
  rw [Nat.mul_assoc, Nat.mul_comm _ den]
  exact hle

theorem clamp_cases (r : Nat × Nat) (n : Nat) : r.1 ≤ clamp r n ∧ (clamp r n = r.1 ∨ clamp r n ≤ r.2) := by
  unfold clamp
  split
  · exact ⟨le_rfl, .inl rfl⟩
  · exact ⟨Nat.le_max_left _ _, by omega⟩

/-- What `POW10` may return for a power between `below / den` and `above / den` units, neither too large nor too small:
a finite number within a last place. -/
theorem pow10Range_between {below above den : Nat} (hden : 0 < den) (hba : below ≤ above)
    (hhi : below ≤ (2 ^ 24 - 1) * 2 ^ 253 * den) (hlo : 2 ^ 23 * den ≤ above) (n : Nat) :
    clamp (pow10Range below above den) n < infBits ∧
      below ≤ unitsOf (clamp (pow10Range below above den) n) * den + den * 2 ^ lastPlace above den ∧
      unitsOf (clamp (pow10Range below above den) n) * den ≤ above + den * 2 ^ lastPlace above den := by
  have hb : pow10Range below above den =
      (ceilMag (below - 2 ^ lastPlace above den * den) den,
        min (infBits - 1) (floorMag (above + 2 ^ lastPlace above den * den) den)) := by
    rw [pow10Range, if_neg (by omega), if_neg (by omega)]
  have hm := lastPlace_mono (den := den) ((Nat.sub_le below (2 ^ lastPlace above den * den)).trans hba)
  have hD : 2 ^ lastPlace above den * den = den * 2 ^ lastPlace above den := Nat.mul_comm _ _
  rw [hD] at hb hm
  generalize hk : lastPlace above den = k at *
  obtain ⟨top, htop⟩ : ∃ top : Nat, 2 ^ 277 = top := ⟨_, rfl⟩
  have hbt : below + den ≤ top * den := by
    rw [← htop]
    omega
  have hle : den * 2 ^ lastPlace (below - den * 2 ^ k) den ≤ den * 2 ^ k :=
    Nat.mul_le_mul_left _ (Nat.pow_le_pow_right (by decide) hm)
  have hceil : below - den * 2 ^ k ≤ unitsOf (ceilMag (below - den * 2 ^ k) den) * den ∧
      unitsOf (ceilMag (below - den * 2 ^ k) den) * den ≤ below := by
    by_cases hc : den * 2 ^ k ≤ below
    · have h := ceilMag_spec (below - den * 2 ^ k) den htop hden (by omega)
      exact ⟨h.1, by omega⟩
    · have h0 : below - den * 2 ^ k = 0 := by omega
      have h := ceilMag_spec 0 den htop hden (by
        rw [show lastPlace 0 den = 0 by rw [lastPlace, Nat.zero_div]; rfl]
        omega)
      rw [show lastPlace 0 den = 0 by rw [lastPlace, Nat.zero_div]; rfl, pow_zero, Nat.zero_add, Nat.mul_one] at h
      have hz : unitsOf (ceilMag 0 den) < 1 := lt_of_mul_lt hden (by omega)
      rw [h0, show unitsOf (ceilMag 0 den) = 0 by omega]
      omega
  have hfin : ceilMag (below - den * 2 ^ k) den < infBits := by
    apply lt_infBits_of_unitsOf
    rw [htop]
    exact lt_of_mul_lt hden (by omega)
  obtain ⟨hc1, hc2⟩ := clamp_cases (pow10Range below above den) n
  generalize clamp (pow10Range below above den) n = b at *
  rw [hb] at hc1 hc2
  dsimp only at hc1 hc2
  have hu := Nat.mul_le_mul_right den (unitsOf_mono hc1)
  refine ⟨?_, by omega, ?_⟩
  · obtain h | h := hc2
    · rw [h]; exact hfin
    · exact (h.trans (Nat.min_le_left _ _)).trans_lt (Nat.sub_lt (by decide) Nat.one_pos)
  · obtain h | h := hc2
    · rw [h]
      exact hceil.2.trans (by omega)
    · have h1 := Nat.mul_le_mul_right den (unitsOf_mono (h.trans (Nat.min_le_right _ _)))
      exact h1.trans (floorMag_spec _ _ hden)

theorem rpow_nat_add (n : Nat) (y : ℝ) : (10 : ℝ) ^ ((n : ℝ) + y) = 10 ^ n * (10 : ℝ) ^ y := by
  rw [Real.rpow_add (by norm_num), Real.rpow_natCast]

theorem rpow_neg_nat_add (n : Nat) (y : ℝ) : (10 : ℝ) ^ (-(n : ℝ) + y) = (10 : ℝ) ^ y / 10 ^ n := by
  rw [Real.rpow_add (by norm_num), Real.rpow_neg (by norm_num), Real.rpow_natCast]
  ring

/-- The enclosure of the power that `POW10`'s bounds are computed from. -/
theorem pow10Bounds_enclosed (neg : Bool) (m : Nat) (h0 : m ≠ 0) (h64 : m < 64 * 2 ^ 149) (P : ℝ)
    (hP : P = 2 ^ 149 * (10 : ℝ) ^ ((signedUnits neg m : ℝ) / 2 ^ 149)) :
    ∃ below above den : Nat, 0 < den ∧ pow10Bounds neg m = pow10Range below above den ∧
      (P * den * (1 - 1 / 2 ^ 110) ≤ below ∧ (below : ℝ) ≤ P * den) ∧
      P * den ≤ above ∧ (above : ℝ) ≤ P * den * (1 + 1 / 2 ^ 110) := by
  have hO : 0 < fixOne := by norm_num [fixOne]
  have hO' : (fixOne : ℝ) ≠ 0 := by exact_mod_cast hO.ne'
  cases neg
  · obtain ⟨n, hn⟩ : ∃ n, m / 2 ^ 149 = n := ⟨_, rfl⟩
    obtain ⟨a, ha⟩ : ∃ a, m % 2 ^ 149 = a := ⟨_, rfl⟩
    have hm := Nat.div_add_mod' m (2 ^ 149)
    have hlt : a < 2 ^ 149 := by omega
    rw [hn, ha] at hm
    obtain ⟨⟨h1, h2⟩, h3, h4⟩ := tenToFraction_enclosed hlt
    have hr : (n : ℝ) * 2 ^ 149 + a = m := by exact_mod_cast hm
    have hs : (signedUnits false m : ℝ) / 2 ^ 149 = n + a / 2 ^ 149 := by
      rw [show (signedUnits false m : ℝ) = m by simp [signedUnits], ← hr]
      field_simp
    rw [hs, rpow_nat_add] at hP
    refine ⟨10 ^ n * tenToFractionBelow a * 2 ^ 149, 10 ^ n * tenToFractionAbove a * 2 ^ 149, fixOne, hO, ?_, ?_⟩
    · rw [pow10Bounds, if_neg h0, if_neg (by omega), if_neg (by decide), pow10RangePos, hn, ha]
    · simp only [Nat.cast_mul, Nat.cast_pow, Nat.cast_ofNat]
      rw [hP]
      generalize (10 : ℝ) ^ ((a : ℝ) / 2 ^ 149) = T at *
      have hN : (0 : ℝ) ≤ 10 ^ n * 2 ^ 149 := by positivity
      generalize (10 : ℝ) ^ n = N at *
      have g1 := mul_le_mul_of_nonneg_left h1 hN
      have g2 := mul_le_mul_of_nonneg_left h2 hN
      have g3 := mul_le_mul_of_nonneg_left h3 hN
      have g4 := mul_le_mul_of_nonneg_left h4 hN
      refine ⟨⟨?_, ?_⟩, ?_, ?_⟩ <;> linarith
  · obtain ⟨n, hn⟩ : ∃ n, (m + 2 ^ 149 - 1) / 2 ^ 149 = n := ⟨_, rfl⟩
    obtain ⟨a, ha⟩ : ∃ a, n * 2 ^ 149 - m = a := ⟨_, rfl⟩
    have hm : n * 2 ^ 149 = m + a := by omega
    have hlt : a < 2 ^ 149 := by omega
    obtain ⟨⟨h1, h2⟩, h3, h4⟩ := tenToFraction_enclosed hlt
    have hr : (n : ℝ) * 2 ^ 149 = m + a := by exact_mod_cast hm
    have hs : (signedUnits true m : ℝ) / 2 ^ 149 = -(n : ℝ) + a / 2 ^ 149 := by
      rw [show (signedUnits true m : ℝ) = -(m : ℝ) by simp [signedUnits], show (m : ℝ) = n * 2 ^ 149 - a by linarith]
      field_simp
      ring
    rw [hs, rpow_neg_nat_add] at hP
    refine ⟨tenToFractionBelow a * 2 ^ 149, tenToFractionAbove a * 2 ^ 149, fixOne * 10 ^ n, Nat.mul_pos hO (by positivity), ?_, ?_⟩
    · rw [pow10Bounds, if_neg h0, if_neg (by omega), if_pos rfl, pow10RangeNeg, hn, ha]
    · simp only [Nat.cast_mul, Nat.cast_pow, Nat.cast_ofNat]
      generalize (10 : ℝ) ^ ((a : ℝ) / 2 ^ 149) = T at *
      have hN : (10 : ℝ) ^ n ≠ 0 := by positivity
      have e : P * (fixOne * 10 ^ n) = fixOne * T * 2 ^ 149 := by
        rw [hP]
        field_simp
      rw [e]
      refine ⟨⟨?_, ?_⟩, ?_, ?_⟩ <;> linarith

end Sys2Proof.Machine
end

