-- ==== Sys2Proof/Laws/Quantizer.lean ====
section
/-! SUPPORT. The loop over the pairs of a block, as a recursion over the list of pairs, and what one component of each mode
does to each field. -/

namespace Sys2Proof.Machine

/-- The pair loop as a recursion over the pairs. -/
def pairFold (component : Channel → F32 → State → State) : List Pair → State → State
  | [], s => s
  | p :: ps, s => pairFold component ps ((component .q p.q (component .i p.i s)).setIdx (s.idx + 1))

/-- A component neither changes the block nor the sample index. -/
structure KeepsBlock (component : Channel → F32 → State → State) : Prop where
  sample : ∀ c x s, (component c x s).sample = s.sample
  idx : ∀ c x s, (component c x s).idx = s.idx

theorem overPairs_eq_pairFold {component : Channel → F32 → State → State} (h : KeepsBlock component) :
    ∀ (n : Nat) (s : State), s.idx + n = s.sample.length →
      overPairs component n s = pairFold component (s.sample.drop s.idx) s
  | 0, s, hn => by
    rw [List.drop_eq_nil_of_le (by omega)]
    rfl
  | n + 1, s, hn => by
    have hlt : s.idx < s.sample.length := by omega
    rw [overPairs, List.getElem?_eq_getElem hlt, List.drop_eq_getElem_cons hlt]
    simp only [pairFold]
    rw [overPairs_eq_pairFold h n _ (by simp [h.sample]; omega)]
    simp [h.sample]

/-- A mode is a fold over the pairs of the block. -/
theorem quantizeBlock_eq {component : Channel → F32 → State → State} (h : KeepsBlock component) (s : State) :
    quantizeBlock component s = (pairFold component s.sample (s.clearWire.setIdx 0)).setIdx 0 := by
  rw [quantizeBlock, overPairs_eq_pairFold h _ _ (by simp)]
  simp

/-- What every component keeps, the fold keeps. -/
theorem pairFold_induction {component : Channel → F32 → State → State} {P : State → Prop}
    (hstep : ∀ c x s, P s → P (component c x s)) (hidx : ∀ n s, P s → P (s.setIdx n)) :
    ∀ (ps : List Pair) (s : State), P s → P (pairFold component ps s)
  | [], _, hs => hs
  | _ :: ps, _, hs =>
    pairFold_induction hstep hidx ps _ (hidx _ _ (hstep _ _ _ (hstep _ _ _ hs)))

variable (s : State) (c : Channel) (x y : F32)

/-! ### The 8-bit mode -/

/-- All that `emit8` does: one byte, and the counter of free values where `y` is not finite. -/
theorem emit8_eq :
    emit8 y s =
      { s with
        wire :=
          s.wire ++ [if finite32 y then narrow8 (roundHalfAway y) else Config.freeAny8 s.freeUsed]
        freeUsed := if finite32 y then s.freeUsed else s.freeUsed + 1 } := by
  unfold emit8
  cases h : finite32 y <;> simp [State.emit, State.useFree]

/-- All that `carryDraw` does. -/
theorem carryDraw_eq :
    carryDraw c y s =
      { s with
        ds := (s.setCarry c s.nextDraw).ds
        dbg := (s.setErrAcc c (fadd32 (s.errAcc c) (fsub32 y (roundHalfAway y)))).dbg
        rnd := s.rnd.tail
        drawn := s.drawn + 1 } := by cases c <;> rfl

/-- All that one component of the 8-bit mode does. -/
theorem quant8Component_eq (g8 : F32) :
    quant8Component g8 c x s =
      { s with
        ds := (s.setCarry c s.nextDraw).ds
        dbg :=
          (s.setErrAcc c
            (fadd32 (s.errAcc c)
              (fsub32 (dithered g8 x s.nextDraw (s.carry c))
                (roundHalfAway (dithered g8 x s.nextDraw (s.carry c)))))).dbg
        rnd := s.rnd.tail
        drawn := s.drawn + 1
        wire :=
          s.wire ++
            [if finite32 (dithered g8 x s.nextDraw (s.carry c)) then
                narrow8 (roundHalfAway (dithered g8 x s.nextDraw (s.carry c)))
              else Config.freeAny8 s.freeUsed]
        freeUsed :=
          if finite32 (dithered g8 x s.nextDraw (s.carry c)) then s.freeUsed else s.freeUsed + 1 } := by
  rw [quant8Component, emit8_eq, carryDraw_eq]

theorem keepsBlock_quant8 (g8 : F32) : KeepsBlock (quant8Component g8) :=
  ⟨fun c x s => by rw [quant8Component_eq], fun c x s => by rw [quant8Component_eq]⟩

/-! ### The 16-bit mode -/

/-- All that `emit16` does: two bytes, and the counter of free values where `y` is not finite. -/
theorem emit16_eq :
    emit16 y s =
      { s with
        wire :=
          s.wire ++ le16 (if finite32 y then narrow16 (roundHalfAway y) else Config.freeAny16 s.freeUsed)
        freeUsed := if finite32 y then s.freeUsed else s.freeUsed + 1 } := by
  unfold emit16
  cases h : finite32 y <;> simp [State.emit, State.useFree]

theorem keepsBlock_quant16 (g16 : F32) : KeepsBlock (quant16Component g16) :=
  ⟨fun c x s => by rw [quant16Component, emit16_eq], fun c x s => by rw [quant16Component, emit16_eq]⟩

/-! ### The 32-bit mode -/

theorem pass32Component_eq : pass32Component c x s = { s with wire := s.wire ++ le32 x } := rfl

theorem keepsBlock_pass32 : KeepsBlock pass32Component := ⟨fun _ _ _ => rfl, fun _ _ _ => rfl⟩

/-! ### What a whole mode keeps -/

/-- `t` is `s` but for the index, the bytes and the counter of free values. -/
def OnlyEmits (s t : State) : Prop := t = { s with idx := t.idx, wire := t.wire, freeUsed := t.freeUsed }

/-- `t` is `s` but for those, DitherState, the accumulators and the random port. -/
def OnlyQuantizes (s t : State) : Prop :=
  t =
    { s with
      idx := t.idx
      wire := t.wire
      ds := t.ds
      dbg := t.dbg
      rnd := t.rnd
      drawn := t.drawn
      freeUsed := t.freeUsed }

theorem execQuant8_frame {s t : State} (h : execQuant8 s = .next t) : OnlyQuantizes s t ∧ t.idx = 0 := by
  cases h
  have hfold := pairFold_induction (component := quant8Component (fmul32 f32Quarter s.ts.gainLinear))
    (P := OnlyQuantizes s) (fun c x u hu => by rw [quant8Component_eq]; unfold OnlyQuantizes at *; rw [hu])
    (fun n u hu => by unfold OnlyQuantizes at *; rw [hu]; rfl) s.sample (s.clearWire.setIdx 0) rfl
  rw [quantizeBlock_eq (keepsBlock_quant8 _)]
  unfold OnlyQuantizes at *
  rw [hfold]
  exact ⟨rfl, rfl⟩

theorem execQuant16_frame {s t : State} (h : execQuant16 s = .next t) : OnlyEmits s t ∧ t.idx = 0 := by
  cases h
  have hfold := pairFold_induction (component := quant16Component (fmul32 f32Four s.ts.gainLinear))
    (P := OnlyEmits s) (fun c x u hu => by rw [quant16Component, emit16_eq]; unfold OnlyEmits at *; rw [hu])
    (fun n u hu => by unfold OnlyEmits at *; rw [hu]; rfl) s.sample (s.clearWire.setIdx 0) rfl
  rw [quantizeBlock_eq (keepsBlock_quant16 _)]
  unfold OnlyEmits at *
  rw [hfold]
  exact ⟨rfl, rfl⟩

theorem execPass32_frame {s t : State} (h : execPass32 s = .next t) : OnlyEmits s t ∧ t.idx = 0 := by
  cases h
  have hfold := pairFold_induction (component := pass32Component) (P := OnlyEmits s)
    (fun c x u hu => by rw [pass32Component_eq]; unfold OnlyEmits at *; rw [hu])
    (fun n u hu => by unfold OnlyEmits at *; rw [hu]; rfl) s.sample (s.clearWire.setIdx 0) rfl
  rw [quantizeBlock_eq keepsBlock_pass32]
  unfold OnlyEmits at *
  rw [hfold]
  exact ⟨rfl, rfl⟩

end Sys2Proof.Machine
end

