-- ==== Sys2Proof/Laws/Requests.lean ====
section
/-! SUPPORT. The frame loop and the requests: how they end. -/

namespace Sys2Proof.Machine

variable (s : State)

/-- A halted block runs no frame. -/
theorem frameLoop_halted (n : Nat) (h : s.phase = .halted) : frameLoop n s = .next s := by
  cases n <;> simp [frameLoop, h]

/-- One turn of the frame loop. -/
theorem frameLoop_succ (n : Nat) {i : Instr} {rest : List Byte} {t : State} (hp : s.phase ≠ .halted)
    (hf : fetchFrame s = .ok i rest) (he : exec i s = .next t) :
    frameLoop (n + 1) s = frameLoop n (t.setPos (t.pos + 5)) := by
  simp only [frameLoop, if_neg hp, hf, he]

/-- The frame loop always ends in a next state. -/
theorem frameLoop_next : ∀ (n : Nat) (s : State), ∃ t, frameLoop n s = .next t
  | 0, s => ⟨s, rfl⟩
  | n + 1, s => by
    unfold frameLoop
    split
    · exact ⟨_, rfl⟩
    · split
      · exact ⟨_, rfl⟩
      · obtain ⟨t, ht⟩ := exec_next s ‹_›
        rw [ht]
        exact frameLoop_next n _

/-- What the decoder accepts in the `CMD` space is a command. -/
theorem decode_cmd_format {bs : List Byte} {i : Instr} {rest : List Byte} (h : decode .cmd bs = .ok i rest) :
    i.format = .cmd := by
  match bs, h with
  | b0 :: b1 :: b2 :: b3 :: b4 :: tl, h =>
    simp only [decode, Decoded.ok.injEq] at h
    rw [← h.1]
    unfold selectCommand
    split_ifs <;> rfl
  | [], h => simp [decode] at h
  | [_], h => simp [decode] at h
  | [_, _], h => simp [decode] at h
  | [_, _, _], h => simp [decode] at h
  | [_, _, _, _], h => simp [decode] at h

/-- What every command keeps and moving the cursor keeps, the frame loop keeps. -/
theorem frameLoop_induction {P : State → Prop}
    (hexec : ∀ i s t, i.format = .cmd → exec i s = .next t → P s → P t) (hpos : ∀ n s, P s → P (s.setPos n)) :
    ∀ (n : Nat) (s t : State), frameLoop n s = .next t → P s → P t
  | 0, s, t, h, hs => by cases h; exact hs
  | n + 1, s, t, h, hs => by
    unfold frameLoop at h
    split at h
    · cases h; exact hs
    · split at h
      · cases h; exact hs
      · rename_i i rest hf
        obtain ⟨u, hu⟩ := exec_next s i
        rw [hu] at h
        exact frameLoop_induction hexec hpos n _ t h (hpos _ _ (hexec i s u (decode_cmd_format hf) hu hs))

/-! ### A step that serves one request -/

theorem step_cons {r : Request} {rest : List Request} (h : s.requests = r :: rest) :
    step s = serve r (s.takeRequest rest) := by
  unfold step
  rw [h]

/-- A DECODE request in a session, within the bound of R8, runs. -/
theorem step_decode {read : SocketRead} {sendFailed : Bool} {rest : List Request} (hp : s.phase = .active)
    (hl : (readBytes read).length ≤ s.cfg.cmdBufMax) (h : s.requests = .decode read sendFailed :: rest) :
    step s = decodeRequest read sendFailed (s.takeRequest rest) := by
  have hq : (s.takeRequest rest).phase = .active := hp
  have hm : (readBytes read).length ≤ (s.takeRequest rest).cfg.cmdBufMax := hl
  rw [step_cons s h]
  unfold serve
  rw [hq]
  simp only [phaseAdmits, if_true, if_pos hm]

/-- A QUANTIZE request in a session, within the bound of R7, runs the selected mode. -/
theorem step_quantize {block : List Pair} {rest : List Request} {i : Instr} {left : List Byte} (hp : s.phase = .active)
    (hl : block.length ≤ s.cfg.maxBlockPairs) (hf : fetchMode s = .ok i left)
    (h : s.requests = .quantize block :: rest) :
    step s = thenNext (exec i ((s.takeRequest rest).loadSample block)) (State.loadSample []) := by
  have hq : (s.takeRequest rest).phase = .active := hp
  have hm : block.length ≤ (s.takeRequest rest).cfg.maxBlockPairs := hl
  have hg : fetchMode (s.takeRequest rest) = .ok i left := hf
  rw [step_cons s h]
  unfold serve
  rw [hq]
  simp only [phaseAdmits, if_true, if_pos hm, quantizeRequest, hg]

/-- All that a step that serves a request can do. -/
theorem step_cases {t : State} {r : Request} {rest : List Request} (h : s.requests = r :: rest)
    (hs : step s = .next t) :
    (r = .por ∧ configLegal s.cfg = true ∧ t = powerOnReset (s.takeRequest rest)) ∨
      (r = .sessionStart ∧ s.phase = .idle ∧ t = sessionStart (s.takeRequest rest)) ∨
      (r = .sessionEnd ∧ s.phase = .active ∧ t = sessionEnd (s.takeRequest rest)) ∨
      (∃ read sendFailed, r = .decode read sendFailed ∧ s.phase = .active ∧
        (readBytes read).length ≤ s.cfg.cmdBufMax ∧
        (disconnectCondition read sendFailed = true ∧ t = raiseDisconnect (s.takeRequest rest) ∨
          disconnectCondition read sendFailed = false ∧
            ∃ u, frameLoop ((readBytes read).length / 5) ((s.takeRequest rest).loadCmd (readBytes read)) = .next u ∧
              t = finishDecode u)) ∨
      ∃ block i u, r = .quantize block ∧ s.phase = .active ∧ block.length ≤ s.cfg.maxBlockPairs ∧
        fetchMode s = .ok i [] ∧ exec i ((s.takeRequest rest).loadSample block) = .next u ∧ t = u.loadSample [] := by
  rw [step_cons s h] at hs
  unfold serve at hs
  split at hs
  · rename_i hadmit
    have hadmit' : phaseAdmits s.phase r = true := hadmit
    cases r with
    | por =>
      simp only at hs
      split at hs
      · cases hs
        exact .inl ⟨rfl, ‹_›, rfl⟩
      · cases hs
    | sessionStart =>
      cases hs
      refine .inr (.inl ⟨rfl, ?_, rfl⟩)
      cases hp : s.phase <;> rw [hp] at hadmit' <;> first | rfl | cases hadmit'
    | sessionEnd =>
      cases hs
      refine .inr (.inr (.inl ⟨rfl, ?_, rfl⟩))
      cases hp : s.phase <;> rw [hp] at hadmit' <;> first | rfl | cases hadmit'
    | decode read sendFailed =>
      have hp : s.phase = .active := by
        cases hp : s.phase <;> rw [hp] at hadmit' <;> first | rfl | cases hadmit'
      simp only at hs
      split at hs
      · refine .inr (.inr (.inr (.inl ⟨read, sendFailed, rfl, hp, ‹_›, ?_⟩)))
        unfold decodeRequest at hs
        split at hs
        · cases hs
          exact .inl ⟨‹_›, rfl⟩
        · rename_i hd
          obtain ⟨u, hu⟩ := frameLoop_next ((readBytes read).length / 5) ((s.takeRequest rest).loadCmd (readBytes read))
          rw [hu] at hs
          cases hs
          exact .inr ⟨Bool.eq_false_iff.mpr hd, u, hu, rfl⟩
      · cases hs
    | quantize block =>
      have hp : s.phase = .active := by
        cases hp : s.phase <;> rw [hp] at hadmit' <;> first | rfl | cases hadmit'
      simp only at hs
      split at hs
      · have hmode : ∃ i, fetchMode s = .ok i [] := by
          unfold fetchMode
          cases s.ts.bitDepth <;> exact ⟨_, rfl⟩
        obtain ⟨i, hi⟩ := hmode
        obtain ⟨u, hu⟩ := exec_next ((s.takeRequest rest).loadSample block) i
        have hi' : fetchMode (s.takeRequest rest) = .ok i [] := hi
        rw [quantizeRequest, hi'] at hs
        simp only at hs
        rw [thenNext_exec _ _ _ hu] at hs
        cases hs
        exact .inr (.inr (.inr (.inr ⟨block, i, u, rfl, hp, ‹_›, hi, hu, rfl⟩)))
      · cases hs
  · cases hs

/-- All that the frame loop can change, and how it ends. -/
theorem frameLoop_frame {n : Nat} {s t : State} (h : frameLoop n s = .next t) :
    t =
      { s with
        ts := { t.ts with bitDepth := s.ts.bitDepth }
        phase := t.phase
        action := t.action
        pos := t.pos
        srcReplies := t.srcReplies
        srcCalls := t.srcCalls } ∧
      (t.phase = s.phase ∧ t.action = s.action ∨ t.phase = .halted ∧ (s.phase = .halted ∨ t.action = some .fatal)) := by
  refine frameLoop_induction
    (P := fun u => u =
      { s with
        ts := { u.ts with bitDepth := s.ts.bitDepth }
        phase := u.phase
        action := u.action
        pos := u.pos
        srcReplies := u.srcReplies
        srcCalls := u.srcCalls } ∧
      (u.phase = s.phase ∧ u.action = s.action ∨ u.phase = .halted ∧ (s.phase = .halted ∨ u.action = some .fatal)))
    (fun i u v hi he hu => ?_) (fun k u hu => ?_) n s t h ⟨rfl, .inl ⟨rfl, rfl⟩⟩
  · obtain ⟨hv, hend⟩ := exec_command_frame u hi he
    obtain ⟨hu1, hu2⟩ := hu
    refine ⟨?_, ?_⟩
    · rw [hv, hu1]
    · obtain ⟨hp, ha⟩ | ⟨hp, ha, -, -⟩ := hend
      · rw [hp, ha]
        exact hu2
      · exact .inr ⟨hp, .inr ha⟩
  · obtain ⟨hu1, hu2⟩ := hu
    exact ⟨by rw [hu1]; rfl, hu2⟩

/-- A step takes exactly the request it serves. -/
theorem step_requests {s t : State} {r : Request} {rest : List Request} (h : s.requests = r :: rest)
    (hs : step s = .next t) : t.requests = rest := by
  obtain ⟨-, -, rfl⟩ | ⟨-, -, rfl⟩ | ⟨-, -, rfl⟩ | ⟨read, f, -, -, -, hd⟩ | ⟨block, i, u, -, -, -, hf, hu, rfl⟩ :=
    step_cases s h hs
  · rfl
  · rfl
  · rfl
  · obtain ⟨-, rfl⟩ | ⟨-, u, hu, rfl⟩ := hd
    · rfl
    · have hk := (frameLoop_frame hu).1
      unfold finishDecode
      split <;> (rw [hk]; rfl)
  · have hmode : i = .quant8 ∨ i = .quant16 ∨ i = .pass32 := by
      unfold fetchMode at hf
      cases hd : s.ts.bitDepth <;> rw [hd] at hf <;> cases hf <;> simp
    obtain rfl | rfl | rfl := hmode
    · have hk := (execQuant8_frame hu).1
      unfold OnlyQuantizes at hk
      rw [hk]
      rfl
    · have hk := (execQuant16_frame hu).1
      unfold OnlyEmits at hk
      rw [hk]
      rfl
    · have hk := (execPass32_frame hu).1
      unfold OnlyEmits at hk
      rw [hk]
      rfl

end Sys2Proof.Machine
end

