-- ==== Sys2Proof/Tests/Slice0.lean ====
section
/-! SUPPORT. Tests. Every expected value comes from the spec: its encoding tables (`30_encoding.md` R80 to R91) and its
test vectors (`95_test_vectors.md`), decimal numbers written there turned into their IEEE patterns. -/

-- One theorem at a time: kernel evaluations that all wait at once would take a thread and its stack each.
set_option Elab.async false

namespace Sys2Proof.Tests

open Sys2Proof.Machine

/-! ## WellFormed: the check and a term it refuses -/

theorem test_wellFormed_nophi_low_opcode : (Instr.nophi 0x04#8 0#32).wellFormed = false := by decide
theorem test_wellFormed_nophi : (Instr.nophi 0x05#8 0#32).wellFormed = true := by decide

/-! ## Decoding: words written out from the frame format (R80, R89, section 2.1 of the vectors) -/

/-- `SETFREQ 100000000` is `01 05 F5 E1 00`. -/
theorem test_decode_setfreq :
    decode .cmd [0x01#8, 0x05#8, 0xF5#8, 0xE1#8, 0x00#8] = .ok (.setfreq 100000000#32) [] := by decide

/-- `SETRATE 2400000` is `02 00 24 9F 00`; one byte of the next frame follows. -/
theorem test_decode_setrate :
    decode .cmd [0x02#8, 0x00#8, 0x24#8, 0x9F#8, 0x00#8, 0x01#8] = .ok (.setrate 2400000#32) [0x01#8] := by decide

/-- `INFO3 1` is `03 00 00 00 01`. -/
theorem test_decode_info3 : decode .cmd [0x03#8, 0#8, 0#8, 0#8, 0x01#8] = .ok (.info3 1#32) [] := by decide

/-- `SETGAIN 200` is `04 00 00 00 C8`. -/
theorem test_decode_setgain : decode .cmd [0x04#8, 0#8, 0#8, 0#8, 0xC8#8] = .ok (.setgain 200#32) [] := by decide

/-- `FRAME 0x00, 0xC8020024` is NOP0 with payload 3355574308. -/
theorem test_decode_nop0 :
    decode .cmd [0x00#8, 0xC8#8, 0x02#8, 0x00#8, 0x24#8] = .ok (.nop0 3355574308#32) [] := by decide

/-- `FRAME 0xFF, 0x01020304`. -/
theorem test_decode_nophi :
    decode .cmd [0xFF#8, 0x01#8, 0x02#8, 0x03#8, 0x04#8] = .ok (.nophi 0xFF#8 16909060#32) [] := by decide

/-- The three mode bytes (R91), and a byte that is none of them. -/
theorem test_decode_modes :
    decode .mode [0x08#8] = .ok .quant8 [] ∧ decode .mode [0x10#8] = .ok .quant16 [] ∧
      decode .mode [0x20#8] = .ok .pass32 [] ∧ decode .mode [0x18#8] = .rejected .noSuchMode := by decide

/-- Four bytes are not a frame (R86). -/
theorem test_decode_partial : decode .cmd [0x01#8, 0x05#8, 0xF5#8, 0xE1#8] = .rejected .partialFrame := by decide

/-- The table's rows SETGAIN (match 0x0400000000), NOPHI (0x8000000000) and QUANT16 (0x10). -/
theorem test_decodeTableWord :
    decodeTableWord 40 0x0400000000 = some (.setgain 0#32) ∧
      decodeTableWord 40 0x8000000000 = some (.nophi 0x80#8 0#32) ∧ decodeTableWord 8 0x10 = some .quant16 := by
  decide

/-! ## A small machine -/

def demoConfig : Config where
  gainScale := 0x41000000#32 -- 8.0
  maxBlockPairs := 16384
  cmdBufMax := 64
  bitDepth := .d8
  initSampleRate := 0x41424F8000000000#64 -- 2400000.0
  initCenterFreq := 0x4197D78400000000#64 -- 100000000.0
  initGainLinear := 0x40800000#32 -- 4.0

/-- A session of program P1 (`95_test_vectors.md` section 3) in the given mode, carries 0.5 and 0.25, with these draws and
replies to come and these requests pending. -/
def demo (depth : BitDepth) (gain : F32) (draws : List UnitDraw) (replies : List SrcStatus)
    (requests : List Request) : State :=
  { State.reset with
    cfg := demoConfig
    ts :=
      { sampleRate := 0x41424F8000000000#64, centerFrequency := 0x4197D78400000000#64, gainLinear := gain,
        bitDepth := depth }
    ds := { carryI := 0x3F000000#32, carryQ := 0x3E800000#32 }
    phase := .active
    rnd := draws
    srcReplies := replies
    requests := requests }

/-- The next state, where there is one. -/
def nextOf (o : Host.Outcome State Fault Refusal) : Option State :=
  match o with
  | .next s => some s
  | .fault _ => none
  | .refused _ => none

/-- The refusal, where there is one. -/
def refusalOf (o : Host.Outcome State Fault Refusal) : Option Refusal :=
  match o with
  | .next _ => none
  | .fault _ => none
  | .refused r => some r

/-! ## Arithmetic -/

/-- Section 2.3, row 0: `0/10 - 12 = -12`, over 10 about -1.2 (the binary32 -1.2000000476837158). -/
theorem test_gainExponent_zero : gainExponent 0#32 = 0xBF99999A#32 := by decide +kernel

/-- Section 2.3, row 496: `dB`, `adj` and `e` are each rounded. -/
theorem test_gainExponent_496 :
    fdiv32 (u32ToF32 496#32) f32Ten = 0x42466666#32 ∧ gainExponent 496#32 = 0x4070A3D6#32 := by decide +kernel

/-- Section 2.3, last row: the 12 is lost in rounding and `e = 42949672.0`. -/
theorem test_gainExponent_max : gainExponent 0xFFFFFFFF#32 = 0x4C23D70A#32 := by decide +kernel

/-- Example S5: `10^0.8` is about 6.3095737 and a unit in the last place there is about 4.8e-7. -/
theorem test_pow10_range : pow10Bounds false (unitsOf 0x3F4CCCCD) = (0x40C9E806, 0x40C9E807) := by decide +kernel

/-- Section 2.3: the power of 3973 is finite, that of 3974 is not. -/
theorem test_pow10_overflow :
    (pow10Bounds false (unitsOf (gainExponent 3973#32).toNat)).2 < infBits ∧
      pow10 (gainExponent 3974#32) = 0x7F800000#32 := by decide +kernel

/-- Section 2.4: 2.5 × 0.30000001192 rounds to 0.75, and the sum 126.5 + (1 - 2^-24) rounds up to 127.5. -/
theorem test_float_rounds :
    fmul32 0x40200000#32 0x3E99999A#32 = 0x3F400000#32 ∧ fadd32 0x42FD0000#32 0x3F7FFFFF#32 = 0x42FF0000#32 := by
  decide +kernel

/-- R14: 0.5 gives 1.0, -2.5 gives -3.0, -0.25 gives -0.0. -/
theorem test_roundHalfAway :
    roundHalfAway 0x3F000000#32 = 0x3F800000#32 ∧ roundHalfAway 0xC0200000#32 = 0xC0400000#32 ∧
      roundHalfAway 0xBE800000#32 = 0x80000000#32 := by decide +kernel

/-- Section 2.4: 300 gives `AC`, -300 gives `54`, -129 gives `FF`, 1e10 gives `80`. -/
theorem test_narrow8 :
    narrow8 0x43960000#32 = 0xAC#8 ∧ narrow8 0xC3960000#32 = 0x54#8 ∧ narrow8 0xC3010000#32 = 0xFF#8 ∧
      narrow8 0x501502F9#32 = 0x80#8 := by decide +kernel

/-- Example S4 after its resolution (R59, R60). -/
theorem test_wireHeader :
    wireHeader .d8 = [0x4C#8, 0x4D#8, 0x4D#8, 0x30#8, 0#8, 0#8, 0#8, 0x08#8, 0#8, 0#8, 0#8, 0x01#8] ∧
      (wireHeader .d16).length = 16 ∧ (wireHeader .d16)[7]? = some 0x10#8 := by decide

/-! ## Instructions -/

/-- Section 2.2: the call `configureFrequency(100000000)`, then the write (R104). -/
theorem test_setfreq :
    ((nextOf (exec (.setfreq 100000000#32) (demo .d8 0x40800000#32 [] [.ok] []))).map fun t =>
      (t.srcCalls, t.ts.centerFrequency, t.phase)) =
    some ([{ op := .configureFrequency, arg := 0x4197D78400000000#64 }], 0x4197D78400000000#64, .active) := by
  decide +kernel

/-- Program P4: `configureFrequency(0)` returns `err`; nothing is written and the block is HALTED. -/
theorem test_setfreq_err :
    ((nextOf (exec (.setfreq 0#32) (demo .d8 0x40800000#32 [] [.err] []))).map fun t =>
      (t.ts.centerFrequency, t.phase, t.action)) =
    some (0x4197D78400000000#64, .halted, some .fatal) := by decide +kernel

/-- R105: payload 2000000 differs from the stored 2400000. -/
theorem test_setrate :
    ((nextOf (exec (.setrate 2000000#32) (demo .d8 0x40800000#32 [] [.ok] []))).map fun t =>
      (t.srcCalls, t.ts.sampleRate)) =
    some ([{ op := .configureSampleRate, arg := 0x413E848000000000#64 }], 0x413E848000000000#64) := by
  decide +kernel

/-- Example S3: payload 2400000 is the stored rate, so no call. -/
theorem test_setrate_same :
    (nextOf (exec (.setrate 2400000#32) (demo .d8 0x40800000#32 [] [.err] []))).map (·.srcCalls) = some [] := by
  decide +kernel

/-- Program P1, step 4: SETGAIN 120 gives the gain `GAIN_SCALE`. -/
theorem test_setgain :
    (nextOf (exec (.setgain 120#32) (demo .d8 0x40800000#32 [] [] []))).map (·.ts.gainLinear) =
      some 0x41000000#32 := by decide +kernel

/-- Program P5, step 2: SETGAIN is ignored in 32-bit mode. -/
theorem test_setgain_pass32 :
    (nextOf (exec (.setgain 200#32) (demo .d32 0x3F800000#32 [] [] []))).map (·.ts.gainLinear) =
      some 0x3F800000#32 := by decide +kernel

/-- Program P1, step 3: the block (1.0, -1.0), (0.0, 2.5), (100.25, -200.5) with draws 0.75, 0.25, 0.25, 0.5, 0.5, 0.125
gives `81 7F 7F 83 E5 B7`, carries (0.5, 0.125) and accumulators (0.25, -0.125). -/
theorem test_quant8 :
    ((nextOf
      (exec .quant8
        ((demo .d8 0x40800000#32 [0x3F400000, 0x3E800000, 0x3E800000, 0x3F000000, 0x3F000000, 0x3E000000] [] []).loadSample
          [⟨0x3F800000#32, 0xBF800000#32⟩, ⟨0x00000000#32, 0x40200000#32⟩, ⟨0x42C88000#32, 0xC3488000#32⟩]))).map
      fun t => (t.wire, t.ds, t.dbg, t.rnd)) =
    some ([0x81#8, 0x7F#8, 0x7F#8, 0x83#8, 0xE5#8, 0xB7#8], ⟨0x3F000000#32, 0x3E000000#32⟩,
      ⟨0x3E800000#32, 0xBE000000#32⟩, []) := by decide +kernel

/-- Section 2.4, row +Inf: the carry is the draw and one component is emitted although its byte is unspecified. -/
theorem test_quant8_infinite :
    ((nextOf
      (exec .quant8 ((demo .d8 0x40800000#32 [0x3F400000, 0x3F000000] [] []).loadSample
        [⟨0x7F800000#32, 0x3F800000#32⟩]))).map fun t => (t.wire.length, t.wire[1]?, t.ds.carryI, t.freeUsed)) =
    some (2, some 0x81#8, 0x3F400000#32, 1) := by decide +kernel

/-- Program P2, step 4: (1.0, -1.0), (0.125, 8192.0) gives `04 00 FC FF 01 00 00 80`; no draw. -/
theorem test_quant16 :
    ((nextOf
      (exec .quant16 ((demo .d16 0x3F800000#32 [0x3F400000] [] []).loadSample
        [⟨0x3F800000#32, 0xBF800000#32⟩, ⟨0x3E000000#32, 0x46000000#32⟩]))).map fun t => (t.wire, t.rnd)) =
    some ([0x04#8, 0x00#8, 0xFC#8, 0xFF#8, 0x01#8, 0x00#8, 0x00#8, 0x80#8], [0x3F400000]) := by decide +kernel

/-- Program P5, step 3: (1.0, -2.5), (NaN 7FC00001, -0.0) pass as they are. -/
theorem test_pass32 :
    ((nextOf
      (exec .pass32 ((demo .d32 0x3F800000#32 [] [] []).loadSample
        [⟨0x3F800000#32, 0xC0200000#32⟩, ⟨0x7FC00001#32, 0x80000000#32⟩]))).map fun t => t.wire) =
    some [0x00#8, 0x00#8, 0x80#8, 0x3F#8, 0x00#8, 0x00#8, 0x20#8, 0xC0#8, 0x01#8, 0x00#8, 0xC0#8, 0x7F#8, 0x00#8,
      0x00#8, 0x00#8, 0x80#8] := by decide +kernel

/-! ## Requests -/

/-- Program P2, step 3: of the 7 bytes `00 C8 02 00 24 9F 00` one frame is executed, NOP0, and two bytes are dropped. -/
theorem test_step_decode_tail :
    ((nextOf
      (step (demo .d16 0x3F800000#32 [] []
        [.decode (.data [0x00#8, 0xC8#8, 0x02#8, 0x00#8, 0x24#8, 0x9F#8, 0x00#8]) false]))).map fun t =>
      (t.action, t.cmd, t.pos, t.requests.length, t.srcCalls)) =
    some (some .continued, [], 0, 0, []) := by decide +kernel

/-- Section 2.2, last row: SETRATE 3000000 ok, SETFREQ 0 err, SETGAIN not executed. -/
theorem test_step_decode_fatal :
    ((nextOf
      (step (demo .d8 0x40800000#32 [] [.ok, .err]
        [.decode (.data [0x02#8, 0x00#8, 0x2D#8, 0xC6#8, 0xC0#8, 0x01#8, 0#8, 0#8, 0#8, 0#8, 0x04#8, 0#8, 0#8, 0#8,
          0xC8#8]) false]))).map fun t => (t.action, t.phase, t.ts.sampleRate, t.ts.gainLinear, t.srcCalls.length)) =
    some (some .fatal, .halted, 0x4146E36000000000#64, 0x40800000#32, 2) := by decide +kernel

/-- Section 2.2: a zero-length read and a set send-failed flag are both a Disconnect. -/
theorem test_step_disconnect :
    (nextOf (step (demo .d8 0x40800000#32 [] [] [.decode (.data []) false]))).map (·.action) = some (some .disconnect) ∧
      (nextOf (step (demo .d8 0x40800000#32 [] [.err] [.decode (.data [0x01#8, 0#8, 0#8, 0#8, 0#8]) true]))).map
        (·.action) = some (some .disconnect) := by decide +kernel

/-- Section 2.7: SESSION_START with draws 0.5, 0.25. -/
theorem test_step_sessionStart :
    ((nextOf
      (step { demo .d8 0x40800000#32 [0x3F000000, 0x3E800000] [] [.sessionStart] with phase := .idle })).map fun t =>
      (t.ds, t.dbg, t.phase, t.rnd)) =
    some (⟨0x3F000000#32, 0x3E800000#32⟩, ⟨0#32, 0#32⟩, .active, []) := by decide +kernel

/-- Section 2.7: SESSION_START in PHASE ACTIVE is refused. -/
theorem test_step_notAdmitted :
    refusalOf (step (demo .d8 0x40800000#32 [] [] [.sessionStart])) = some .notAdmitted := by decide +kernel

/-- Section 2.7: POR sets TuningState from the parameters, in any phase. -/
theorem test_step_por :
    ((nextOf (step { demo .d16 0x3F800000#32 [] [] [.por] with phase := .halted })).map fun t => (t.ts, t.phase)) =
    some (⟨0x41424F8000000000#64, 0x4197D78400000000#64, 0x40800000#32, .d8⟩, .idle) := by decide +kernel

/-- An opcode-table word runs as the first instruction after reset. -/
theorem test_withFetchWord :
    (nextOf (step (State.reset.withFetchWord 40 0x0300000000))).isSome = true ∧
      (nextOf (step (State.reset.withFetchWord 40 0x0100000000))).isSome = true ∧
      (nextOf (step (State.reset.withFetchWord 40 0x0200000000))).isSome = true ∧
      (nextOf (step (State.reset.withFetchWord 40 0x0400000000))).isSome = true ∧
      (nextOf (step (State.reset.withFetchWord 8 0x20))).isSome = true := by decide +kernel

/-! ## Witnesses: states and operands that meet the hypotheses of the statements, one theorem per statement and one
clause per clause -/

/-- The outcome is a next state. -/
def isNext (o : Host.Outcome State Fault Refusal) : Bool := (nextOf o).isSome

theorem exists_next {o : Host.Outcome State Fault Refusal} (h : isNext o = true) : ∃ t, o = .next t := by
  cases o with
  | next t => exact ⟨t, rfl⟩
  | fault r => cases h
  | refused r => cases h

/-- A session with nothing to come. -/
def plain : State := demo .d8 0x40800000#32 [] [] []

theorem demo_inv : Inv plain := ⟨by decide +kernel, by decide +kernel, by decide +kernel, by decide +kernel, by decide⟩

theorem witness_DecodeOfEncodeIsTheInstruction :
    (Instr.nophi 0x05#8 0xFFFFFFFF#32).wellFormed = true ∧ (Instr.setgain 0#32).wellFormed = true := by decide

theorem witness_EncodeOfDecodeIsTheBytes :
    decode .cmd [0x05#8, 0xFF#8, 0#8, 0#8, 0x01#8, 0x07#8] = .ok (.nophi 0x05#8 0xFF000001#32) [0x07#8] ∧
      decode .mode [0x20#8] = .ok .pass32 [] := by decide

theorem witness_FiveBytesAreAFrameAndFewerAreNone :
    5 ≤ [0#8, 0#8, 0#8, 0#8, 0#8].length ∧ [0#8, 0#8, 0#8, 0#8].length < 5 := by decide

theorem witness_SetfreqRetunesThenStores :
    (demo .d8 0#32 [] [.ok] []).nextReply = .ok ∧ (demo .d8 0#32 [] [.err] []).nextReply = .err := by decide

theorem witness_SetrateActsOnlyOnADifferentRate :
    differ64 (u32ToF64 2400000#32) plain.ts.sampleRate = false ∧
      (differ64 (u32ToF64 0#32) plain.ts.sampleRate = true ∧ (demo .d8 0#32 [] [.ok] []).nextReply = .ok) ∧
      (differ64 (u32ToF64 0xFFFFFFFF#32) plain.ts.sampleRate = true ∧ (demo .d8 0#32 [] [.err] []).nextReply = .err) := by
  decide +kernel

theorem witness_PayloadConvertsToBinary64Exactly : (0#32).toNat = 0 ∧ (0xFFFFFFFF#32).toNat ≠ 0 := by decide

theorem witness_SetrateIsIdempotent :
    ∃ t, exec (.setrate 1#32) (demo .d8 0#32 [] [.ok] []) = .next t ∧ t.phase ≠ .halted :=
  ⟨_, rfl, by decide +kernel⟩

theorem witness_SetgainStoresTheScaledPower :
    plain.ts.bitDepth = .d8 ∧ (demo .d16 0#32 [] [] []).ts.bitDepth = .d16 ∧ (demo .d32 0#32 [] [] []).ts.bitDepth = .d32 := by
  decide

theorem witness_SetgainAt120StoresGainScale : configLegal plain.cfg = true ∧ plain.ts.bitDepth ≠ .d32 := by decide +kernel

theorem witness_SetgainFrom3974StoresInfinity :
    configLegal plain.cfg = true ∧ plain.ts.bitDepth ≠ .d32 ∧ 3974 ≤ (3974#32).toNat ∧ 3974 ≤ (0xFFFFFFFF#32).toNat := by
  decide +kernel

theorem witness_SetgainStoresAPositiveGain :
    configLegal plain.cfg = true ∧ plain.ts.bitDepth ≠ .d32 ∧ ∃ t, exec (.setgain 0#32) plain = .next t :=
  ⟨by decide +kernel, by decide, _, rfl⟩

theorem witness_CommandsNeverTouchTheQuantizer :
    (Instr.nop0 0#32).format = .cmd ∧ (Instr.setfreq 0#32).format = .cmd ∧ (Instr.nophi 0x05#8 0#32).format = .cmd := by
  decide

theorem witness_StepRunsTheDecodedCommand :
    ∃ s : State, s.phase = .active ∧ (Instr.setgain 1#32).format = .cmd ∧ (Instr.setgain 1#32).wellFormed = true ∧
      5 ≤ s.cfg.cmdBufMax ∧ s.requests = .decode (.data (encode (.setgain 1#32))) false :: [.por] :=
  ⟨demo .d8 0#32 [] [] [.decode (.data (encode (.setgain 1#32))) false, .por], by decide⟩

theorem witness_FrameLoopRunsTheFrameAtTheCursor :
    ∃ s : State, s.phase ≠ .halted ∧ s.pos = 5 ∧ decode .cmd (s.cmd.drop s.pos) = .ok (.info3 1#32) [0x09#8] :=
  ⟨{ plain with
      cmd := [0#8, 0#8, 0#8, 0#8, 0#8, 0x03#8, 0#8, 0#8, 0#8, 0x01#8, 0x09#8]
      pos := 5 }, by decide⟩

theorem witness_DisconnectChangesNoRegister :
    plain.phase = .active ∧ readLength (.data []) ≤ 0 ∧ readLength (.error 0) ≤ 0 ∧
      (readBytes (.data (frame 0x01#8 7#32))).length ≤ plain.cfg.cmdBufMax ∧
      (demo .d8 0#32 [] [] [.decode (.data (frame 0x01#8 7#32)) true]).requests =
        [.decode (.data (frame 0x01#8 7#32)) true] := by decide

theorem witness_TrailingBytesAreDropped :
    plain.phase = .active ∧ (frame 0x01#8 7#32).length % 5 = 0 ∧ [0x01#8, 0x02#8, 0x03#8, 0x04#8].length < 5 ∧
      (frame 0x01#8 7#32).length + [0x01#8, 0x02#8, 0x03#8, 0x04#8].length ≤ plain.cfg.cmdBufMax ∧
      frame 0x01#8 7#32 ≠ [] ∧ [0x01#8, 0x02#8, 0x03#8, 0x04#8] ≠ [] := by decide

theorem witness_DecodeOfConcatenationIsBothInOrder :
    (demo .d8 0#32 [] [.ok, .ok] []).phase = .active ∧ frame 0x02#8 7#32 ≠ [] ∧ frame 0x01#8 7#32 ≠ [] ∧
      (frame 0x02#8 7#32).length % 5 = 0 ∧ (frame 0x01#8 7#32).length % 5 = 0 ∧
      (frame 0x02#8 7#32).length + (frame 0x01#8 7#32).length ≤ plain.cfg.cmdBufMax ∧
      ∀ k, k < ((frame 0x02#8 7#32).length + (frame 0x01#8 7#32).length) / 5 →
        replyAt (demo .d8 0#32 [] [.ok, .ok] []) k = .ok := by decide

/-- A block whose first reply is this one. -/
def replying (r : SrcStatus) : State := demo .d8 0#32 [] [r] []

theorem witness_DeviceFatalEndsTheRequest :
    (∀ r, (replying r).phase = .active ∧ frame 0x01#8 7#32 ≠ [] ∧ (frame 0x01#8 7#32).length % 5 = 0 ∧
        [0x01#8] ≠ [] ∧ (frame 0x01#8 7#32).length + [0x01#8].length ≤ (replying r).cfg.cmdBufMax) ∧
      (∃ u, step { replying .err with requests := [.decode (.data (frame 0x01#8 7#32)) false] } = .next u ∧
        u.phase = .halted) ∧
      (∃ u, step { replying .ok with requests := [.decode (.data (frame 0x01#8 7#32)) false] } = .next u ∧
        u.phase ≠ .halted) :=
  ⟨fun r => by cases r <;> decide, ⟨_, rfl, by decide +kernel⟩, ⟨_, rfl, by decide +kernel⟩⟩

theorem witness_FailedRetuneHaltsTheBlock :
    (replying .err).phase = .active ∧ 5 + [0x04#8].length ≤ (replying .err).cfg.cmdBufMax ∧
      (replying .err).nextReply = .err ∧
      (demo .d8 0#32 [] [.err] [.decode (.data (encode (.setfreq 0#32) ++ [0x04#8])) false]).requests =
        [.decode (.data (encode (.setfreq 0#32) ++ [0x04#8])) false] := by decide

theorem witness_EveryDecodeRequestCompletes :
    plain.phase = .active ∧ (readBytes (.data [0xFF#8, 0x01#8, 0x02#8])).length ≤ plain.cfg.cmdBufMax ∧
      (demo .d8 0#32 [] [] [.decode (.data [0xFF#8, 0x01#8, 0x02#8]) false]).requests =
        [.decode (.data [0xFF#8, 0x01#8, 0x02#8]) false] := by decide

/-- A block of one pair, 1.0 and -1.0. -/
def onePair : List Pair := [⟨0x3F800000#32, 0xBF800000#32⟩]

theorem witness_StepRunsTheSelectedMode :
    plain.phase = .active ∧ onePair.length ≤ plain.cfg.maxBlockPairs ∧
      decode .mode [modeByte plain.ts.bitDepth] = .ok .quant8 [] ∧
      (demo .d8 0#32 [] [] [.quantize onePair]).requests = [.quantize onePair] := by decide

theorem witness_Quant8EmitsTheDitheredSamples :
    (plain.loadSample onePair).sample[0]? = some ⟨0x3F800000#32, 0xBF800000#32⟩ ∧
      finite32 (scaled8 ((demo .d8 0x40800000#32 [0x3F000000] [] []).loadSample onePair) 0 .i 0x3F800000#32) = true := by
  decide +kernel

/-- The pair (+Inf, 1.0) in 8-bit mode, draws 0.75 and 0.5. -/
def infinitePair : State :=
  (demo .d8 0x40800000#32 [0x3F400000, 0x3F000000] [] []).loadSample [⟨0x7F800000#32, 0x3F800000#32⟩]

theorem witness_NonFiniteSampleMakesTheAccumulatorNaN :
    infinitePair.sample[0]? = some ⟨0x7F800000#32, 0x3F800000#32⟩ ∧
      finite32 (scaled8 infinitePair 0 .i 0x7F800000#32) = false ∧ ∃ t, exec .quant8 infinitePair = .next t :=
  ⟨rfl, by decide +kernel, _, rfl⟩

theorem witness_Quant16EmitsTheRoundedSamples :
    (plain.loadSample onePair).sample[0]? = some ⟨0x3F800000#32, 0xBF800000#32⟩ ∧
      finite32 (scaled16 (plain.loadSample onePair) 0xBF800000#32) = true := by decide +kernel

theorem witness_EmptyBlockGivesNoBytes :
    Instr.quant8.format = .mode ∧ Instr.quant16.format = .mode ∧ Instr.pass32.format = .mode ∧ plain.sample = [] := by
  decide

theorem witness_QuantizeReturnsTheSizeOfItsMode :
    ∀ d, (demo d 0#32 [] [] [.quantize onePair]).phase = .active ∧
      onePair.length ≤ (demo d 0#32 [] [] [.quantize onePair]).cfg.maxBlockPairs ∧
      (demo d 0#32 [] [] [.quantize onePair]).requests = [.quantize onePair] ∧
      (demo d 0#32 [] [] [.quantize onePair]).ts.bitDepth = d := by
  intro d
  cases d <;> decide

theorem witness_QuantizeIsPure :
    (demo .d16 0#32 [] [] [.quantize onePair]).phase = .active ∧ onePair.length ≤ plain.cfg.maxBlockPairs ∧
      (demo .d16 0#32 [] [] [.quantize onePair]).requests = [.quantize onePair] ∧
      (demo .d16 0#32 [] [] [.quantize onePair]).ts.bitDepth ≠ .d8 := by decide

theorem witness_QuantizerDoesNotReadRateOrFrequency : Instr.quant8.format = .mode := by decide

theorem witness_BlocksMayBeCutAnywhere : Instr.quant8.format = .mode ∧ Instr.pass32.format = .mode := by decide

/-- The pair (+0.0, -0.0) in 8-bit mode, draws 0.75 and 0.25. -/
def zeroPair : State :=
  (demo .d8 0x40800000#32 [0x3F400000, 0x3E800000] [] []).loadSample [⟨0x00000000#32, 0x80000000#32⟩]

theorem witness_AllZeroInputStaysAtTheOffset :
    finite32 zeroPair.ts.gainLinear = true ∧ inUnit zeroPair.ds.carryI = true ∧ inUnit zeroPair.ds.carryQ = true ∧
      (∀ p ∈ zeroPair.sample, magBits p.i = 0 ∧ magBits p.q = 0) ∧
      ∃ t, exec .quant8 zeroPair = .next t ∧ 0x80#8 ∈ t.wire :=
  ⟨by decide +kernel, by decide +kernel, by decide +kernel, by decide +kernel, _, rfl, by decide +kernel⟩

/-- -128.0 and 127.0 are the ends of the range, 2^31 the first magnitude of the last clause. -/
theorem witness_EightBitNarrowingWrapsAround :
    (finite32 0xC3000000#32 = true ∧ intOf (roundHalfAway 0xC3000000#32) = -128) ∧
      (finite32 0x42FE0000#32 = true ∧ intOf (roundHalfAway 0x42FE0000#32) = 127) ∧
      (finite32 0x4F000000#32 = true ∧ (intOf (roundHalfAway 0x4F000000#32)).natAbs = 2 ^ 31) := by decide +kernel

/-- -32768.0 and 32767.0 are the ends of the range, 2^39 the first magnitude of the last clause. -/
theorem witness_SixteenBitNarrowingWrapsAround :
    (finite32 0xC7000000#32 = true ∧ intOf (roundHalfAway 0xC7000000#32) = -32768) ∧
      (finite32 0x46FFFE00#32 = true ∧ intOf (roundHalfAway 0x46FFFE00#32) = 32767) ∧
      (finite32 0x53000000#32 = true ∧ (intOf (roundHalfAway 0x53000000#32)).natAbs = 2 ^ 39) := by decide +kernel

theorem witness_RoundHalfAwayIsTheNearestInteger :
    unpack32 0x80000001#32 = .fin true 1 ∧ unpack32 0xFF800000#32 = .inf true ∧ unpack32 0x7F800001#32 = .nan := by
  decide +kernel

/-- 2^24 + 1 is a tie between the neighbours 2^24 and 2^24 + 2, and 2^24 has the even pattern. -/
theorem witness_SumAndDifferenceAreRoundedOnceToNearestEven :
    (unpack32 0x4B800000#32 = .fin false (2 ^ 24 * 2 ^ 149) ∧ unpack32 0x3F800000#32 = .fin false (2 ^ 149)) ∧
      fadd32 0x4B800000#32 0x3F800000#32 = 0x4B800000#32 ∧ fsub32 0x4B800000#32 0xBF800000#32 = 0x4B800000#32 ∧
      unpack32 0x7F800001#32 = .nan ∧ unpack32 0x7F800000#32 = .inf false ∧ unpack32 0xFF800000#32 = .inf (!false) := by
  decide +kernel

/-- One half times three of the smallest units is a tie; 2^64 times 2^64 overflows. -/
theorem witness_ProductIsRoundedOnceToNearestEven :
    (unpack32 0x3F000000#32 = .fin false (2 ^ 148) ∧ unpack32 0x00000003#32 = .fin false 3) ∧
      fmul32 0x3F000000#32 0x00000003#32 = 0x00000002#32 ∧ fmul32 0x5F800000#32 0xDF800000#32 = 0xFF800000#32 ∧
      unpack32 0x7F800001#32 = .nan ∧ unpack32 0x80000000#32 = .fin true 0 ∧ unpack32 0x7F800000#32 = .inf false ∧
      isNaN32 0x3F000000#32 = false ∧ magBits 0x3F000000#32 ≠ 0 := by
  decide +kernel

theorem witness_QuotientIsRoundedOnceToNearestEven :
    (unpack32 0x00000003#32 = .fin false 3 ∧ unpack32 0x40000000#32 = .fin false (2 ^ 150) ∧ 2 ^ 150 ≠ 0) ∧
      fdiv32 0x00000003#32 0x40000000#32 = 0x00000002#32 ∧ unpack32 0x7F800001#32 = .nan := by decide +kernel

/-- 2^24 + 1 and 2^32 - 1 (example (e) of R107). -/
theorem test_u32ToF32 :
    u32ToF32 16777217#32 = 0x4B800000#32 ∧ u32ToF32 4294967295#32 = 0x4F800000#32 := by decide +kernel

theorem witness_DitherValueIsBelowOne : inUnit 0x3F7FFFFF#32 = true ∧ inUnit 0x00000000#32 = true := by decide

/-- Exponents for the clauses: -Inf, 39, 40 (the power too large), -40 (too small), 0 (between). -/
theorem witness_Pow10StaysWithinItsBounds :
    isNaN32 0xFF800000#32 = false ∧ unpack32 0x421C0000#32 = .fin false (39 * 2 ^ 149) ∧
      unpack32 0xC2200000#32 = .fin true (40 * 2 ^ 149) ∧ unpack32 0x00000000#32 = .fin false 0 := by decide +kernel

theorem witness_Pow10StaysWithinItsBounds_powers :
    ((2 ^ 24 - 1) * 2 ^ 253 : ℝ) < 2 ^ 149 * (10 : ℝ) ^ (40 : ℕ) - 2 ^ 149 * (10 : ℝ) ^ (40 : ℕ) / 2 ^ 100 ∧
      (2 ^ 149 / (10 : ℝ) ^ (40 : ℕ) + 2 ^ 149 / (10 : ℝ) ^ (40 : ℕ) / 2 ^ 100 : ℝ) < 2 ^ 23 ∧
      ((2 ^ 23 : ℝ) ≤ 2 ^ 149 ∧ (2 ^ 149 : ℝ) ≤ (2 ^ 24 - 1) * 2 ^ 253 ∧
        (2 ^ 149 + 2 ^ 149 / 2 ^ 100 : ℝ) < 2 ^ (24 + 126)) := by norm_num

theorem witness_PorSetsTheInitialConfiguration :
    ((demo .d16 0#32 [] [] [.por]).requests = [.por] ∧ configLegal plain.cfg = true) ∧
      configLegal { demoConfig with initGainLinear := 0#32 } = false := by decide +kernel

theorem witness_SessionStartSeedsTheCarries :
    (demo .d8 0#32 [] [] [.sessionStart]).requests = [.sessionStart] ∧ (plain.setPhase .idle).phase = .idle ∧
      plain.phase ≠ .idle := by decide

theorem witness_SessionEndOnlyChangesThePhase :
    (demo .d8 0#32 [] [] [.sessionEnd]).requests = [.sessionEnd] ∧ plain.phase = .active ∧
      (plain.setPhase .idle).phase ≠ .active := by decide

theorem witness_RequestsOutsideTheirPhaseAreRefused :
    (demo .d8 0#32 [] [] [.sessionStart]).requests = [.sessionStart] := by decide

/-- A configuration that admits one pair and one byte. -/
def tight : State := { plain with cfg := { demoConfig with maxBlockPairs := 1, cmdBufMax := 1 } }

theorem witness_OverlongRequestsAreRefused :
    tight.phase = .active ∧ tight.cfg.maxBlockPairs < (onePair ++ onePair).length ∧
      tight.cfg.cmdBufMax < [0x01#8, 0x02#8].length := by decide

/-- The three cases with no request pending; the first clause is met by the second's state. -/
theorem witness_OnlyHaltedIsAFault :
    step (plain.setPhase .halted) = .fault .halted ∧
      ((plain.setPhase .halted).phase = .halted ∧ (plain.setPhase .halted).requests = []) ∧
      plain.phase ≠ .halted ∧ plain.requests = [] :=
  ⟨rfl, by decide, by decide, by decide⟩

theorem witness_EveryStepKeepsTheInvariant : Inv plain ∧ ∃ t, step plain = .next t :=
  ⟨demo_inv, exists_next (by decide +kernel)⟩

theorem witness_OnlyPorSetsTheBitDepth :
    ∃ t, step (demo .d16 0#32 [] [] [.por]) = .next t ∧ t.ts.bitDepth ≠ .d16 := ⟨_, rfl, by decide +kernel⟩

theorem witness_RegistersAreWrittenOnlyByTheirOwners :
    (∃ t, step (demo .d8 0#32 [] [] [.decode (.data (frame 0x04#8 120#32)) false]) = .next t ∧
        t.ts ≠ (demo .d8 0#32 [] [] []).ts) ∧
      ∃ t, step (demo .d8 0#32 [0x3F400000, 0x3F400000] [] [.quantize onePair]) = .next t ∧
        (t.ds ≠ (demo .d8 0#32 [] [] []).ds ∨ t.dbg ≠ (demo .d8 0#32 [] [] []).dbg) :=
  ⟨⟨_, rfl, by decide +kernel⟩, ⟨_, rfl, .inl (by decide +kernel)⟩⟩

theorem witness_PhaseChangesOnlyAsListed :
    (∃ t, step (demo .d8 0#32 [] [] [.por]) = .next t ∧ t.phase ≠ .active) ∧
      (∃ t, step ((demo .d8 0#32 [0, 0] [] [.sessionStart]).setPhase .idle) = .next t ∧ t.phase ≠ .idle) ∧
      (∃ t, step (demo .d8 0#32 [] [] [.sessionEnd]) = .next t ∧ t.phase ≠ .active) ∧
      (∃ t, step (demo .d8 0#32 [] [.err] [.decode (.data (frame 0x01#8 0#32)) false]) = .next t ∧ t.phase ≠ .active) :=
  ⟨⟨_, rfl, by decide +kernel⟩, ⟨_, rfl, by decide +kernel⟩, ⟨_, rfl, by decide +kernel⟩, ⟨_, rfl, by decide +kernel⟩⟩

theorem witness_NothingDependsOnTheAccumulators :
    (∃ t, step (demo .d8 0#32 [0, 0] [] [.quantize onePair]) = .next t) ∧
      step (plain.setPhase .halted) = .fault .halted ∧
      step (demo .d8 0#32 [] [] [.sessionStart]) = .refused .notAdmitted :=
  ⟨⟨_, rfl⟩, rfl, rfl⟩

/-- A run with one session, which ends well, one that stops in its session, and one without a session. -/
theorem witness_RunEndsWellExactlyAfterItsSession :
    (∃ t, RunEndsIn (demo .d8 0#32 [0, 0] [] [.por, .sessionStart, .sessionEnd]) t ∧ t.phase = .idle) ∧
      (∃ t, RunEndsIn (demo .d8 0#32 [0, 0] [] [.por, .sessionStart]) t ∧ t.phase = .active) ∧
      ∃ t, RunEndsIn (demo .d8 0#32 [] [] [.por]) t ∧ t.phase = .idle :=
  ⟨⟨_, ⟨rfl, by decide, rfl⟩, rfl⟩, ⟨_, ⟨rfl, by decide, rfl⟩, rfl⟩, ⟨_, ⟨rfl, by decide, rfl⟩, rfl⟩⟩

end Sys2Proof.Tests
end

section
/-! PROOF. `RoundHalfAway` (R14): the integer nearest to a finite binary32 number is itself a binary32 number, so rounding
it once gives it exactly. -/

namespace Sys2Proof.Machine

/-! ### Numbers that rounding gives back exactly -/

/-- A number of at most 24 binary places, scaled by a power of two, is the units of a pattern. -/
theorem exists_unitsOf_eq {q : Nat} (sh : Nat) (hq : q ≤ 2 ^ 24) : ∃ b, unitsOf b = q * 2 ^ sh := by
  induction sh generalizing q with
  | zero => exact ⟨0 * 2 ^ 23 + q, unitsOf_place 0 q hq (.inl rfl)⟩
  | succ sh ih =>
    by_cases hlow : 2 ^ 23 ≤ q
    · exact ⟨(sh + 1) * 2 ^ 23 + q, unitsOf_place (sh + 1) q hq (.inr hlow)⟩
    · obtain ⟨b, hb⟩ := ih (q := q * 2) (by omega)
      exact ⟨b, by rw [hb, pow_succ]; ring⟩

/-- Rounding does not change a number of units that some pattern stands for. -/
theorem unitsOf_roundMag_unitsOf {b : Nat} (h : roundMag (unitsOf b) 1 < infBits) :
    unitsOf (roundMag (unitsOf b) 1) = unitsOf b := by
  have hnear := (roundMag_nearest (unitsOf b) 1 b Nat.one_pos h).1
  omega

theorem unpack32_pack32 (neg : Bool) {bits : Nat} (h : bits < infBits) :
    unpack32 (pack32 neg bits) = .fin neg (unitsOf bits) := by
  have hb : bits < 2 ^ 31 := h.trans (by decide)
  rw [unpack32_of_finite ((finite32_iff _).mpr (by rwa [magBits_pack32 _ _ hb])), signBit_pack32 _ _ hb,
    magBits_pack32 _ _ hb]

/-! ### The nearest integer -/

/-- The largest finite number, in units. -/
theorem unitsOf_le_of_lt_infBits {b : Nat} (h : b < infBits) : unitsOf b ≤ (2 ^ 24 - 1) * 2 ^ 253 := by
  have hmax : unitsOf (infBits - 1) = (2 ^ 24 - 1) * 2 ^ 253 := by decide +kernel
  rw [← hmax]
  exact unitsOf_mono (by omega)

/-- The integer nearest to a binary32 number is a binary32 number: from `2^23` up the number is an integer already, and
below that the integer has at most 24 binary places. -/
theorem exists_unitsOf_eq_nearestInteger (b : Nat) :
    ∃ c, unitsOf c = (unitsOf b + 2 ^ 148) / 2 ^ 149 * 2 ^ 149 := by
  obtain ⟨sh, q, -, hq, -, hu⟩ := unitsOf_form b
  by_cases hsh : 149 ≤ sh
  · refine ⟨b, ?_⟩
    obtain ⟨k, hk⟩ : 2 ^ 149 ∣ unitsOf b := hu ▸ (pow_dvd_pow 2 hsh).mul_left q
    omega
  · have hpow : (2 : Nat) ^ sh ≤ 2 ^ 148 := Nat.pow_le_pow_right (by decide) (by omega)
    have hlt : unitsOf b ≤ 2 ^ 24 * 2 ^ 148 := hu ▸ Nat.mul_le_mul hq.le hpow
    exact exists_unitsOf_eq 149 (by omega)

/-- `RoundHalfAway` of a finite number is the exact nearest integer, under the sign of the operand. -/
theorem unpack32_roundHalfAway {y : F32} {s : Bool} {m : Nat} (h : unpack32 y = .fin s m) :
    unpack32 (roundHalfAway y) = .fin s ((m + 2 ^ 148) / 2 ^ 149 * 2 ^ 149) := by
  obtain ⟨hfin, -, hm⟩ := unpack32_eq_fin h
  have hle : m ≤ (2 ^ 24 - 1) * 2 ^ 253 := hm ▸ unitsOf_le_of_lt_infBits ((finite32_iff y).mp hfin)
  have hround : roundMag ((m + 2 ^ 148) / 2 ^ 149 * 2 ^ 149) 1 < infBits := roundMag_lt _ _ Nat.one_pos (by omega)
  obtain ⟨c, hc⟩ := exists_unitsOf_eq_nearestInteger (magBits y)
  rw [hm] at hc
  rw [← hc] at hround
  simp only [roundHalfAway, h]
  rw [← hc, unpack32_pack32 s hround, unitsOf_roundMag_unitsOf hround]

theorem roundHalfAway_of_inf {y : F32} {s : Bool} (h : unpack32 y = .inf s) : roundHalfAway y = y := by
  simp only [roundHalfAway, h]

theorem unpack32_roundHalfAway_of_nan {y : F32} (h : unpack32 y = .nan) : unpack32 (roundHalfAway y) = .nan := by
  simp only [roundHalfAway, h]
  exact (isNaN32_iff _).mp (isNaN32_nanResult _ _ _)

/-- Settles O39: the nearest integer is representable, so the one rounding in `roundHalfAway` is exact. -/
theorem roundHalfAwayIsTheNearestInteger : Obligations.RoundHalfAwayIsTheNearestInteger := by
  intro y
  refine ⟨fun s m h => ⟨(m + 2 ^ 148) / 2 ^ 149, unpack32_roundHalfAway h, ?_, ?_⟩,
    fun _ => roundHalfAway_of_inf, unpack32_roundHalfAway_of_nan⟩
  · exact Nat.div_mul_le_self _ _
  · omega

end Sys2Proof.Machine
end

section
/-! PROOF. The memory of a DECODE request (R62, R102): bytes after the frames that are executed do not take part. -/

namespace Sys2Proof.Machine

/-! ### Frames with bytes following them -/

/-- `s` with these bytes following the bytes of its `CMD` space. -/
def State.appendCmd (tail : List Byte) (s : State) : State := { s with cmd := s.cmd ++ tail }

theorem State.loadCmd_append (s : State) (frames tail : List Byte) :
    s.loadCmd (frames ++ tail) = (s.loadCmd frames).appendCmd tail := rfl

/-- Five bytes or more begin with a frame. -/
theorem decode_cmd_of_length {bs : List Byte} (h : 5 ≤ bs.length) : ∃ i rest, decode .cmd bs = .ok i rest := by
  match bs, h with
  | _ :: _ :: _ :: _ :: _ :: _, _ => exact ⟨_, _, rfl⟩

/-- The first frame does not depend on what follows the bytes. -/
theorem decode_cmd_append {bs rest : List Byte} {i : Instr} (tail : List Byte) (h : decode .cmd bs = .ok i rest) :
    decode .cmd (bs ++ tail) = .ok i (rest ++ tail) := by
  match bs, h with
  | _ :: _ :: _ :: _ :: _ :: _, h =>
    simp only [decode, Decoded.ok.injEq] at h
    obtain ⟨rfl, rfl⟩ := h
    rfl

/-- Where five bytes are left from the cursor on, the frame there is the same with bytes following. -/
theorem fetchFrame_appendCmd {s : State} (tail : List Byte) (h : s.pos + 5 ≤ s.cmd.length) :
    ∃ i rest, fetchFrame s = .ok i rest ∧ fetchFrame (s.appendCmd tail) = .ok i (rest ++ tail) := by
  obtain ⟨i, rest, hdec⟩ := decode_cmd_of_length (bs := s.cmd.drop s.pos) (by rw [List.length_drop]; omega)
  refine ⟨i, rest, hdec, ?_⟩
  have hdrop : (s.cmd ++ tail).drop s.pos = s.cmd.drop s.pos ++ tail := List.drop_append_of_le_length (by omega)
  rw [← decode_cmd_append tail hdec, ← hdrop]
  rfl

theorem configureSource_appendCmd (op : SrcOp) (arg : F64) (onOk : State → State) (tail : List Byte) (s : State)
    (h : ∀ u : State, onOk (u.appendCmd tail) = (onOk u).appendCmd tail) :
    configureSource op arg onOk (s.appendCmd tail) = (configureSource op arg onOk s).appendCmd tail := by
  have hreply : (s.appendCmd tail).nextReply = s.nextReply := rfl
  unfold configureSource
  rw [hreply]
  cases s.nextReply with
  | ok => exact h (s.recordCall op arg)
  | err => rfl

/-- A command is executed from its opcode and payload: it does not read the `CMD` space again (R101, R103). -/
theorem exec_command_appendCmd {i : Instr} {s t : State} (tail : List Byte) (hi : i.format = .cmd)
    (h : exec i s = .next t) : exec i (s.appendCmd tail) = .next (t.appendCmd tail) := by
  cases i with
  | nop0 p => cases h; rfl
  | info3 p => cases h; rfl
  | nophi o p => cases h; rfl
  | setfreq p =>
    cases h
    exact congrArg Host.Outcome.next
      (configureSource_appendCmd _ _ (State.setCenterFrequency (u32ToF64 p)) tail s fun _ => rfl)
  | setrate p =>
    cases h
    rw [apply_ite (State.appendCmd tail),
      ← configureSource_appendCmd _ _ (State.setSampleRate (u32ToF64 p)) tail s fun _ => rfl]
    rfl
  | setgain p =>
    cases h
    have hdepth : (s.appendCmd tail).ts.bitDepth = s.ts.bitDepth := rfl
    simp only [exec, execSetgain, hdepth]
    cases s.ts.bitDepth <;> rfl
  | quant8 => cases hi
  | quant16 => cases hi
  | pass32 => cases hi

/-- Frames that all lie before the tail run as they do without it. -/
theorem frameLoop_appendCmd (tail : List Byte) :
    ∀ (n : Nat) (s t : State), s.pos + 5 * n ≤ s.cmd.length → frameLoop n s = .next t →
      frameLoop n (s.appendCmd tail) = .next (t.appendCmd tail)
  | 0, s, t, _, h => by cases h; rfl
  | n + 1, s, t, hlen, h => by
    by_cases hp : s.phase = .halted
    · rw [frameLoop_halted s _ hp] at h
      cases h
      exact frameLoop_halted _ _ hp
    · obtain ⟨i, rest, hf, hft⟩ := fetchFrame_appendCmd (s := s) tail (by omega)
      obtain ⟨u, hu⟩ := exec_next s i
      have hi := decode_cmd_format hf
      obtain ⟨hframe, -⟩ := exec_command_frame s hi hu
      have hcmd : u.cmd = s.cmd := by rw [hframe]
      have hpos : u.pos = s.pos := by rw [hframe]
      rw [frameLoop_succ s n hp hf hu] at h
      rw [frameLoop_succ (s.appendCmd tail) n hp hft (exec_command_appendCmd tail hi hu)]
      have hleft : (u.setPos (u.pos + 5)).pos + 5 * n ≤ (u.setPos (u.pos + 5)).cmd.length := by
        rw [State.setPos_pos, State.setPos_cmd, hcmd, hpos]
        omega
      exact frameLoop_appendCmd tail n (u.setPos (u.pos + 5)) t hleft h

/-! ### The end of the request -/

/-- The buffer is discarded at the end, the tail with it (R102). -/
theorem finishDecode_appendCmd (s : State) (tail : List Byte) : finishDecode (s.appendCmd tail) = finishDecode s := rfl

theorem disconnectCondition_data {bytes : List Byte} (h : bytes ≠ []) :
    disconnectCondition (.data bytes) false = false := by
  have hpos := List.length_pos_iff.mpr h
  rw [disconnectCondition, readLength, Bool.or_false, decide_eq_false_iff_not]
  omega

theorem decodeRequest_data {bytes : List Byte} (s : State) (h : bytes ≠ []) :
    decodeRequest (.data bytes) false s = thenNext (frameLoop (bytes.length / 5) (s.loadCmd bytes)) finishDecode := by
  unfold decodeRequest
  rw [disconnectCondition_data h]
  rfl

/-- Fewer than five bytes after whole frames change nothing in what the request does. -/
theorem decodeRequest_append {frames tail : List Byte} (s : State) (hne : frames ≠ []) (hfive : frames.length % 5 = 0)
    (htail : tail.length < 5) :
    decodeRequest (.data (frames ++ tail)) false s = decodeRequest (.data frames) false s := by
  have hcount : (frames ++ tail).length / 5 = frames.length / 5 := by rw [List.length_append]; omega
  have hfit : (s.loadCmd frames).pos + 5 * (frames.length / 5) ≤ (s.loadCmd frames).cmd.length := by
    simp only [State.loadCmd_pos, State.loadCmd_cmd]
    omega
  obtain ⟨t, ht⟩ := frameLoop_next (frames.length / 5) (s.loadCmd frames)
  rw [decodeRequest_data s hne, decodeRequest_data s (List.append_ne_nil_of_left_ne_nil hne tail), hcount,
    State.loadCmd_append, frameLoop_appendCmd tail _ _ _ hfit ht, ht]
  exact congrArg Host.Outcome.next (finishDecode_appendCmd t tail)

/-- Fewer than five bytes alone hold no frame (R62). -/
theorem decodeRequest_short {tail : List Byte} {s : State} (hp : s.phase = .active) (hne : tail ≠ [])
    (hlen : tail.length < 5) :
    decodeRequest (.data tail) false s = .next ((s.loadCmd []).setAction .continued) := by
  have hactive : (s.loadCmd tail).phase ≠ .halted := by rw [State.loadCmd_phase, hp]; decide
  rw [decodeRequest_data s hne, Nat.div_eq_of_lt hlen]
  exact congrArg Host.Outcome.next (if_neg hactive)

/-- Settles O20: the frame loop never reaches the tail, and the end of the request discards it with the buffer. -/
theorem trailingBytesAreDropped : Obligations.TrailingBytesAreDropped := by
  intro s frames tail rest hp hfive htail hmax
  have hstep : ∀ bytes : List Byte, bytes.length ≤ s.cfg.cmdBufMax →
      step { s with requests := .decode (.data bytes) false :: rest } =
        decodeRequest (.data bytes) false (s.takeRequest rest) :=
    fun bytes hle => step_decode _ hp hle rfl
  refine ⟨fun hne => ?_, fun hne => ?_⟩
  · rw [hstep _ (by rwa [List.length_append]), hstep _ (by omega), decodeRequest_append _ hne hfive htail]
  · rw [hstep _ (by omega), decodeRequest_short (s := s.takeRequest rest) hp hne htail]
    rfl

end Sys2Proof.Machine
end

section
/-! PROOF. The size of the answer to a QUANTIZE request (R54): every component emits a fixed number of bytes in its
mode. -/

namespace Sys2Proof.Machine

/-- Every component appends `k` bytes to `WIRE`. -/
def EmitsEach (k : Nat) (component : Channel → F32 → State → State) : Prop :=
  ∀ c x s, (component c x s).wire.length = s.wire.length + k

theorem emitsEach_quant8 (g8 : F32) : EmitsEach 1 (quant8Component g8) := fun c x s => by
  rw [quant8Component_eq, List.length_append, List.length_singleton]

theorem emitsEach_quant16 (g16 : F32) : EmitsEach 2 (quant16Component g16) := fun c x s => by
  rw [quant16Component, emit16_eq, List.length_append]
  rfl

theorem emitsEach_pass32 : EmitsEach 4 pass32Component := fun c x s => by
  rw [pass32Component_eq, List.length_append]
  rfl

theorem pairFold_wire_length {k : Nat} {component : Channel → F32 → State → State} (h : EmitsEach k component) :
    ∀ (ps : List Pair) (s : State), (pairFold component ps s).wire.length = s.wire.length + 2 * k * ps.length
  | [], _ => rfl
  | p :: ps, s => by
    rw [pairFold, pairFold_wire_length h ps, State.setIdx_wire, h, h, List.length_cons]
    ring

theorem quantizeBlock_wire_length {k : Nat} {component : Channel → F32 → State → State} (hb : KeepsBlock component)
    (h : EmitsEach k component) (s : State) :
    (quantizeBlock component s).wire.length = 2 * k * s.sample.length := by
  rw [quantizeBlock_eq hb, State.setIdx_wire, pairFold_wire_length h]
  exact Nat.zero_add _

/-- The mode that the bit depth of `s` selects returns `pairSize` bytes for each pair of the block it runs on. -/
theorem fetchMode_wire_length (s u : State) :
    ∃ i t, fetchMode s = .ok i [] ∧ exec i u = .next t ∧
      t.wire.length = pairSize s.ts.bitDepth * u.sample.length := by
  unfold fetchMode
  cases s.ts.bitDepth with
  | d8 => exact ⟨.quant8, _, rfl, rfl, quantizeBlock_wire_length (keepsBlock_quant8 _) (emitsEach_quant8 _) u⟩
  | d16 => exact ⟨.quant16, _, rfl, rfl, quantizeBlock_wire_length (keepsBlock_quant16 _) (emitsEach_quant16 _) u⟩
  | d32 => exact ⟨.pass32, _, rfl, rfl, quantizeBlock_wire_length keepsBlock_pass32 emitsEach_pass32 u⟩

/-- Settles O32: the request runs the mode that the bit depth selects, which returns `pairSize` bytes a pair. -/
theorem quantizeReturnsTheSizeOfItsMode : Obligations.QuantizeReturnsTheSizeOfItsMode := by
  intro s block rest hp hmax hreq
  obtain ⟨i, t, hmode, hexec, hlen⟩ := fetchMode_wire_length s ((s.takeRequest rest).loadSample block)
  have hsize : (t.loadSample []).wire.length = pairSize s.ts.bitDepth * block.length := hlen
  refine ⟨t.loadSample [], ?_, fun hd => ?_, fun hd => ?_, fun hd => ?_⟩
  · rw [step_quantize s hp hmax hmode hreq, thenNext_exec _ _ _ hexec]
  all_goals
    rw [hsize, hd]
    rfl

end Sys2Proof.Machine
end

section
/-! PROOF. The opcode map (R84) read through the number of the opcode byte. -/

namespace Sys2Proof.Machine

/-- Bytes are equal exactly if their numbers are, so the comparisons of the map may be made on numbers. -/
theorem selectCommand_eq (opcode : Byte) (p : Word) :
    selectCommand opcode p =
      if opcode.toNat = 0 then .nop0 p
      else if opcode.toNat = 1 then .setfreq p
      else if opcode.toNat = 2 then .setrate p
      else if opcode.toNat = 3 then .info3 p
      else if opcode.toNat = 4 then .setgain p
      else .nophi opcode p := by
  simp only [selectCommand, ← BitVec.toNat_inj, BitVec.toNat_ofNat, Nat.reducePow, Nat.reduceMod]

/-- Settles O4: the payload is `be32_toNat`, and the map is `selectCommand_eq`. -/
theorem opcodeSelectsAndPayloadIsBigEndian : Obligations.OpcodeSelectsAndPayloadIsBigEndian := by
  intro b0 b1 b2 b3 b4 rest
  refine ⟨be32 b1 b2 b3 b4, be32_toNat b1 b2 b3 b4, ?_⟩
  rw [← selectCommand_eq, decode]

end Sys2Proof.Machine
end

section
/-! PROOF. The commands (R104 to R106, R108, R109): what each does, once for each reply of the Sample Source. -/

namespace Sys2Proof.Machine

theorem configureSource_of_ok {s : State} (op : SrcOp) (arg : F64) (onOk : State → State) (h : s.nextReply = .ok) :
    configureSource op arg onOk s = onOk (s.recordCall op arg) := by
  unfold configureSource
  rw [h]

theorem configureSource_of_err {s : State} (op : SrcOp) (arg : F64) (onOk : State → State) (h : s.nextReply = .err) :
    configureSource op arg onOk s = raiseDeviceFatal (s.recordCall op arg) := by
  unfold configureSource
  rw [h]

theorem exec_setfreq_of_ok {s : State} (p : Word) (h : s.nextReply = .ok) :
    exec (.setfreq p) s =
      .next ((s.recordCall .configureFrequency (u32ToF64 p)).setCenterFrequency (u32ToF64 p)) :=
  congrArg Host.Outcome.next (configureSource_of_ok _ _ _ h)

theorem exec_setfreq_of_err {s : State} (p : Word) (h : s.nextReply = .err) :
    exec (.setfreq p) s = .next (raiseDeviceFatal (s.recordCall .configureFrequency (u32ToF64 p))) :=
  congrArg Host.Outcome.next (configureSource_of_err _ _ _ h)

theorem exec_setrate_of_not_differ {s : State} {p : Word} (hd : differ64 (u32ToF64 p) s.ts.sampleRate = false) :
    exec (.setrate p) s = .next s :=
  congrArg Host.Outcome.next (if_neg (Bool.eq_false_iff.mp hd))

theorem exec_setrate_of_differ {s : State} {p : Word} (hd : differ64 (u32ToF64 p) s.ts.sampleRate = true) :
    exec (.setrate p) s =
      .next (configureSource .configureSampleRate (u32ToF64 p) (State.setSampleRate (u32ToF64 p)) s) :=
  congrArg Host.Outcome.next (if_pos hd)

theorem exec_setrate_of_ok {s : State} {p : Word} (hd : differ64 (u32ToF64 p) s.ts.sampleRate = true)
    (h : s.nextReply = .ok) :
    exec (.setrate p) s = .next ((s.recordCall .configureSampleRate (u32ToF64 p)).setSampleRate (u32ToF64 p)) := by
  rw [exec_setrate_of_differ hd, configureSource_of_ok _ _ _ h]

theorem exec_setrate_of_err {s : State} {p : Word} (hd : differ64 (u32ToF64 p) s.ts.sampleRate = true)
    (h : s.nextReply = .err) :
    exec (.setrate p) s = .next (raiseDeviceFatal (s.recordCall .configureSampleRate (u32ToF64 p))) := by
  rw [exec_setrate_of_differ hd, configureSource_of_err _ _ _ h]

/-- Settles O6: the meanings of the three commands are the identity on the state. -/
theorem reservedCommandsChangeNothing : Obligations.ReservedCommandsChangeNothing :=
  fun _ _ _ => ⟨rfl, rfl, rfl⟩

/-- Settles O7: SETFREQ is one call, and the reply decides between the write and DeviceFatal. -/
theorem setfreqRetunesThenStores : Obligations.SetfreqRetunesThenStores :=
  fun p _ => ⟨exec_setfreq_of_ok p, exec_setfreq_of_err p⟩

/-- Settles O8: the comparison decides whether the call is made, the reply what follows it. -/
theorem setrateActsOnlyOnADifferentRate : Obligations.SetrateActsOnlyOnADifferentRate :=
  fun _ _ => ⟨exec_setrate_of_not_differ, exec_setrate_of_ok, exec_setrate_of_err⟩

end Sys2Proof.Machine
end

section
/-! PROOF. A DECODE request cut between two frames (R101, R112): the loop over all its frames is the loop over the first
ones and then, from where that ends, the loop over the others. -/

namespace Sys2Proof.Machine

/-! ### The frame loop in two parts -/

/-- Where no frame stands at the cursor the loop has ended. -/
theorem frameLoop_of_rejected {s : State} {why : DecodeError} (n : Nat) (h : fetchFrame s = .rejected why) :
    frameLoop n s = .next s := by
  cases n with
  | zero => rfl
  | succ n => simp only [frameLoop, h, ite_self]

/-- The loop over `n + m` frames goes on for `m` frames from where `n` frames end. -/
theorem frameLoop_add (m : Nat) :
    ∀ (n : Nat) (s t : State), frameLoop n s = .next t → frameLoop (n + m) s = frameLoop m t
  | 0, s, t, h => by cases h; rw [Nat.zero_add]
  | n + 1, s, t, h => by
    by_cases hp : s.phase = .halted
    · rw [frameLoop_halted s _ hp] at h ⊢
      cases h
      exact (frameLoop_halted s m hp).symm
    · cases hf : fetchFrame s with
      | rejected why =>
        rw [frameLoop_of_rejected _ hf] at h ⊢
        cases h
        exact (frameLoop_of_rejected m hf).symm
      | ok i rest =>
        obtain ⟨u, hu⟩ := exec_next s i
        rw [frameLoop_succ s n hp hf hu] at h
        rw [Nat.add_right_comm, frameLoop_succ s _ hp hf hu]
        exact frameLoop_add m n _ t h

/-- Unless a DeviceFatal ends the loop, the cursor stands behind the frames (R30). -/
theorem frameLoop_pos :
    ∀ (n : Nat) (s t : State), s.pos + 5 * n ≤ s.cmd.length → frameLoop n s = .next t → t.phase ≠ .halted →
      t.pos = s.pos + 5 * n
  | 0, s, t, _, h, _ => by cases h; rfl
  | n + 1, s, t, hlen, h, ht => by
    by_cases hp : s.phase = .halted
    · rw [frameLoop_halted s _ hp] at h
      cases h
      exact absurd hp ht
    · obtain ⟨i, rest, hf, -⟩ := fetchFrame_appendCmd (s := s) [] (by omega)
      obtain ⟨u, hu⟩ := exec_next s i
      obtain ⟨hframe, -⟩ := exec_command_frame s (decode_cmd_format hf) hu
      have hcmd : u.cmd = s.cmd := by rw [hframe]
      have hpos : u.pos = s.pos := by rw [hframe]
      rw [frameLoop_succ s n hp hf hu] at h
      have hrest := frameLoop_pos n _ t (by rw [State.setPos_pos, State.setPos_cmd, hcmd, hpos]; omega) h ht
      rw [hrest, State.setPos_pos, hpos]
      omega

/-! ### Frames with bytes standing before them -/

/-- `s` with these bytes, already read, standing before the bytes of its `CMD` space. -/
def State.prependCmd (front : List Byte) (s : State) : State :=
  { s with cmd := front ++ s.cmd, pos := front.length + s.pos }

theorem fetchFrame_prependCmd (front : List Byte) (s : State) : fetchFrame (s.prependCmd front) = fetchFrame s :=
  congrArg (decode .cmd) (List.drop_length_add_append s.pos)

/-- A command does not read the cursor or the `CMD` space, but for its own frame (R101, R103). -/
theorem exec_command_prependCmd {i : Instr} {s t : State} (front : List Byte) (hi : i.format = .cmd)
    (h : exec i s = .next t) : exec i (s.prependCmd front) = .next (t.prependCmd front) := by
  cases i with
  | nop0 p => cases h; rfl
  | info3 p => cases h; rfl
  | nophi o p => cases h; rfl
  | setfreq p =>
    cases hr : s.nextReply with
    | ok =>
      cases h.symm.trans (exec_setfreq_of_ok p hr)
      exact exec_setfreq_of_ok p hr
    | err =>
      cases h.symm.trans (exec_setfreq_of_err p hr)
      exact exec_setfreq_of_err p hr
  | setrate p =>
    cases hd : differ64 (u32ToF64 p) s.ts.sampleRate with
    | false =>
      cases h.symm.trans (exec_setrate_of_not_differ hd)
      exact exec_setrate_of_not_differ hd
    | true =>
      cases hr : s.nextReply with
      | ok =>
        cases h.symm.trans (exec_setrate_of_ok hd hr)
        exact exec_setrate_of_ok hd hr
      | err =>
        cases h.symm.trans (exec_setrate_of_err hd hr)
        exact exec_setrate_of_err hd hr
  | setgain p =>
    cases h
    have hdepth : (s.prependCmd front).ts.bitDepth = s.ts.bitDepth := rfl
    simp only [exec, execSetgain, hdepth]
    cases s.ts.bitDepth <;> rfl
  | quant8 => cases hi
  | quant16 => cases hi
  | pass32 => cases hi

/-- The loop runs the frames from the cursor on as it does where nothing stands before the cursor. -/
theorem frameLoop_prependCmd (front : List Byte) :
    ∀ (n : Nat) (s t : State), frameLoop n s = .next t →
      frameLoop n (s.prependCmd front) = .next (t.prependCmd front)
  | 0, s, t, h => by cases h; rfl
  | n + 1, s, t, h => by
    by_cases hp : s.phase = .halted
    · rw [frameLoop_halted s _ hp] at h
      cases h
      exact frameLoop_halted _ _ hp
    · have hfetch := fetchFrame_prependCmd front s
      cases hf : fetchFrame s with
      | rejected why =>
        rw [frameLoop_of_rejected _ hf] at h
        cases h
        exact frameLoop_of_rejected _ (hfetch.trans hf)
      | ok i rest =>
        obtain ⟨u, hu⟩ := exec_next s i
        have hu' := exec_command_prependCmd front (decode_cmd_format hf) hu
        rw [frameLoop_succ s n hp hf hu] at h
        rw [frameLoop_succ (s.prependCmd front) n hp (hfetch.trans hf) hu']
        exact frameLoop_prependCmd front n _ t h

/-! ### The request in two parts -/

theorem finishDecode_of_halted {s : State} (h : s.phase = .halted) : finishDecode s = s.loadCmd [] := if_pos h

theorem finishDecode_of_not_halted {s : State} (h : s.phase ≠ .halted) :
    finishDecode s = (s.loadCmd []).setAction .continued := if_neg h

@[simp] theorem finishDecode_phase (s : State) : (finishDecode s).phase = s.phase := by
  unfold finishDecode
  split <;> rfl

@[simp] theorem finishDecode_cfg (s : State) : (finishDecode s).cfg = s.cfg := by
  unfold finishDecode
  split <;> rfl

/-- The buffer is discarded at the end, the bytes already read with it (R102). -/
theorem thenNext_finishDecode_prependCmd (front : List Byte) (n : Nat) (s : State) :
    thenNext (frameLoop n (s.prependCmd front)) finishDecode = thenNext (frameLoop n s) finishDecode := by
  obtain ⟨t, ht⟩ := frameLoop_next n s
  rw [frameLoop_prependCmd front n s t ht, ht]
  rfl

/-- After all frames of the buffer, bytes that follow them are a buffer of their own behind bytes already read. -/
theorem appendCmd_eq_prependCmd_loadCmd {t : State} {frames : List Byte} (tail : List Byte) (hcmd : t.cmd = frames)
    (hpos : t.pos = frames.length) : t.appendCmd tail = (t.loadCmd tail).prependCmd frames := by
  rw [State.appendCmd, hcmd, State.prependCmd, State.loadCmd_pos, Nat.add_zero, ← hpos]
  rfl

section Request

variable {s t : State} {frames : List Byte} (tail : List Byte)
  (hfive : frames.length % 5 = 0) (hloop : frameLoop (frames.length / 5) (s.loadCmd frames) = .next t)

include hfive hloop

/-- What runs after `frames`, of which `t` is the outcome, is what the loop makes of `tail` from there. -/
theorem frameLoop_loadCmd_append :
    frameLoop ((frames ++ tail).length / 5) (s.loadCmd (frames ++ tail)) =
      frameLoop (tail.length / 5) (t.appendCmd tail) := by
  have hcount : (frames ++ tail).length / 5 = frames.length / 5 + tail.length / 5 := by
    rw [List.length_append]
    omega
  have hfit : (s.loadCmd frames).pos + 5 * (frames.length / 5) ≤ (s.loadCmd frames).cmd.length := by
    rw [State.loadCmd_pos, State.loadCmd_cmd]
    omega
  rw [hcount, State.loadCmd_append]
  exact frameLoop_add _ _ _ _ (frameLoop_appendCmd tail _ _ _ hfit hloop)

/-- After a DeviceFatal nothing more runs, and the request ends as without the bytes that follow (R112). -/
theorem decodeRequest_append_of_halted (hne : frames ≠ []) (ht : t.phase = .halted) :
    decodeRequest (.data (frames ++ tail)) false s = decodeRequest (.data frames) false s := by
  rw [decodeRequest_data s (List.append_ne_nil_of_left_ne_nil hne tail), decodeRequest_data s hne,
    frameLoop_loadCmd_append tail hfive hloop, frameLoop_halted (t.appendCmd tail) _ ht, hloop]
  rfl

/-- With no DeviceFatal, the request goes on from `t` as the request of the bytes that follow (R101). -/
theorem decodeRequest_append_of_not_halted (htail : tail ≠ []) (ht : t.phase ≠ .halted) :
    decodeRequest (.data (frames ++ tail)) false s = decodeRequest (.data tail) false t := by
  have hcmd : t.cmd = frames := by rw [(frameLoop_frame hloop).1]; rfl
  have hpos : t.pos = frames.length := by
    rw [frameLoop_pos _ _ _ (by rw [State.loadCmd_pos, State.loadCmd_cmd]; omega) hloop ht, State.loadCmd_pos]
    omega
  rw [decodeRequest_data s (List.append_ne_nil_of_right_ne_nil frames htail), decodeRequest_data t htail,
    frameLoop_loadCmd_append tail hfive hloop, appendCmd_eq_prependCmd_loadCmd tail hcmd hpos,
    thenNext_finishDecode_prependCmd]

end Request

/-! ### The step in two parts -/

/-- Where nothing is held of a last answer, taking a request away changes nothing else. -/
theorem State.takeRequest_self {s : State} (hwire : s.wire = []) (haction : s.action = none) :
    s.takeRequest s.requests = s := by
  rw [State.takeRequest, ← hwire, ← haction]

/-- The loop in a session ends in the session, with the Action as it was, or with a DeviceFatal. -/
theorem frameLoop_of_active {n : Nat} {s t : State} (hp : s.phase = .active) (h : frameLoop n s = .next t) :
    t.phase = .active ∧ t.action = s.action ∨ t.phase = .halted ∧ t.action = some .fatal := by
  obtain ⟨-, ⟨hphase, haction⟩ | ⟨hphase, hhalted | haction⟩⟩ := frameLoop_frame h
  · exact .inl ⟨hphase.trans hp, haction⟩
  · exact absurd (hp.symm.trans hhalted) (by decide)
  · exact .inr ⟨hphase, haction⟩

/-- An undisturbed DECODE request in a session, within the bound of R8, runs. -/
theorem step_decode_data {s : State} {bytes : List Byte} (rest : List Request) (hp : s.phase = .active)
    (hl : bytes.length ≤ s.cfg.cmdBufMax) :
    step { s with requests := .decode (.data bytes) false :: rest } =
      decodeRequest (.data bytes) false (s.takeRequest rest) :=
  step_decode _ hp hl rfl

/-- A DECODE request served next after one whose loop ended in `t` starts from `t`: only the buffer, the cursor and the
Action were the first request's own (R50). -/
theorem step_decode_finishDecode {t : State} {bytes : List Byte} (hp : t.phase = .active) (hwire : t.wire = [])
    (haction : t.action = none) (hne : bytes ≠ []) (hl : bytes.length ≤ t.cfg.cmdBufMax) :
    step { finishDecode t with requests := .decode (.data bytes) false :: t.requests } =
      decodeRequest (.data bytes) false t := by
  have hon : t.phase ≠ .halted := by rw [hp]; decide
  have hloaded : (((t.loadCmd []).setAction .continued).takeRequest t.requests).loadCmd bytes = t.loadCmd bytes :=
    (congrArg (State.loadCmd bytes) (State.takeRequest_self hwire haction) :)
  rw [step_decode_data t.requests (by rw [finishDecode_phase, hp]) (by rwa [finishDecode_cfg]),
    finishDecode_of_not_halted hon, decodeRequest_data _ hne, hloaded, decodeRequest_data t hne]

/-- Settles O22: the request is cut behind `frames`, and whether a DeviceFatal has happened there decides whether the
rest of it runs. -/
theorem deviceFatalEndsTheRequest : Obligations.DeviceFatalEndsTheRequest := by
  intro s u frames tail rest hp hne hfive htail hmax hu
  rw [step_decode_data rest hp (by omega)] at hu
  rw [step_decode_data rest hp (by rwa [List.length_append])]
  obtain ⟨t, ht⟩ := frameLoop_next (frames.length / 5) ((s.takeRequest rest).loadCmd frames)
  obtain rfl : finishDecode t = u := by
    rw [decodeRequest_data _ hne, ht] at hu
    exact Host.Outcome.next.inj hu
  have hphase := finishDecode_phase t
  obtain ⟨hactive, haction⟩ | ⟨hhalted, hfatal⟩ :=
    frameLoop_of_active (s := (s.takeRequest rest).loadCmd frames) hp ht
  · have hon : t.phase ≠ .halted := by rw [hactive]; decide
    refine ⟨fun h => absurd (hphase.symm.trans h) hon, fun _ => ⟨?_, ?_⟩⟩
    · rw [finishDecode_of_not_halted hon]
      rfl
    · have hframe := (frameLoop_frame ht).1
      have hwire : t.wire = [] := by rw [hframe]; rfl
      have hrest : t.requests = rest := by rw [hframe]; rfl
      have hcfg : t.cfg = s.cfg := by rw [hframe]; rfl
      rw [decodeRequest_append_of_not_halted tail hfive ht htail hon, ← hrest]
      exact (step_decode_finishDecode hactive hwire haction htail (by rw [hcfg]; omega)).symm
  · refine ⟨fun _ => ⟨?_, ?_⟩, fun h => absurd (hphase.trans hhalted) h⟩
    · rw [finishDecode_of_halted hhalted]
      exact hfatal
    · rw [decodeRequest_append_of_halted tail hfive ht hne hhalted, hu]

end Sys2Proof.Machine
end

section
/-! PROOF. The bytes of the 16-bit and the 32-bit mode (R140, R144): where in `WIRE` the bytes of a component stand. -/

namespace Sys2Proof.Machine

/-! ### Byte order -/

theorem extractLsb'_eq_ofNat_div {w : Nat} (x : BitVec w) (start len : Nat) :
    x.extractLsb' start len = BitVec.ofNat len (x.toNat / 2 ^ start) := by
  rw [← Nat.shiftRight_eq_div_pow]
  rfl

theorem le16_eq_extractLsb' (w : BitVec 16) : le16 w = [w.extractLsb' 0 8, w.extractLsb' 8 8] := by
  simp only [extractLsb'_eq_ofNat_div, pow_zero, Nat.div_one, le16]

theorem le32_eq_extractLsb' (w : F32) :
    le32 w = [w.extractLsb' 0 8, w.extractLsb' 8 8, w.extractLsb' 16 8, w.extractLsb' 24 8] := by
  simp only [extractLsb'_eq_ofNat_div, pow_zero, Nat.div_one, le32]

theorem toNat_narrow16 (q : F32) : ((narrow16 q).toNat : Int) = intOf q % 65536 := by
  rw [narrow16, BitVec.toNat_ofInt]
  omega

/-! ### Where the bytes of a component stand -/

/-- The bytes `bs` stand at offset `off` of `wire`. -/
def BytesAt (wire : List Byte) (off : Nat) (bs : List Byte) : Prop := bs <+: wire.drop off

theorem BytesAt.mono {wire wire' : List Byte} {off : Nat} {bs : List Byte} (h : BytesAt wire off bs)
    (hp : wire <+: wire') : BytesAt wire' off bs := h.trans (hp.drop off)

theorem BytesAt.getElem?_add {wire : List Byte} {off j : Nat} {bs : List Byte} (h : BytesAt wire off bs)
    (hj : j < bs.length) : wire[off + j]? = some bs[j] := by
  rw [← List.getElem?_drop]
  exact List.prefix_iff_getElem?.mp h j hj

theorem bytesAt_append (wire bs : List Byte) : BytesAt (wire ++ bs) wire.length bs := by
  rw [BytesAt, List.drop_left]

/-- Every component leaves the bytes already in `WIRE` as they are (R53). -/
def ExtendsWire (component : Channel → F32 → State → State) : Prop :=
  ∀ c x s, s.wire <+: (component c x s).wire

theorem pairFold_extends {component : Channel → F32 → State → State} (h : ExtendsWire component) (ps : List Pair)
    (s : State) : s.wire <+: (pairFold component ps s).wire :=
  pairFold_induction (P := fun u => s.wire <+: u.wire) (fun c x _ hu => hu.trans (h c x _)) (fun _ _ hu => hu) ps s
    (List.prefix_refl _)

/-- What a component emits, wherever it starts, stands in the bytes of the block at the offset of its pair and
channel. -/
theorem bytesAt_pairFold {n : Nat} {component : Channel → F32 → State → State} (hlen : EmitsEach n component)
    (hext : ExtendsWire component) {p : Pair} {c : Channel} {bs : List Byte}
    (hbs : ∀ s, BytesAt (component c (p.at c) s).wire s.wire.length bs) :
    ∀ (ps : List Pair) (k : Nat) (s : State), ps[k]? = some p →
      BytesAt (pairFold component ps s).wire (s.wire.length + (2 * n * k + n * chanOff c)) bs
  | [], _, _, hk => by cases hk
  | p' :: ps, 0, s, hk => by
    obtain rfl : p' = p := Option.some.inj hk
    have hrest := pairFold_extends hext ps ((component .q p'.q (component .i p'.i s)).setIdx (s.idx + 1))
    cases c with
    | i => exact ((hbs s).mono (hext .q p'.q _)).mono hrest
    | q =>
      have hq := (hbs (component .i p'.i s)).mono hrest
      rw [hlen] at hq
      simpa [pairFold, chanOff] using hq
  | p' :: ps, k + 1, s, hk => by
    have ih := bytesAt_pairFold hlen hext hbs ps k ((component .q p'.q (component .i p'.i s)).setIdx (s.idx + 1)) hk
    rw [State.setIdx_wire, hlen, hlen] at ih
    rw [pairFold]
    convert ih using 1
    ring

theorem bytesAt_quantizeBlock {n k : Nat} {component : Channel → F32 → State → State} (hb : KeepsBlock component)
    (hlen : EmitsEach n component) (hext : ExtendsWire component) {s : State} {p : Pair} {c : Channel}
    {bs : List Byte} (hk : s.sample[k]? = some p)
    (hbs : ∀ u, BytesAt (component c (p.at c) u).wire u.wire.length bs) :
    BytesAt (quantizeBlock component s).wire (2 * n * k + n * chanOff c) bs := by
  rw [quantizeBlock_eq hb]
  simpa using bytesAt_pairFold hlen hext hbs s.sample k (s.clearWire.setIdx 0) hk

/-! ### The 16-bit mode -/

theorem extendsWire_quant16 (g16 : F32) : ExtendsWire (quant16Component g16) := fun c x s => by
  rw [quant16Component, emit16_eq]
  exact List.prefix_append _ _

theorem bytesAt_quant16Component {g16 x : F32} (c : Channel) (h : finite32 (fmul32 g16 x) = true) (s : State) :
    BytesAt (quant16Component g16 c x s).wire s.wire.length (le16 (narrow16 (roundHalfAway (fmul32 g16 x)))) := by
  rw [quant16Component, emit16_eq, if_pos h]
  exact bytesAt_append _ _

/-- Settles O29: the components emit two bytes each, so the word of a component stands at the offset of its pair and
channel, and the mode only emits. -/
theorem quant16EmitsTheRoundedSamples : Obligations.Quant16EmitsTheRoundedSamples := by
  intro s
  obtain ⟨hframe, hidx⟩ := execQuant16_frame (s := s) rfl
  refine ⟨_, rfl, ?_, quantizeBlock_wire_length (keepsBlock_quant16 _) (emitsEach_quant16 _) s, ?_⟩
  · rw [OnlyEmits, hidx] at hframe
    exact hframe
  · intro k p c hk hfin
    have hword := bytesAt_quantizeBlock (keepsBlock_quant16 _) (emitsEach_quant16 _) (extendsWire_quant16 _) hk
      (bytesAt_quant16Component c hfin)
    rw [le16_eq_extractLsb'] at hword
    exact ⟨narrow16 (roundHalfAway (scaled16 s (p.at c))), toNat_narrow16 _,
      hword.getElem?_add (j := 0) Nat.zero_lt_two, hword.getElem?_add (j := 1) Nat.one_lt_two⟩

/-! ### The 32-bit mode -/

/-- All that the fold of the 32-bit mode does: the patterns of every pair, and the sample index. -/
theorem pairFold_pass32 : ∀ (ps : List Pair) (s : State),
    pairFold pass32Component ps s =
      { s with idx := s.idx + ps.length, wire := s.wire ++ ps.flatMap fun p => le32 p.i ++ le32 p.q }
  | [], s => by simp [pairFold]
  | p :: ps, s => by
    rw [pairFold, pairFold_pass32 ps]
    simp [pass32Component_eq, State.setIdx, Nat.add_assoc, Nat.add_comm 1]

/-- Settles O30: the mode is the fold over the block, and `le32` is the four bytes of a pattern. -/
theorem pass32CopiesTheBlock : Obligations.Pass32CopiesTheBlock := by
  intro s
  refine congrArg Host.Outcome.next ?_
  rw [quantizeBlock_eq keepsBlock_pass32, pairFold_pass32]
  simp only [le32_eq_extractLsb']
  rfl

end Sys2Proof.Machine
end

section
/-! PROOF. What the quantizer leaves unchanged: on an empty block (R132) and as a QUANTIZE request (R147). -/

namespace Sys2Proof.Machine

/-! ### The empty block -/

/-- The instructions in the mode format are the three modes (R91). -/
theorem format_mode_cases {i : Instr} (h : i.format = .mode) : i = .quant8 ∨ i = .quant16 ∨ i = .pass32 := by
  cases i with
  | quant8 => exact .inl rfl
  | quant16 => exact .inr (.inl rfl)
  | pass32 => exact .inr (.inr rfl)
  | _ => cases h

theorem quantizeBlock_of_nil (component : Channel → F32 → State → State) {s : State} (h : s.sample = []) :
    quantizeBlock component s = { s with wire := [], idx := 0 } := by
  have hlen : s.sample.length = 0 := List.length_eq_zero_iff.mpr h
  rw [quantizeBlock, hlen]
  rfl

/-- Settles O31: each mode is the pair loop, which no pair enters. -/
theorem emptyBlockGivesNoBytes : Obligations.EmptyBlockGivesNoBytes := by
  intro i s hi hempty
  obtain rfl | rfl | rfl := format_mode_cases hi <;>
    exact congrArg Host.Outcome.next (quantizeBlock_of_nil _ hempty)

/-! ### Purity -/

/-- A mode that only emits changes none of the registers of the 8-bit mode. -/
theorem OnlyEmits.registers {s t : State} (h : OnlyEmits s t) :
    t.ds = s.ds ∧ t.dbg = s.dbg ∧ t.rnd = s.rnd ∧ t.drawn = s.drawn := by
  rw [OnlyEmits] at h
  refine ⟨?_, ?_, ?_, ?_⟩ <;> rw [h]

theorem OnlyEmits.onlyQuantizes {s t : State} (h : OnlyEmits s t) : OnlyQuantizes s t := by
  obtain ⟨hds, hdbg, hrnd, hdrawn⟩ := h.registers
  rwa [OnlyQuantizes, hds, hdbg, hrnd, hdrawn]

/-- The mode that the bit depth of `s` selects quantizes, and outside the 8-bit mode it only emits (R141, R145). -/
theorem fetchMode_frame (s u : State) :
    ∃ i t, fetchMode s = .ok i [] ∧ exec i u = .next t ∧ OnlyQuantizes u t ∧ t.idx = 0 ∧
      (s.ts.bitDepth ≠ .d8 → OnlyEmits u t) := by
  unfold fetchMode
  cases s.ts.bitDepth with
  | d8 =>
    obtain ⟨hframe, hidx⟩ := execQuant8_frame (s := u) rfl
    exact ⟨.quant8, _, rfl, rfl, hframe, hidx, fun h => absurd rfl h⟩
  | d16 =>
    obtain ⟨hframe, hidx⟩ := execQuant16_frame (s := u) rfl
    exact ⟨.quant16, _, rfl, rfl, hframe.onlyQuantizes, hidx, fun _ => hframe⟩
  | d32 =>
    obtain ⟨hframe, hidx⟩ := execPass32_frame (s := u) rfl
    exact ⟨.pass32, _, rfl, rfl, hframe.onlyQuantizes, hidx, fun _ => hframe⟩

/-- Settles O33: the request takes itself from the queue, runs the mode, whose frame is known, and discards the block. -/
theorem quantizeIsPure : Obligations.QuantizeIsPure := by
  intro s block rest hp hmax hreq
  obtain ⟨i, t, hmode, hexec, hframe, hidx, hemits⟩ := fetchMode_frame s ((s.takeRequest rest).loadSample block)
  refine ⟨t.loadSample [], ?_, ?_, fun hd => (hemits hd).registers⟩
  · rw [step_quantize s hp hmax hmode hreq, thenNext_exec _ _ _ hexec]
  · rw [OnlyQuantizes, hidx] at hframe
    exact congrArg (State.loadSample []) hframe

end Sys2Proof.Machine
end

section
/-! PROOF. The disconnect condition as a whole DECODE request (R161). -/

namespace Sys2Proof.Machine

theorem disconnectCondition_iff (read : SocketRead) (sendFailed : Bool) :
    disconnectCondition read sendFailed = true ↔ readLength read ≤ 0 ∨ sendFailed = true := by
  rw [disconnectCondition, Bool.or_eq_true, decide_eq_true_iff]

/-- The disconnect check comes before the buffer is loaded (R166), so the bytes of the read do not matter. -/
theorem decodeRequest_disconnect {read : SocketRead} {sendFailed : Bool} (s : State)
    (h : disconnectCondition read sendFailed = true) :
    decodeRequest read sendFailed s = .next (raiseDisconnect s) :=
  if_pos h

/-- Settles O19: the admitted request ends at the disconnect check, with no register changed since it was taken. -/
theorem disconnectChangesNoRegister : Obligations.DisconnectChangesNoRegister := by
  intro s read sendFailed rest hp hmax hcond hreq
  have hdisc := (disconnectCondition_iff read sendFailed).mpr hcond
  rw [step_decode s hp hmax hreq, decodeRequest_disconnect _ hdisc, raiseDisconnect_eq]
  rfl

end Sys2Proof.Machine
end

section
/-! PROOF. POR and the session boundaries as whole requests (R190 to R193): where each is admitted, and what it leaves. -/

namespace Sys2Proof.Machine

/-! ### Admission -/

theorem step_of_not_admitted {s : State} {r : Request} {rest : List Request} (hadmit : phaseAdmits s.phase r = false)
    (h : s.requests = r :: rest) : step s = .refused .notAdmitted := by
  have hclosed : ¬phaseAdmits (s.takeRequest rest).phase r = true := Bool.eq_false_iff.mp hadmit
  rw [step_cons s h]
  exact if_neg hclosed

theorem phaseAdmits_por (p : Phase) : phaseAdmits p .por = true := by
  cases p <;> rfl

theorem phaseAdmits_sessionStart_of_ne {p : Phase} (h : p ≠ .idle) : phaseAdmits p .sessionStart = false := by
  cases p with
  | idle => exact absurd rfl h
  | _ => rfl

theorem phaseAdmits_sessionEnd_of_ne {p : Phase} (h : p ≠ .active) : phaseAdmits p .sessionEnd = false := by
  cases p with
  | active => exact absurd rfl h
  | _ => rfl

/-! ### The admitted requests -/

/-- A POR runs in any phase, exactly if the parameters are legal (R190, R191). -/
theorem step_por {s : State} {rest : List Request} (h : s.requests = .por :: rest) :
    step s =
      if configLegal s.cfg then .next (powerOnReset (s.takeRequest rest)) else .refused .invalidConfiguration := by
  rw [step_cons s h, serve, phaseAdmits_por]
  rfl

theorem step_sessionStart {s : State} {rest : List Request} (hp : s.phase = .idle)
    (h : s.requests = .sessionStart :: rest) : step s = .next (sessionStart (s.takeRequest rest)) := by
  rw [step_cons s h, serve, State.takeRequest_phase, hp]
  rfl

theorem step_sessionEnd {s : State} {rest : List Request} (hp : s.phase = .active)
    (h : s.requests = .sessionEnd :: rest) : step s = .next (sessionEnd (s.takeRequest rest)) := by
  rw [step_cons s h, serve, State.takeRequest_phase, hp]
  rfl

/-! ### What they leave -/

/-- The two draws of SESSION_START are those of `drawAt`: the second is made from where the first one leaves the random
port (R192). -/
theorem sessionStart_eq (s : State) :
    sessionStart s =
      { s with
        ds := { carryI := drawAt s 0, carryQ := drawAt s 1 }
        dbg := { errAccI := 0#32, errAccQ := 0#32 }
        phase := .active
        rnd := s.rnd.drop 2
        drawn := s.drawn + 2 } := by
  have hsecond : (seedCarry .i s).nextDraw = drawAt s 1 := (nextDraw_eq_drawAt _).trans (drawAt_dropDraw s 0)
  rw [sessionStart, seedCarry, hsecond, seedCarry, nextDraw_eq_drawAt, ← List.tail_drop, List.drop_one]
  rfl

/-- Settles O48: a POR is admitted in every phase, so only the legality of the parameters decides, and `powerOnReset`
says the rest. -/
theorem porSetsTheInitialConfiguration : Obligations.PorSetsTheInitialConfiguration := by
  intro s rest hreq
  refine ⟨fun hlegal => ⟨(powerOnReset s).ds, (powerOnReset s).freeUsed, ?_⟩, fun hillegal => ?_⟩
  · rw [step_por hreq, if_pos hlegal]
    rfl
  · rw [step_por hreq, hillegal]
    rfl

/-- Settles O49: from PHASE IDLE by `sessionStart_eq`; no other phase admits the request. -/
theorem sessionStartSeedsTheCarries : Obligations.SessionStartSeedsTheCarries := by
  intro s rest hreq
  refine ⟨fun hidle => ?_, fun hother => step_of_not_admitted (phaseAdmits_sessionStart_of_ne hother) hreq⟩
  rw [step_sessionStart hidle hreq, sessionStart_eq]
  rfl

/-- Settles O50: `sessionEnd` writes PHASE only, and no phase but ACTIVE admits the request. -/
theorem sessionEndOnlyChangesThePhase : Obligations.SessionEndOnlyChangesThePhase := by
  intro s rest hreq
  exact ⟨fun hactive => step_sessionEnd hactive hreq,
    fun hother => step_of_not_admitted (phaseAdmits_sessionEnd_of_ne hother) hreq⟩

end Sys2Proof.Machine
end

section
/-! PROOF. The decoder and the encoder are inverse to each other (R80, R84, R86, R91). -/

namespace Sys2Proof.Machine

/-! ### Command frames -/

theorem decode_frame (opcode : Byte) (p : Word) (rest : List Byte) :
    decode .cmd (frame opcode p ++ rest) = .ok (selectCommand opcode p) rest :=
  congrArg (fun w => Decoded.ok (selectCommand opcode w) rest) (be32_be32Bytes p)

/-- What the decoder accepts as a command is the command of five bytes. -/
theorem decode_cmd_cases {bs rest : List Byte} {i : Instr} (h : decode .cmd bs = .ok i rest) :
    ∃ opcode p, bs = frame opcode p ++ rest ∧ i = selectCommand opcode p := by
  match bs, h with
  | b0 :: b1 :: b2 :: b3 :: b4 :: _, h =>
    simp only [decode, Decoded.ok.injEq] at h
    obtain ⟨rfl, rfl⟩ := h
    exact ⟨b0, be32 b1 b2 b3 b4, by rw [frame, be32Bytes_be32]; rfl, rfl⟩

theorem format_selectCommand (opcode : Byte) (p : Word) : (selectCommand opcode p).format = .cmd := by
  unfold selectCommand
  split_ifs <;> rfl

/-- The map gives the five listed opcodes their own commands, so a NOPHI it gives has another opcode (R84, R109). -/
theorem wellFormed_selectCommand (opcode : Byte) (p : Word) : (selectCommand opcode p).wellFormed = true := by
  rw [selectCommand_eq]
  split_ifs
  case neg => exact decide_eq_true (by omega)
  all_goals rfl

theorem encode_selectCommand (opcode : Byte) (p : Word) : encode (selectCommand opcode p) = frame opcode p := by
  unfold selectCommand
  split_ifs with h0 h1 h2 h3 h4
  · rw [h0]; rfl
  · rw [h1]; rfl
  · rw [h2]; rfl
  · rw [h3]; rfl
  · rw [h4]; rfl
  · rfl

/-! ### Mode bytes -/

theorem decode_mode_cases {bs rest : List Byte} {i : Instr} (h : decode .mode bs = .ok i rest) :
    ∃ b, bs = b :: rest ∧ selectMode b = some i := by
  match bs, h with
  | b :: _, h =>
    simp only [decode] at h
    split at h
    · cases h
      exact ⟨b, rfl, ‹_›⟩
    · cases h

theorem selectMode_some {b : Byte} {i : Instr} (h : selectMode b = some i) :
    i.wellFormed = true ∧ i.format = .mode ∧ encode i = [b] := by
  unfold selectMode at h
  split_ifs at h with h8 h16 h32 <;> cases h
  · exact ⟨rfl, rfl, by rw [h8]; rfl⟩
  · exact ⟨rfl, rfl, by rw [h16]; rfl⟩
  · exact ⟨rfl, rfl, by rw [h32]; rfl⟩

/-! ### The two directions -/

/-- Settles O2: a frame decodes to what the opcode map makes of its opcode, and a well-formed NOPHI has none of the
opcodes of the other commands. -/
theorem decodeOfEncodeIsTheInstruction : Obligations.DecodeOfEncodeIsTheInstruction := by
  intro i rest hi
  cases i with
  | nop0 p => exact decode_frame 0x00#8 p rest
  | setfreq p => exact decode_frame 0x01#8 p rest
  | setrate p => exact decode_frame 0x02#8 p rest
  | info3 p => exact decode_frame 0x03#8 p rest
  | setgain p => exact decode_frame 0x04#8 p rest
  | nophi opcode p =>
    rw [← selectCommand_of_lt (of_decide_eq_true hi) p, encode_selectCommand, format_selectCommand]
    exact decode_frame opcode p rest
  | quant8 => rfl
  | quant16 => rfl
  | pass32 => rfl

/-- Settles O3: what the decoder accepts is what the opcode map or the mode selector gives, and each of these encodes to
the bytes it was selected by. -/
theorem encodeOfDecodeIsTheBytes : Obligations.EncodeOfDecodeIsTheBytes := by
  intro f bs i rest h
  cases f with
  | cmd =>
    obtain ⟨opcode, p, rfl, rfl⟩ := decode_cmd_cases h
    exact ⟨wellFormed_selectCommand opcode p, format_selectCommand opcode p, by rw [encode_selectCommand]⟩
  | mode =>
    obtain ⟨b, rfl, hsel⟩ := decode_mode_cases h
    obtain ⟨hwf, hformat, hencode⟩ := selectMode_some hsel
    exact ⟨hwf, hformat, by rw [hencode]; rfl⟩

/-- Settles O5: five bytes are a frame by the decoder's first clause, and no shorter list matches it. -/
theorem fiveBytesAreAFrameAndFewerAreNone : Obligations.FiveBytesAreAFrameAndFewerAreNone := by
  intro bs
  constructor
  · intro hlen
    obtain ⟨i, rest, h⟩ := decode_cmd_of_length hlen
    obtain ⟨opcode, p, rfl, rfl⟩ := decode_cmd_cases h
    exact ⟨_, h, wellFormed_selectCommand opcode p⟩
  · intro hlen
    match bs, hlen with
    | [], _ => rfl
    | [_], _ => rfl
    | [_, _], _ => rfl
    | [_, _, _], _ => rfl
    | [_, _, _, _], _ => rfl

/-- Settles O1: the decoder is evaluated on the six words. -/
theorem writtenWordsDecode : Obligations.WrittenWordsDecode := by
  unfold Obligations.WrittenWordsDecode
  decide

end Sys2Proof.Machine
end

section
/-! PROOF. The binary32 operations (R12, R149): finite operands give the exact result rounded once, and what the infinities
and the NaNs give. -/

namespace Sys2Proof.Machine

/-! ### Special values -/

theorem unpack32_cases (b : F32) :
    unpack32 b = .nan ∨ (∃ s, unpack32 b = .inf s) ∨ ∃ s m, unpack32 b = .fin s m := by
  cases h : unpack32 b with
  | nan => exact .inl rfl
  | inf s => exact .inr (.inl ⟨s, rfl⟩)
  | fin s m => exact .inr (.inr ⟨s, m, rfl⟩)

theorem signBit_of_unpack32_inf {b : F32} {s : Bool} (h : unpack32 b = .inf s) : signBit b = s := by
  unfold unpack32 at h
  split at h
  · split at h <;> cases h
    rfl
  · cases h

theorem unpack32_pack32_infBits (s : Bool) : unpack32 (pack32 s infBits) = .inf s := by
  cases s <;> decide

theorem unitsOf_eq_zero {b : Nat} (h : unitsOf b = 0) : b = 0 := by
  by_contra hb
  have hone : unitsOf 1 ≤ unitsOf b := unitsOf_mono (Nat.pos_of_ne_zero hb)
  rw [h] at hone
  exact absurd hone (by decide)

theorem signedUnits_not (s : Bool) (m : Nat) : signedUnits (!s) m = -signedUnits s m := by
  cases s
  · rfl
  · exact (neg_neg _).symm

theorem signedUnits_mul_signedUnits (s t : Bool) (m n : Nat) :
    signedUnits s m * signedUnits t n = signedUnits (s != t) (m * n) := by
  cases s <;> cases t <;> simp [signedUnits]

/-! ### Sums and differences -/

theorem fadd32_of_fin {a b : F32} {s t : Bool} {m n : Nat} (ha : unpack32 a = .fin s m) (hb : unpack32 b = .fin t n) :
    fadd32 a b = roundUnits (s && t) (signedUnits s m + signedUnits t n) := by
  rw [fadd32, ha, hb, addVals]

theorem fsub32_of_fin {a b : F32} {s t : Bool} {m n : Nat} (ha : unpack32 a = .fin s m) (hb : unpack32 b = .fin t n) :
    fsub32 a b = roundUnits (s && !t) (signedUnits s m - signedUnits t n) := by
  rw [fsub32, ha, hb, negVal, addVals, signedUnits_not, sub_eq_add_neg]

theorem isNaN32_addVals_nan_right (op : FloatOp) (a b : F32) (v : FVal) : isNaN32 (addVals op a b v .nan) = true := by
  cases v <;> exact isNaN32_nanResult op a b

theorem isNaN32_addVals_inf_not (op : FloatOp) (a b : F32) (s : Bool) :
    isNaN32 (addVals op a b (.inf s) (.inf (!s))) = true := by
  cases s <;> exact isNaN32_nanResult op a b

theorem isNaN32_fadd32_of_nan {a b : F32} (h : unpack32 a = .nan ∨ unpack32 b = .nan) : isNaN32 (fadd32 a b) = true := by
  unfold fadd32
  obtain h | h := h <;> rw [h]
  · exact isNaN32_nanResult _ a b
  · exact isNaN32_addVals_nan_right _ a b _

theorem isNaN32_fsub32_of_nan {a b : F32} (h : unpack32 a = .nan ∨ unpack32 b = .nan) : isNaN32 (fsub32 a b) = true := by
  unfold fsub32
  obtain h | h := h <;> rw [h]
  · exact isNaN32_nanResult _ a b
  · exact isNaN32_addVals_nan_right _ a b _

theorem isNaN32_fsub32_of_inf {a b : F32} {s : Bool} (ha : unpack32 a = .inf s) (hb : unpack32 b = .inf s) :
    isNaN32 (fsub32 a b) = true := by
  rw [fsub32, ha, hb]
  exact isNaN32_addVals_inf_not _ a b s

/-- Settles O40: a finite sum or difference is an exact number of units rounded once, and a difference is the sum with
the other sign. -/
theorem sumAndDifferenceAreRoundedOnceToNearestEven : Obligations.SumAndDifferenceAreRoundedOnceToNearestEven := by
  intro a b
  refine ⟨fun sa sb ma mb ha hb => ⟨?_, ?_⟩, fun h => ⟨isNaN32_fadd32_of_nan h, isNaN32_fsub32_of_nan h⟩,
    fun s ha hb => ?_, fun s => isNaN32_fsub32_of_inf⟩
  · rw [fadd32_of_fin ha hb]
    exact roundedOnce_roundUnits _ _
  · rw [fsub32_of_fin ha hb]
    exact roundedOnce_roundUnits _ _
  · rw [fadd32, ha, hb]
    exact isNaN32_addVals_inf_not _ a b s

/-! ### Products -/

theorem roundMag_lt_two_pow (num den : Nat) : roundMag num den < 2 ^ 31 := (roundMag_le num den).trans_lt (by decide)

theorem fmul32_of_fin {a b : F32} {s t : Bool} {m n : Nat} (ha : unpack32 a = .fin s m) (hb : unpack32 b = .fin t n) :
    fmul32 a b = pack32 (s != t) (roundMag (m * n) (2 ^ 149)) := by
  rw [fmul32, ha, hb, mulVals]

theorem isNaN32_fmul32_of_nan {a b : F32} (h : unpack32 a = .nan ∨ unpack32 b = .nan) : isNaN32 (fmul32 a b) = true := by
  unfold fmul32
  obtain h | h := h <;> rw [h]
  · exact isNaN32_nanResult _ a b
  · cases unpack32 a <;> exact isNaN32_nanResult _ a b

/-- A number that is neither a NaN nor a zero is an infinity or has a positive magnitude. -/
theorem unpack32_of_not_nan_of_ne_zero {b : F32} (hnan : isNaN32 b = false) (hzero : magBits b ≠ 0) :
    unpack32 b = .inf (signBit b) ∨ ∃ m, m ≠ 0 ∧ unpack32 b = .fin (signBit b) m := by
  obtain h | ⟨s, h⟩ | ⟨s, m, h⟩ := unpack32_cases b
  · rw [(isNaN32_iff b).mpr h] at hnan
    cases hnan
  · exact .inl (by rw [signBit_of_unpack32_inf h, h])
  · obtain ⟨-, rfl, rfl⟩ := unpack32_eq_fin h
    exact .inr ⟨_, fun h0 => hzero (unitsOf_eq_zero h0), h⟩

/-- The left operand an infinity, the right one neither a NaN nor a zero. -/
theorem fmul32_inf_left {a b : F32} {s : Bool} (ha : unpack32 a = .inf s) (hnan : isNaN32 b = false)
    (hzero : magBits b ≠ 0) : fmul32 a b = pack32 (s != signBit b) infBits := by
  obtain hb | ⟨m, hm, hb⟩ := unpack32_of_not_nan_of_ne_zero hnan hzero
  · rw [fmul32, ha, hb, mulVals]
  · rw [fmul32, ha, hb, mulVals, if_neg hm]

/-- The right operand an infinity, the left one neither a NaN nor a zero. -/
theorem fmul32_inf_right {a b : F32} {s : Bool} (hb : unpack32 b = .inf s) (hnan : isNaN32 a = false)
    (hzero : magBits a ≠ 0) : fmul32 a b = pack32 (signBit a != s) infBits := by
  obtain ha | ⟨m, hm, ha⟩ := unpack32_of_not_nan_of_ne_zero hnan hzero
  · rw [fmul32, ha, hb, mulVals]
  · rw [fmul32, ha, hb, mulVals, if_neg hm]

/-- Settles O41: a finite product is the product of the magnitudes rounded once under the exclusive or of the signs; the
other clauses are the rows of `mulVals` with an infinity or a NaN. -/
theorem productIsRoundedOnceToNearestEven : Obligations.ProductIsRoundedOnceToNearestEven := by
  intro a b
  refine ⟨fun sa sb ma mb ha hb => ?_, isNaN32_fmul32_of_nan, fun s t h => ?_, fun s h => ?_⟩
  · rw [fmul32_of_fin ha hb, signedUnits_mul_signedUnits]
    exact ⟨roundedOnce_pack32 _ _ _ (Nat.two_pow_pos 149), signBit_pack32 _ _ (roundMag_lt_two_pow _ _)⟩
  · unfold fmul32
    obtain ⟨ha, hb⟩ | ⟨ha, hb⟩ := h <;> rw [ha, hb] <;> exact isNaN32_nanResult _ a b
  · obtain ⟨hinf, hnan, hzero⟩ | ⟨hinf, hnan, hzero⟩ := h <;> rw [signBit_of_unpack32_inf hinf]
    · rw [fmul32_inf_left hinf hnan hzero, unpack32_pack32_infBits]
    · rw [fmul32_inf_right hinf hnan hzero, unpack32_pack32_infBits]

/-! ### Quotients and payloads -/

theorem fdiv32_of_fin {a b : F32} {s t : Bool} {m n : Nat} (ha : unpack32 a = .fin s m) (hb : unpack32 b = .fin t n)
    (hn : n ≠ 0) : fdiv32 a b = pack32 (s != t) (roundMag (m * 2 ^ 149) n) := by
  rw [fdiv32, ha, hb, divVals, if_neg hn]

theorem isNaN32_fdiv32_of_nan {a b : F32} (h : unpack32 a = .nan ∨ unpack32 b = .nan) : isNaN32 (fdiv32 a b) = true := by
  unfold fdiv32
  obtain h | h := h <;> rw [h]
  · exact isNaN32_nanResult _ a b
  · cases unpack32 a <;> exact isNaN32_nanResult _ a b

/-- Settles O42: a quotient of finite numbers is the quotient of the magnitudes rounded once under the exclusive or of the
signs. -/
theorem quotientIsRoundedOnceToNearestEven : Obligations.QuotientIsRoundedOnceToNearestEven := by
  intro a b
  refine ⟨fun sa sb ma mb ha hb hmb => ?_, isNaN32_fdiv32_of_nan⟩
  rw [fdiv32_of_fin ha hb hmb]
  exact ⟨roundedOnce_pack32 _ _ _ (Nat.pos_of_ne_zero hmb), signBit_pack32 _ _ (roundMag_lt_two_pow _ _)⟩

/-- Settles O43: the conversion rounds the payload's units once under a clear sign. -/
theorem payloadIsRoundedOnceToBinary32 : Obligations.PayloadIsRoundedOnceToBinary32 := by
  intro n
  have hunits : signedUnits false (n.toNat * 2 ^ 149) = (n.toNat : Int) * 2 ^ 149 := by
    rw [signedUnits, if_neg Bool.false_ne_true, Nat.cast_mul, Nat.cast_pow, Nat.cast_ofNat]
  rw [← hunits]
  exact ⟨roundedOnce_pack32 false _ 1 Nat.one_pos, signBit_pack32 _ _ (roundMag_lt_two_pow _ _)⟩

end Sys2Proof.Machine
end

section
/-! PROOF. The order of patterns through rounding: rounding never passes a number that is one itself (R12), so the dither
value stays below 1 (R134). -/

namespace Sys2Proof.Machine

theorem unitsOf_lt_succ (b : Nat) : unitsOf b < unitsOf (b + 1) := by
  obtain ⟨sh, q, rfl, hq, hlow, hu⟩ := unitsOf_form b
  rw [hu, Nat.add_assoc, unitsOf_place sh (q + 1) hq (by omega)]
  exact Nat.mul_lt_mul_of_pos_right (Nat.lt_succ_self q) (Nat.two_pow_pos sh)

/-- Larger patterns stand for larger numbers. -/
theorem unitsOf_strictMono : StrictMono unitsOf := strictMono_nat_of_lt_succ unitsOf_lt_succ

/-- A number that is at most a pattern's is rounded to at most that pattern. -/
theorem roundMag_le_of_le_unitsOf {num den b : Nat} (hden : 0 < den) (h : num ≤ unitsOf b * den) :
    roundMag num den ≤ b := by
  by_cases hinf : roundMag num den < infBits
  · have hnear := (roundMag_nearest num den b hden hinf).1
    refine unitsOf_strictMono.le_iff_le.mp (Nat.le_of_mul_le_mul_right ?_ hden)
    omega
  · by_contra hb
    have hmax : b < infBits := by have := roundMag_le num den; omega
    have hover : num < (2 ^ 25 - 1) * 2 ^ 252 * den :=
      h.trans_lt (Nat.mul_lt_mul_of_pos_right ((unitsOf_le_of_lt_infBits hmax).trans_lt (by decide)) hden)
    exact hinf (roundMag_lt num den hden hover)

/-- A number that is at least a pattern's is rounded to at least that pattern. -/
theorem le_roundMag_of_unitsOf_le {num den b : Nat} (hden : 0 < den) (hb : b ≤ infBits) (h : unitsOf b * den ≤ num) :
    b ≤ roundMag num den := by
  by_cases hinf : roundMag num den < infBits
  · have hnear := (roundMag_nearest num den b hden hinf).1
    refine unitsOf_strictMono.le_iff_le.mp (Nat.le_of_mul_le_mul_right ?_ hden)
    omega
  · omega

/-- A number that is a pattern's is rounded to that pattern. -/
theorem roundMag_unitsOf_mul {b den : Nat} (hden : 0 < den) (hb : b ≤ infBits) : roundMag (unitsOf b * den) den = b :=
  Nat.le_antisymm (roundMag_le_of_le_unitsOf hden le_rfl) (le_roundMag_of_unitsOf_le hden hb le_rfl)

theorem magBits_roundUnits (zeroNeg : Bool) (z : Int) : magBits (roundUnits zeroNeg z) = roundMag z.natAbs 1 := by
  unfold roundUnits
  split
  · subst z
    rw [magBits_pack32 _ _ (by decide)]
    decide +kernel
  · exact magBits_pack32 _ _ (roundMag_lt_two_pow _ _)

/-! ### The dither value -/

theorem magBits_of_lt {v : F32} (h : v.toNat < 2 ^ 31) : magBits v = v.toNat := Nat.mod_eq_of_lt h

/-- A number in `[0,1)` is at most the largest pattern below 1.0. -/
theorem unpack32_of_inUnit {v : F32} (h : inUnit v = true) :
    unpack32 v = .fin false (unitsOf (magBits v)) ∧ unitsOf (magBits v) ≤ unitsOf 0x3F7FFFFF := by
  have hlt : v.toNat < 0x3F800000 := of_decide_eq_true h
  have hmag : magBits v = v.toNat := magBits_of_lt (by omega)
  have hsign : signBit v = false := decide_eq_false (by omega)
  refine ⟨?_, unitsOf_mono (by omega)⟩
  rw [unpack32_of_finite ((finite32_iff v).mpr (by rw [infBits]; omega)), hsign]

/-- Settles O44: the exact difference of two numbers in `[0,1)` is no larger than the largest number below 1.0, and so
neither is the rounded one. -/
theorem ditherValueIsBelowOne : Obligations.DitherValueIsBelowOne := by
  intro rnd carry hr hc
  obtain ⟨hru, hrle⟩ := unpack32_of_inUnit hr
  obtain ⟨hcu, hcle⟩ := unpack32_of_inUnit hc
  rw [fsub32_of_fin hru hcu, magBits_roundUnits]
  refine Nat.lt_succ_of_le (roundMag_le_of_le_unitsOf (b := 0x3F7FFFFF) Nat.one_pos ?_)
  simp only [signedUnits, Bool.false_eq_true, if_false]
  omega

end Sys2Proof.Machine
end

section
/-! PROOF. `POW10` (R6): what its bounds allow, in terms of the power itself. -/

namespace Sys2Proof.Machine

/-! ### The pattern `POW10` returns -/

theorem pow10Range_le (below above den : Nat) :
    (pow10Range below above den).1 ≤ infBits ∧ (pow10Range below above den).2 ≤ infBits := by
  unfold pow10Range
  split_ifs
  · exact ⟨le_rfl, le_rfl⟩
  · exact ⟨Nat.zero_le _, by decide⟩
  · exact ⟨Nat.min_le_left _ _, (Nat.min_le_left _ _).trans (Nat.sub_le _ _)⟩

theorem pow10Bounds_le (neg : Bool) (m : Nat) :
    (pow10Bounds neg m).1 ≤ infBits ∧ (pow10Bounds neg m).2 ≤ infBits := by
  unfold pow10Bounds
  split_ifs
  · exact ⟨by decide, by decide⟩
  · exact ⟨by decide, by decide⟩
  · exact ⟨le_rfl, le_rfl⟩
  · exact pow10Range_le _ _ _
  · exact pow10Range_le _ _ _

theorem clamp_le {r : Nat × Nat} (h : r.1 ≤ infBits ∧ r.2 ≤ infBits) (n : Nat) : clamp r n ≤ infBits := by
  obtain ⟨-, hc⟩ := clamp_cases r n
  omega

theorem clamp_self (a n : Nat) : clamp (a, a) n = a := if_pos le_rfl

theorem toNat_ofNat_of_le_infBits {n : Nat} (h : n ≤ infBits) : (BitVec.ofNat 32 n).toNat = n := by
  rw [BitVec.toNat_ofNat]
  exact Nat.mod_eq_of_lt (h.trans_lt (by decide))

theorem pow10_of_fin {e : F32} {s : Bool} {m : Nat} (h : unpack32 e = .fin s m) :
    pow10 e = BitVec.ofNat 32 (clamp (pow10Bounds s m) (Config.openPow10 e).toNat) := by
  rw [pow10, h]

theorem toNat_pow10_of_fin {e : F32} {s : Bool} {m : Nat} (h : unpack32 e = .fin s m) :
    (pow10 e).toNat = clamp (pow10Bounds s m) (Config.openPow10 e).toNat := by
  rw [pow10_of_fin h, toNat_ofNat_of_le_infBits (clamp_le (pow10Bounds_le s m) _)]

/-- P2: not a NaN, and at least +0. -/
theorem toNat_pow10_le {e : F32} (h : isNaN32 e = false) : (pow10 e).toNat ≤ infBits := by
  obtain hn | ⟨s, hi⟩ | ⟨s, m, hf⟩ := unpack32_cases e
  · rw [(isNaN32_iff e).mpr hn] at h
    cases h
  · unfold pow10
    rw [hi]
    cases s
    · exact (toNat_ofNat_of_le_infBits le_rfl).le
    · have hle := clamp_le (r := (0, 2 ^ 23)) ⟨Nat.zero_le _, by decide⟩ (Config.openPow10 e).toNat
      exact (toNat_ofNat_of_le_infBits hle).trans_le hle
  · rw [toNat_pow10_of_fin hf]
    exact clamp_le (pow10Bounds_le s m) _

/-- P3, for both zeros. -/
theorem pow10_of_zero {e : F32} {s : Bool} (h : unpack32 e = .fin s 0) : pow10 e = 0x3F800000#32 := by
  rw [pow10_of_fin h, pow10Bounds, if_pos rfl, clamp_self]

theorem pow10Range_of_overflow {below above den : Nat} (h : (2 ^ 24 - 1) * 2 ^ 253 * den < below) :
    pow10Range below above den = (infBits, infBits) := if_pos h

theorem pow10Range_of_underflow {below above den : Nat} (hb : below ≤ (2 ^ 24 - 1) * 2 ^ 253 * den)
    (ha : above < 2 ^ 23 * den) : pow10Range below above den = (0, 2 ^ 23) := by
  rw [pow10Range, if_neg (Nat.not_lt.mpr hb), if_pos ha]

/-! ### The power in units -/

/-- Ten to the power of this many units, in units. -/
noncomputable def powerUnits (neg : Bool) (m : Nat) : ℝ := 2 ^ 149 * (10 : ℝ) ^ ((signedUnits neg m : ℝ) / 2 ^ 149)

theorem powerUnits_zero (neg : Bool) : powerUnits neg 0 = 2 ^ 149 := by
  have h : signedUnits neg 0 = 0 := by cases neg <;> rfl
  rw [powerUnits, h, Int.cast_zero, zero_div, Real.rpow_zero, mul_one]

/-- An exponent of at least `y` gives at least that power. -/
theorem le_powerUnits {neg : Bool} {m : Nat} {y : ℝ} (h : y * 2 ^ 149 ≤ signedUnits neg m) :
    2 ^ 149 * (10 : ℝ) ^ y ≤ powerUnits neg m := by
  unfold powerUnits
  have hy : y ≤ (signedUnits neg m : ℝ) / 2 ^ 149 := (le_div_iff₀ (by positivity)).mpr h
  exact mul_le_mul_of_nonneg_left (Real.rpow_le_rpow_of_exponent_le (by norm_num) hy) (by positivity)

theorem powerUnits_le {neg : Bool} {m : Nat} {y : ℝ} (h : (signedUnits neg m : ℝ) ≤ y * 2 ^ 149) :
    powerUnits neg m ≤ 2 ^ 149 * (10 : ℝ) ^ y := by
  unfold powerUnits
  have hy : (signedUnits neg m : ℝ) / 2 ^ 149 ≤ y := (div_le_iff₀ (by positivity)).mpr h
  exact mul_le_mul_of_nonneg_left (Real.rpow_le_rpow_of_exponent_le (by norm_num) hy) (by positivity)

/-- An exponent of 64 or more overflows and one of -64 or less underflows, by far. -/
theorem powerUnits_of_large {neg : Bool} {m : Nat} (h : 64 * 2 ^ 149 ≤ m) :
    if neg then powerUnits neg m < 1 else 2 ^ 24 * 2 ^ 254 < powerUnits neg m := by
  have hm : (64 : ℝ) * 2 ^ 149 ≤ m := by exact_mod_cast h
  cases neg
  · have hle := le_powerUnits (neg := false) (m := m) (y := (64 : Nat)) (by simpa [signedUnits] using hm)
    rw [Real.rpow_natCast] at hle
    exact lt_of_lt_of_le (by norm_num) hle
  · have hle := powerUnits_le (neg := true) (m := m) (y := -((64 : Nat) : ℝ)) (by simpa [signedUnits] using hm)
    rw [Real.rpow_neg (by norm_num), Real.rpow_natCast] at hle
    exact lt_of_le_of_lt hle (by norm_num)

/-! ### The three ranges -/

theorem cast_largest_mul (den : Nat) :
    (((2 ^ 24 - 1) * 2 ^ 253 * den : Nat) : ℝ) = (2 ^ 24 - 1) * 2 ^ 253 * den := by
  rw [Nat.cast_mul]
  norm_num

/-- Where the power is enclosed by a range that overflows, `POW10` is an infinity (P5). -/
theorem pow10_of_overflow {e : F32} {s : Bool} {m : Nat} (h : unpack32 e = .fin s m)
    (hP : (2 ^ 24 - 1) * 2 ^ 253 < powerUnits s m - powerUnits s m / 2 ^ 100) : pow10 e = 0x7F800000#32 := by
  rw [pow10_of_fin h]
  have hbounds : pow10Bounds s m = (infBits, infBits) := by
    by_cases h0 : m = 0
    · subst h0
      rw [powerUnits_zero] at hP
      norm_num at hP
    by_cases h64 : 64 * 2 ^ 149 ≤ m
    · have hlarge := powerUnits_of_large (neg := s) h64
      cases s
      · rw [pow10Bounds, if_neg h0, if_pos h64]
        rfl
      · rw [if_pos rfl] at hlarge
        exfalso
        linarith
    · obtain ⟨below, above, den, hden, hrange, ⟨hlo, -⟩, -, -⟩ :=
        pow10Bounds_enclosed s m h0 (Nat.lt_of_not_le h64) _ rfl
      rw [← powerUnits] at hlo
      have hd : (0 : ℝ) < den := Nat.cast_pos.mpr hden
      have hpos : 0 < powerUnits s m := by linarith
      have hbelow : (2 ^ 24 - 1) * 2 ^ 253 * (den : ℝ) < below := by
        refine lt_of_lt_of_le ?_ hlo
        rw [mul_right_comm (powerUnits s m)]
        exact mul_lt_mul_of_pos_right (by linarith) hd
      rw [← cast_largest_mul] at hbelow
      rw [hrange]
      exact pow10Range_of_overflow (Nat.cast_lt.mp hbelow)
  rw [hbounds, clamp_self]
  rfl

/-- Where the power is below the smallest normal number, `POW10` is at most that number (P5). -/
theorem toNat_pow10_of_underflow {e : F32} {s : Bool} {m : Nat} (h : unpack32 e = .fin s m)
    (hP : powerUnits s m + powerUnits s m / 2 ^ 100 < 2 ^ 23) : (pow10 e).toNat ≤ 2 ^ 23 := by
  rw [toNat_pow10_of_fin h]
  have hbounds : pow10Bounds s m = (0, 2 ^ 23) := by
    by_cases h0 : m = 0
    · subst h0
      rw [powerUnits_zero] at hP
      norm_num at hP
    by_cases h64 : 64 * 2 ^ 149 ≤ m
    · have hlarge := powerUnits_of_large (neg := s) h64
      cases s
      · rw [if_neg Bool.false_ne_true] at hlarge
        exfalso
        linarith
      · rw [pow10Bounds, if_neg h0, if_pos h64, if_pos rfl]
    · obtain ⟨below, above, den, hden, hrange, ⟨-, hbelow⟩, hge, habove⟩ :=
        pow10Bounds_enclosed s m h0 (Nat.lt_of_not_le h64) _ rfl
      rw [← powerUnits] at hbelow hge habove
      have hd : (0 : ℝ) < den := Nat.cast_pos.mpr hden
      have hpos : 0 ≤ powerUnits s m := by unfold powerUnits; positivity
      have ha : (above : ℝ) < 2 ^ 23 * den := by
        refine lt_of_le_of_lt habove ?_
        rw [mul_right_comm (powerUnits s m)]
        exact mul_lt_mul_of_pos_right (by linarith) hd
      have ha' : above < 2 ^ 23 * den := by exact_mod_cast ha
      have hb : below ≤ above := by exact_mod_cast hbelow.trans hge
      rw [hrange]
      exact pow10Range_of_underflow (by omega) ha'
  rw [hbounds]
  obtain ⟨-, hc⟩ := clamp_cases (0, 2 ^ 23) (Config.openPow10 e).toNat
  omega

/-- The last place at a number below `2^(24+k)` is at most `2^k` units. -/
theorem lastPlace_le {num den k : Nat} (hden : 0 < den) (h : num < 2 ^ (24 + k) * den) : lastPlace num den ≤ k := by
  obtain h0 | hlo := (lastPlace_spec num den hden).2
  · omega
  · have hlt : 2 ^ (23 + lastPlace num den) < 2 ^ (24 + k) := by
      refine lt_of_mul_lt hden (lt_of_le_of_lt ?_ h)
      calc 2 ^ (23 + lastPlace num den) * den = 2 ^ 23 * (den * 2 ^ lastPlace num den) := by rw [pow_add]; ring
        _ ≤ num := hlo
    have := (Nat.pow_lt_pow_iff_right Nat.one_lt_two).mp hlt
    omega

/-- A number that is within one last place of an enclosure of the power is, up to the slack, as near to the power. -/
theorem abs_sub_le_of_enclosed {P : ℝ} {below above den u k : Nat} (hden : 0 < den) (hP : 0 ≤ P)
    (hbelow : P * den * (1 - 1 / 2 ^ 110) ≤ below) (habove : (above : ℝ) ≤ P * den * (1 + 1 / 2 ^ 110))
    (hle : below ≤ u * den + den * 2 ^ lastPlace above den) (hge : u * den ≤ above + den * 2 ^ lastPlace above den)
    (hk : P + P / 2 ^ 100 < 2 ^ (24 + k)) : |(u : ℝ) - P| ≤ 2 ^ k + P / 2 ^ 100 := by
  have hd : (0 : ℝ) < den := Nat.cast_pos.mpr hden
  have hlt : (above : ℝ) < 2 ^ (24 + k) * den := by
    refine lt_of_le_of_lt habove ?_
    rw [mul_right_comm P]
    exact mul_lt_mul_of_pos_right (by linarith) hd
  have hplace : den * 2 ^ lastPlace above den ≤ den * 2 ^ k :=
    Nat.mul_le_mul_left _ (Nat.pow_le_pow_right Nat.two_pos (lastPlace_le hden (by exact_mod_cast hlt)))
  have hle' : (below : ℝ) ≤ u * den + den * 2 ^ k := by exact_mod_cast hle.trans (Nat.add_le_add_left hplace _)
  have hge' : (u : ℝ) * den ≤ above + den * 2 ^ k := by exact_mod_cast hge.trans (Nat.add_le_add_left hplace _)
  have hl : P * (1 - 1 / 2 ^ 110) ≤ u + 2 ^ k := by
    refine le_of_mul_le_mul_right ?_ hd
    linarith
  have hu : (u : ℝ) ≤ P * (1 + 1 / 2 ^ 110) + 2 ^ k := by
    refine le_of_mul_le_mul_right ?_ hd
    linarith
  rw [abs_le]
  constructor <;> linarith

/-- Where the power is at least the smallest normal number, `POW10` is an infinity for a power above the largest finite
number, or else a finite number within one unit in the last place of it (P6). -/
theorem pow10_of_normal {e : F32} {s : Bool} {m : Nat} (h : unpack32 e = .fin s m) (hlo : 2 ^ 23 ≤ powerUnits s m) :
    pow10 e = 0x7F800000#32 ∧ (2 ^ 24 - 1) * 2 ^ 253 < powerUnits s m ∨
      ∃ n : Nat, unpack32 (pow10 e) = .fin false n ∧
        ∀ k : Nat, powerUnits s m + powerUnits s m / 2 ^ 100 < 2 ^ (24 + k) →
          |(n : ℝ) - powerUnits s m| ≤ 2 ^ k + powerUnits s m / 2 ^ 100 := by
  by_cases h0 : m = 0
  · subst h0
    refine .inr ⟨2 ^ 149, ?_, fun k _ => ?_⟩
    · rw [pow10_of_zero h]
      decide +kernel
    · rw [powerUnits_zero, Nat.cast_pow, Nat.cast_ofNat, sub_self, abs_zero]
      positivity
  by_cases h64 : 64 * 2 ^ 149 ≤ m
  · have hlarge := powerUnits_of_large (neg := s) h64
    cases s
    · rw [if_neg Bool.false_ne_true] at hlarge
      refine .inl ⟨?_, by linarith⟩
      rw [pow10_of_fin h, pow10Bounds, if_neg h0, if_pos h64]
      exact congrArg (BitVec.ofNat 32) (clamp_self _ _)
    · rw [if_pos rfl] at hlarge
      exfalso
      linarith
  obtain ⟨below, above, den, hden, hrange, ⟨hb1, hb2⟩, ha1, ha2⟩ :=
    pow10Bounds_enclosed s m h0 (Nat.lt_of_not_le h64) _ rfl
  rw [← powerUnits] at hb1 hb2 ha1 ha2
  have hd : (0 : ℝ) < den := Nat.cast_pos.mpr hden
  have hba : below ≤ above := by exact_mod_cast hb2.trans ha1
  have habove : 2 ^ 23 * den ≤ above := by
    have := (mul_le_mul_of_nonneg_right hlo hd.le).trans ha1
    exact_mod_cast this
  by_cases hover : (2 ^ 24 - 1) * 2 ^ 253 * den < below
  · left
    constructor
    · rw [pow10_of_fin h, hrange, pow10Range_of_overflow hover]
      exact congrArg (BitVec.ofNat 32) (clamp_self _ _)
    · have hover' := (Nat.cast_lt (α := ℝ)).mpr hover
      rw [cast_largest_mul] at hover'
      exact lt_of_mul_lt_mul_right (hover'.trans_le hb2) hd.le
  · right
    obtain ⟨hfin, hle, hge⟩ :=
      pow10Range_between hden hba (Nat.le_of_not_lt hover) habove (Config.openPow10 e).toNat
    rw [← hrange, ← toNat_pow10_of_fin h] at hfin hle hge
    have hpack : pow10 e = pack32 false (pow10 e).toNat := by simp [pack32]
    exact ⟨unitsOf (pow10 e).toNat, (congrArg unpack32 hpack).trans (unpack32_pack32 false hfin),
      fun k => abs_sub_le_of_enclosed hden ((by norm_num : (0 : ℝ) ≤ 2 ^ 23).trans hlo) hb1 ha2 hle hge⟩

/-- From exponent 39 up the power overflows. -/
theorem pow10_of_ge_39 {e : F32} {m : Nat} (h : unpack32 e = .fin false m) (hm : 39 * 2 ^ 149 ≤ m) :
    pow10 e = 0x7F800000#32 := by
  have hm' : (39 : ℝ) * 2 ^ 149 ≤ m := by exact_mod_cast hm
  have hle := le_powerUnits (neg := false) (m := m) (y := (39 : Nat)) (by simpa [signedUnits] using hm')
  rw [Real.rpow_natCast] at hle
  have hbig : (2 : ℝ) ^ 24 * 2 ^ 254 < 2 ^ 149 * 10 ^ 39 := by norm_num
  refine pow10_of_overflow h ?_
  linarith

/-- Settles O45: the enclosure of the power puts it into one of the three ranges of `pow10Range`, up to the slack. -/
theorem pow10StaysWithinItsBounds : Obligations.Pow10StaysWithinItsBounds := by
  intro e
  refine ⟨toNat_pow10_le, fun h => pow10_of_zero (s := false) (by rw [h]; decide), fun m => pow10_of_ge_39, ?_⟩
  rintro s m P h rfl
  refine ⟨pow10_of_overflow h, toNat_pow10_of_underflow h, fun hlo hhi => ?_⟩
  obtain ⟨-, hover⟩ | hfin := pow10_of_normal h hlo
  · exact absurd hhi (not_le.mpr hover)
  · exact hfin

end Sys2Proof.Machine
end

section
/-! PROOF. The rates and frequencies that commands set (R13, R104, R105): the conversion to binary64 is exact, so rates
compare as their payloads do. -/

namespace Sys2Proof.Machine

/-! ### The conversion to binary64 -/

theorem toNat_u32ToF64_zero {n : Word} (h : n.toNat = 0) : (u32ToF64 n).toNat = 0 := by
  rw [u32ToF64, if_pos h]
  rfl

/-- The exponent field and the fraction of a payload that is not zero. -/
theorem toNat_u32ToF64 {n : Word} (h : n.toNat ≠ 0) :
    ∃ k f, k ≤ 31 ∧ f < 2 ^ 52 ∧ (u32ToF64 n).toNat = (k + 1023) * 2 ^ 52 + f ∧
      (2 ^ 52 + f) * 2 ^ k = n.toNat * 2 ^ 52 := by
  obtain ⟨k, hk⟩ : ∃ k, Nat.log2 n.toNat = k := ⟨_, rfl⟩
  have hlo : 2 ^ k ≤ n.toNat := hk ▸ Nat.log2_self_le h
  have hhi : n.toNat < 2 ^ (k + 1) := hk ▸ Nat.lt_log2_self
  have hk31 : k ≤ 31 := by
    have := (Nat.pow_lt_pow_iff_right Nat.one_lt_two).mp (hlo.trans_lt n.isLt)
    omega
  have hpow : 2 ^ (52 - k) * 2 ^ k = 2 ^ 52 := by rw [← pow_add, Nat.sub_add_cancel (by omega)]
  have hsum : 2 ^ 52 + (n.toNat - 2 ^ k) * 2 ^ (52 - k) = n.toNat * 2 ^ (52 - k) := by
    rw [Nat.sub_mul, Nat.mul_comm (2 ^ k), hpow]
    exact Nat.add_sub_cancel' (hpow ▸ Nat.mul_comm _ (2 ^ k) ▸ Nat.mul_le_mul_right _ hlo)
  have hlt : n.toNat * 2 ^ (52 - k) < 2 ^ 53 :=
    calc n.toNat * 2 ^ (52 - k) < 2 ^ (k + 1) * 2 ^ (52 - k) := Nat.mul_lt_mul_of_pos_right hhi (Nat.two_pow_pos _)
      _ = 2 ^ 53 := by rw [← pow_add]; congr 1; omega
  refine ⟨k, (n.toNat - 2 ^ k) * 2 ^ (52 - k), hk31, by omega, ?_, ?_⟩
  · rw [u32ToF64, if_neg h, hk, BitVec.toNat_ofNat]
    exact Nat.mod_eq_of_lt (by omega)
  · rw [hsum, Nat.mul_assoc, hpow]

/-- Settles O9: the exponent field is the place of the payload's leading 1, and the fraction the places below it. -/
theorem payloadConvertsToBinary64Exactly : Obligations.PayloadConvertsToBinary64Exactly := by
  intro n
  refine ⟨toNat_u32ToF64_zero, fun h => ?_⟩
  obtain ⟨k, f, hk, hf, hbits, hvalue⟩ := toNat_u32ToF64 h
  have hexp : (u32ToF64 n).toNat / 2 ^ 52 = k + 1023 := by omega
  have hfrac : (u32ToF64 n).toNat % 2 ^ 52 = f := by omega
  refine ⟨by omega, by omega, ?_⟩
  rw [hexp, hfrac, Nat.add_sub_cancel, hvalue]

/-- Different payloads have different patterns, since a pattern determines its value. -/
theorem u32ToF64_injective : Function.Injective u32ToF64 := by
  intro m n h
  obtain ⟨hm0, hm⟩ := payloadConvertsToBinary64Exactly m
  obtain ⟨hn0, hn⟩ := payloadConvertsToBinary64Exactly n
  rw [h] at hm0 hm
  apply BitVec.eq_of_toNat_eq
  by_cases hmz : m.toNat = 0
  · by_cases hnz : n.toNat = 0
    · rw [hmz, hnz]
    · obtain ⟨-, hexp, -⟩ := hn hnz
      rw [hm0 hmz] at hexp
      exact absurd hexp (by decide)
  · obtain ⟨-, hexp, hvalue⟩ := hm hmz
    by_cases hnz : n.toNat = 0
    · rw [hn0 hnz] at hexp
      exact absurd hexp (by decide)
    · obtain ⟨-, -, hvalue'⟩ := hn hnz
      exact Nat.eq_of_mul_eq_mul_right (Nat.two_pow_pos 52) (hvalue.symm.trans hvalue')

theorem toNat_u32ToF64_lt (n : Word) : (u32ToF64 n).toNat < 1055 * 2 ^ 52 := by
  by_cases h : n.toNat = 0
  · rw [toNat_u32ToF64_zero h]
    decide
  · obtain ⟨k, f, hk, hf, hbits, -⟩ := toNat_u32ToF64 h
    omega

theorem finite64_u32ToF64 (n : Word) : finite64 (u32ToF64 n) = true := by
  have := toNat_u32ToF64_lt n
  rw [finite64, bne_iff_ne]
  omega

theorem isNaN64_u32ToF64 (n : Word) : isNaN64 (u32ToF64 n) = false := by
  have := toNat_u32ToF64_lt n
  rw [isNaN64, decide_eq_false_iff_not]
  omega

/-- Settles O10: no payload converts to a NaN or to -0, so numbers differ where patterns do. -/
theorem rateComparisonIsThatOfThePayloads : Obligations.RateComparisonIsThatOfThePayloads := by
  intro m n
  have hm := toNat_u32ToF64_lt m
  have hn := toNat_u32ToF64_lt n
  have hzeros : ((u32ToF64 m).toNat % 2 ^ 63 = 0 ∧ (u32ToF64 n).toNat % 2 ^ 63 = 0) → m = n := by
    intro ⟨hm0, hn0⟩
    exact u32ToF64_injective (BitVec.eq_of_toNat_eq (by omega))
  rw [differ64, isNaN64_u32ToF64, isNaN64_u32ToF64]
  simp only [Bool.or_false, Bool.false_eq_true, if_false]
  split_ifs with h
  · simp [hzeros h]
  · rw [bne_iff_ne, u32ToF64_injective.ne_iff]

theorem differ64_u32ToF64_self (n : Word) : differ64 (u32ToF64 n) (u32ToF64 n) = false :=
  Bool.eq_false_iff.mpr fun h => (rateComparisonIsThatOfThePayloads n n).mp h rfl

/-! ### Setting a rate twice -/

/-- Settles O11: after a call that is answered `ok` the stored rate is the commanded one, and a rate does not differ from
itself. -/
theorem setrateIsIdempotent : Obligations.SetrateIsIdempotent := by
  intro p s t h ht
  cases hd : differ64 (u32ToF64 p) s.ts.sampleRate with
  | false =>
    cases h.symm.trans (exec_setrate_of_not_differ hd)
    exact h
  | true =>
    cases hr : s.nextReply with
    | ok =>
      cases h.symm.trans (exec_setrate_of_ok hd hr)
      exact exec_setrate_of_not_differ (differ64_u32ToF64_self p)
    | err =>
      cases h.symm.trans (exec_setrate_of_err hd hr)
      exact absurd rfl ht

end Sys2Proof.Machine
end

section
/-! PROOF. SETGAIN (R107): the exponent of ten it computes, and the gain it stores. -/

namespace Sys2Proof.Machine

theorem exec_setgain_of_ne_d32 {s : State} (p : Word) (h : s.ts.bitDepth ≠ .d32) :
    exec (.setgain p) s = .next (s.setGainLinear (gainOf s.cfg.gainScale p)) := by
  simp only [exec, execSetgain]
  cases hd : s.ts.bitDepth with
  | d8 => rfl
  | d16 => rfl
  | d32 => exact absurd hd h

theorem exec_setgain_of_d32 {s : State} (p : Word) (h : s.ts.bitDepth = .d32) : exec (.setgain p) s = .next s := by
  simp only [exec, execSetgain, h]

/-- Settles O12: the bit depth selects the branch, and `gainOf` is the pseudocode of the rule. -/
theorem setgainStoresTheScaledPower : Obligations.SetgainStoresTheScaledPower := by
  refine fun p s => ⟨fun h => exec_setgain_of_ne_d32 p ?_, exec_setgain_of_d32 p⟩
  obtain h | h := h <;> rw [h] <;> decide

/-! ### The exponent -/

theorem unpack32_f32Ten : unpack32 f32Ten = .fin false (unitsOf 0x41200000) := by decide +kernel

theorem unpack32_f32Twelve : unpack32 f32Twelve = .fin false (unitsOf 0x41400000) := by decide +kernel

/-- The pattern of the payload divided by ten. -/
def tenthBits (p : Word) : Nat :=
  roundMag (unitsOf (roundMag (p.toNat * 2 ^ 149) 1) * 2 ^ 149) (unitsOf 0x41200000)

/-- The units of that number less twelve. -/
def offsetUnits (p : Word) : Int := unitsOf (tenthBits p) - unitsOf 0x41400000

/-- The magnitude pattern of the exponent of ten. -/
def exponentBits (p : Word) : Nat :=
  roundMag (unitsOf (roundMag (offsetUnits p).natAbs 1) * 2 ^ 149) (unitsOf 0x41200000)

theorem unitsOf_ten_pos : 0 < unitsOf 0x41200000 := by decide +kernel

/-- Payloads and what is computed from them lie far below the infinity: `2^32` is their bound, 0x4F800000 its pattern. -/
theorem payloadBits_le (p : Word) : roundMag (p.toNat * 2 ^ 149) 1 ≤ 0x4F800000 := by
  refine roundMag_le_of_le_unitsOf Nat.one_pos ?_
  have hp := p.isLt
  have hbound : unitsOf 0x4F800000 = 2 ^ 32 * 2 ^ 149 := by decide +kernel
  omega

/-- Division by ten does not increase a number. -/
theorem roundMag_div_ten_le (b : Nat) : roundMag (unitsOf b * 2 ^ 149) (unitsOf 0x41200000) ≤ b :=
  roundMag_le_of_le_unitsOf unitsOf_ten_pos (Nat.mul_le_mul_left _ (by decide +kernel))

theorem tenthBits_le (p : Word) : tenthBits p ≤ 0x4F800000 := (roundMag_div_ten_le _).trans (payloadBits_le p)

theorem offsetBits_le (p : Word) : roundMag (offsetUnits p).natAbs 1 ≤ 0x4F800000 := by
  refine roundMag_le_of_le_unitsOf Nat.one_pos ?_
  have hle := unitsOf_mono (tenthBits_le p)
  have htwelve : unitsOf 0x41400000 ≤ unitsOf 0x4F800000 := unitsOf_mono (by decide)
  unfold offsetUnits
  omega

theorem exponentBits_le (p : Word) : exponentBits p ≤ 0x4F800000 := (roundMag_div_ten_le _).trans (offsetBits_le p)

/-- A negative exponent is at least -2: the offset 12, divided by ten, is all there is of it. -/
theorem exponentBits_le_of_neg {p : Word} (h : offsetUnits p < 0) : exponentBits p ≤ 0x40000000 := by
  have hoffset : roundMag (offsetUnits p).natAbs 1 ≤ 0x41400000 := by
    refine roundMag_le_of_le_unitsOf Nat.one_pos ?_
    unfold offsetUnits at h ⊢
    omega
  refine roundMag_le_of_le_unitsOf unitsOf_ten_pos ?_
  calc unitsOf (roundMag (offsetUnits p).natAbs 1) * 2 ^ 149
      ≤ unitsOf 0x41400000 * 2 ^ 149 := Nat.mul_le_mul_right _ (unitsOf_mono hoffset)
    _ ≤ unitsOf 0x40000000 * unitsOf 0x41200000 := by decide +kernel

theorem roundUnits_false (z : Int) : roundUnits false z = pack32 (decide (z < 0)) (roundMag z.natAbs 1) := by
  unfold roundUnits
  split
  · subst z
    decide +kernel
  · rfl

theorem gainExponent_eq (p : Word) : gainExponent p = pack32 (decide (offsetUnits p < 0)) (exponentBits p) := by
  have hpayload : unpack32 (u32ToF32 p) = .fin false (unitsOf (roundMag (p.toNat * 2 ^ 149) 1)) :=
    unpack32_pack32 false ((payloadBits_le p).trans_lt (by decide))
  have htenth : unpack32 (fdiv32 (u32ToF32 p) f32Ten) = .fin false (unitsOf (tenthBits p)) := by
    rw [fdiv32_of_fin hpayload unpack32_f32Ten unitsOf_ten_pos.ne']
    exact unpack32_pack32 false ((tenthBits_le p).trans_lt (by decide))
  have hoffset : unpack32 (fsub32 (fdiv32 (u32ToF32 p) f32Ten) f32Twelve) =
      .fin (decide (offsetUnits p < 0)) (unitsOf (roundMag (offsetUnits p).natAbs 1)) := by
    have hround : fsub32 (fdiv32 (u32ToF32 p) f32Ten) f32Twelve = roundUnits false (offsetUnits p) :=
      fsub32_of_fin htenth unpack32_f32Twelve
    rw [hround, roundUnits_false]
    exact unpack32_pack32 _ ((offsetBits_le p).trans_lt (by decide))
  rw [gainExponent, fdiv32_of_fin hoffset unpack32_f32Ten unitsOf_ten_pos.ne', Bool.bne_false]
  rfl

theorem unpack32_gainExponent (p : Word) :
    unpack32 (gainExponent p) = .fin (decide (offsetUnits p < 0)) (unitsOf (exponentBits p)) := by
  rw [gainExponent_eq]
  exact unpack32_pack32 _ ((exponentBits_le p).trans_lt (by decide))

/-! ### The product with `GAIN_SCALE` -/

/-- `GAIN_SCALE` is a positive, finite, normal number (R5). -/
theorem gainScale_of_legal {c : Config} (h : configLegal c = true) :
    unpack32 c.gainScale = .fin false (unitsOf c.gainScale.toNat) ∧ c.gainScale.toNat < infBits ∧
      2 ^ 23 ≤ unitsOf c.gainScale.toNat := by
  simp only [configLegal, Bool.and_eq_true, decide_eq_true_eq] at h
  obtain ⟨⟨⟨⟨hlo, hhi⟩, -⟩, -⟩, -⟩ := h
  have hpack : c.gainScale = pack32 false c.gainScale.toNat := by simp [pack32]
  refine ⟨(congrArg unpack32 hpack).trans (unpack32_pack32 false hhi), hhi, ?_⟩
  have hnormal : unitsOf 0x00800000 = 2 ^ 23 := by decide
  rw [← hnormal]
  exact unitsOf_mono hlo

theorem fmul32_one {a : F32} (h : a.toNat < infBits) : fmul32 a 0x3F800000#32 = a := by
  have hpack : pack32 false a.toNat = a := by simp [pack32]
  have ha : unpack32 a = .fin false (unitsOf a.toNat) := (congrArg unpack32 hpack.symm).trans (unpack32_pack32 false h)
  have hone : unpack32 0x3F800000#32 = .fin false (2 ^ 149) := by decide +kernel
  rw [fmul32_of_fin ha hone, roundMag_unitsOf_mul (Nat.two_pow_pos 149) h.le]
  exact hpack

theorem gainOf_of_pow10_infinity {c : Config} {p : Word} (h : configLegal c = true)
    (hp : pow10 (gainExponent p) = 0x7F800000#32) : gainOf c.gainScale p = 0x7F800000#32 := by
  obtain ⟨hscale, -, hpos⟩ := gainScale_of_legal h
  have hinf : unpack32 0x7F800000#32 = .inf false := by decide
  rw [gainOf, hp, fmul32, hscale, hinf, mulVals, if_neg (by omega)]
  rfl

/-- Settles O13: 120 / 10 - 12 is +0, whose power is 1.0, and a product with 1.0 is exact. -/
theorem setgainAt120StoresGainScale : Obligations.SetgainAt120StoresGainScale := by
  intro s hlegal hd
  obtain ⟨-, hfin, -⟩ := gainScale_of_legal hlegal
  have hexp : unpack32 (gainExponent 120#32) = .fin false 0 := by decide +kernel
  have hgain : gainOf s.cfg.gainScale 120#32 = s.cfg.gainScale := by
    rw [gainOf, pow10_of_zero hexp, fmul32_one hfin]
  rw [exec_setgain_of_ne_d32 _ hd, hgain]
  rfl

/-! ### Large payloads -/

/-- From payload 3974 up the exponent is at least 38.5390625, the pattern 0x421A2800; each of the three operations is at
least what it is for 3974, by a pattern below the result there. -/
theorem exponentBits_ge {p : Word} (h : 3974 ≤ p.toNat) : 0x421A2800 ≤ exponentBits p ∧ 0 ≤ offsetUnits p := by
  have hpayload : 0x45786000 ≤ roundMag (p.toNat * 2 ^ 149) 1 := by
    refine le_roundMag_of_unitsOf_le Nat.one_pos (by decide) ?_
    have hunits : unitsOf 0x45786000 = 3974 * 2 ^ 149 := by decide +kernel
    omega
  have htenth : 0x43C6B333 ≤ tenthBits p := by
    refine le_roundMag_of_unitsOf_le unitsOf_ten_pos (by decide) ?_
    calc unitsOf 0x43C6B333 * unitsOf 0x41200000 ≤ unitsOf 0x45786000 * 2 ^ 149 := by decide +kernel
      _ ≤ _ := Nat.mul_le_mul_right _ (unitsOf_mono hpayload)
  have hunits : (unitsOf 0x43C0B333 : Int) ≤ offsetUnits p := by
    have hle := unitsOf_mono htenth
    have hsub : unitsOf 0x43C0B333 + unitsOf 0x41400000 ≤ unitsOf 0x43C6B333 := by decide +kernel
    unfold offsetUnits
    omega
  have hoffset : 0x43C0B333 ≤ roundMag (offsetUnits p).natAbs 1 :=
    le_roundMag_of_unitsOf_le Nat.one_pos (by decide) (by omega)
  refine ⟨le_roundMag_of_unitsOf_le unitsOf_ten_pos (by decide) ?_, by omega⟩
  calc unitsOf 0x421A2800 * unitsOf 0x41200000 ≤ unitsOf 0x43C0B333 * 2 ^ 149 := by decide +kernel
    _ ≤ _ := Nat.mul_le_mul_right _ (unitsOf_mono hoffset)

/-- Ten to the power 578/15, which is 38.533…, is above 3.41e38, and so above the largest finite number. -/
theorem lt_rpow_578_div_15 : (341 : ℝ) * 10 ^ 36 < (10 : ℝ) ^ ((578 : ℝ) / 15) := by
  refine lt_of_pow_lt_pow_left₀ 15 (by positivity) ?_
  have hpow : ((10 : ℝ) ^ ((578 : ℝ) / 15)) ^ 15 = 10 ^ 578 := by
    rw [← Real.rpow_natCast, ← Real.rpow_mul (by norm_num), ← Real.rpow_natCast]
    norm_num
  have hsplit : (10 : ℝ) ^ 578 = 10 ^ 200 * 10 ^ 200 * 10 ^ 178 := by rw [← pow_add, ← pow_add]
  rw [hpow, hsplit]
  norm_num

theorem pow10_gainExponent_infinity {p : Word} (h : 3974 ≤ p.toNat) : pow10 (gainExponent p) = 0x7F800000#32 := by
  obtain ⟨hbits, hsign⟩ := exponentBits_ge h
  have hunits : 578 * 2 ^ 149 ≤ 15 * unitsOf (exponentBits p) :=
    le_trans (by decide +kernel) (Nat.mul_le_mul_left 15 (unitsOf_mono hbits))
  have hexp := unpack32_gainExponent p
  rw [decide_eq_false (not_lt.mpr hsign)] at hexp
  have hcast : (578 : ℝ) * 2 ^ 149 ≤ 15 * unitsOf (exponentBits p) := by exact_mod_cast hunits
  have hpower := le_powerUnits (neg := false) (m := unitsOf (exponentBits p)) (y := 578 / 15)
    (by simp only [signedUnits, Bool.false_eq_true, if_false, Int.cast_natCast]; linarith)
  have hbound := lt_rpow_578_div_15
  have hlarge : (2 ^ 24 - 1) * 2 ^ 253 * (1 + 1 / 2 ^ 90) < 2 ^ 149 * ((341 : ℝ) * 10 ^ 36) := by norm_num
  refine pow10_of_overflow hexp ?_
  linarith

/-- Settles O14: the power exceeds the largest finite number, and `GAIN_SCALE` times an infinity is one. -/
theorem setgainFrom3974StoresInfinity : Obligations.SetgainFrom3974StoresInfinity := by
  intro p s hlegal hd hp
  rw [exec_setgain_of_ne_d32 p hd, gainOf_of_pow10_infinity hlegal (pow10_gainExponent_infinity hp)]
  rfl

/-! ### Every payload -/

/-- For an exponent of at least -2, `POW10` is an infinity or at least `2^-9`, which is `2^140` units. -/
theorem pow10_of_ge_neg_two {e : F32} {s : Bool} {m : Nat} (h : unpack32 e = .fin s m)
    (hm : s = true → m ≤ 2 * 2 ^ 149) :
    pow10 e = 0x7F800000#32 ∨ ∃ n, unpack32 (pow10 e) = .fin false n ∧ 2 ^ 140 ≤ n := by
  have hexp : (-2 : ℝ) * 2 ^ 149 ≤ signedUnits s m := by
    cases s with
    | false => exact le_trans (by norm_num) (Nat.cast_nonneg m : (0 : ℝ) ≤ m)
    | true =>
      have hcast : (m : ℝ) ≤ 2 * 2 ^ 149 := by exact_mod_cast hm rfl
      simp only [signedUnits, if_true, Int.cast_neg, Int.cast_natCast]
      linarith
  have hpower := le_powerUnits hexp
  have hhundredth : (10 : ℝ) ^ (-2 : ℝ) = 1 / 100 := by
    rw [Real.rpow_neg (by norm_num), Real.rpow_ofNat]
    norm_num
  rw [hhundredth] at hpower
  have hlow : (2 : ℝ) ^ 142 ≤ powerUnits s m := le_trans (by norm_num) hpower
  obtain ⟨hinf, -⟩ | ⟨n, hn, hnear⟩ := pow10_of_normal h (le_trans (by norm_num) hlow)
  · exact .inl hinf
  · refine .inr ⟨n, hn, ?_⟩
    obtain ⟨j, hj, hj'⟩ := exists_nat_pow_near (x := powerUnits s m + powerUnits s m / 2 ^ 100) (y := (2 : ℝ))
      (le_trans (by norm_num) (hlow.trans (le_add_of_nonneg_right (by positivity)))) one_lt_two
    have hj23 : 142 < j + 1 := by
      refine (pow_lt_pow_iff_right₀ (one_lt_two (α := ℝ))).mp (lt_of_le_of_lt ?_ hj')
      exact hlow.trans (le_add_of_nonneg_right (by positivity))
    obtain ⟨k, rfl⟩ : ∃ k, j = 23 + k := ⟨j - 23, by omega⟩
    have hfar := (abs_le.mp (hnear k (by rwa [Nat.add_right_comm] at hj'))).1
    rw [pow_add] at hj
    have hreal : (2 : ℝ) ^ 140 ≤ n := by linarith
    exact_mod_cast hreal

/-- The gain for a legal `GAIN_SCALE` and any payload is above zero: the product of `2^23` and `2^140` units is more than
one unit. -/
theorem positive32_gainOf {c : Config} (h : configLegal c = true) (p : Word) :
    positive32 (gainOf c.gainScale p) = true := by
  have hsign : decide (offsetUnits p < 0) = true → unitsOf (exponentBits p) ≤ 2 * 2 ^ 149 := by
    intro hneg
    have hunits : unitsOf 0x40000000 = 2 * 2 ^ 149 := by decide +kernel
    exact (unitsOf_mono (exponentBits_le_of_neg (of_decide_eq_true hneg))).trans_eq hunits
  obtain hinf | ⟨n, hn, hlow⟩ := pow10_of_ge_neg_two (unpack32_gainExponent p) hsign
  · rw [gainOf_of_pow10_infinity h hinf]
    decide
  · obtain ⟨hscale, -, hnormal⟩ := gainScale_of_legal h
    have hprod : unitsOf 1 * 2 ^ 149 ≤ unitsOf c.gainScale.toNat * n :=
      le_trans (by decide +kernel) (Nat.mul_le_mul hnormal hlow)
    have hpos := le_roundMag_of_unitsOf_le (Nat.two_pow_pos 149) (by decide) hprod
    have hle := roundMag_le (unitsOf c.gainScale.toNat * n) (2 ^ 149)
    rw [gainOf, fmul32_of_fin hscale hn, positive32, pack32_toNat _ _ (roundMag_lt_two_pow _ _)]
    simp only [bne_self_eq_false, Bool.false_eq_true, if_false, Nat.zero_add, Bool.and_eq_true, decide_eq_true_eq]
    exact ⟨hpos, hle⟩

/-- Settles O15: SETGAIN stores `gainOf`, which is above zero. -/
theorem setgainStoresAPositiveGain : Obligations.SetgainStoresAPositiveGain := by
  intro p s t hlegal hd h
  cases h.symm.trans (exec_setgain_of_ne_d32 p hd)
  exact positive32_gainOf hlegal p

end Sys2Proof.Machine
end

section
/-! PROOF. What commands do not read and do not write (the frame of `40_commands.md` section 3), as one lemma over every
change of the state that no command sees. -/

namespace Sys2Proof.Machine

/-- `f` changes the state where no command looks: neither TuningState, the parameters nor the replies, and each write a
command makes is made the same after it as before it. -/
structure UnseenByCommands (f : State → State) : Prop where
  cfg : ∀ s, (f s).cfg = s.cfg
  ts : ∀ s, (f s).ts = s.ts
  reply : ∀ s, (f s).nextReply = s.nextReply
  sampleRate : ∀ v s, (f s).setSampleRate v = f (s.setSampleRate v)
  centerFrequency : ∀ v s, (f s).setCenterFrequency v = f (s.setCenterFrequency v)
  gainLinear : ∀ v s, (f s).setGainLinear v = f (s.setGainLinear v)
  call : ∀ op arg s, (f s).recordCall op arg = f (s.recordCall op arg)
  fatal : ∀ s, raiseDeviceFatal (f s) = f (raiseDeviceFatal s)

theorem configureSource_unseen {f : State → State} (hf : UnseenByCommands f) (op : SrcOp) (arg : F64)
    {onOk : State → State} (hok : ∀ u, onOk (f u) = f (onOk u)) (s : State) :
    configureSource op arg onOk (f s) = f (configureSource op arg onOk s) := by
  cases hr : s.nextReply with
  | ok => rw [configureSource_of_ok _ _ _ hr, configureSource_of_ok _ _ _ ((hf.reply s).trans hr), hf.call, hok]
  | err => rw [configureSource_of_err _ _ _ hr, configureSource_of_err _ _ _ ((hf.reply s).trans hr), hf.call, hf.fatal]

theorem exec_unseen {f : State → State} (hf : UnseenByCommands f) {i : Instr} {s t : State} (hi : i.format = .cmd)
    (h : exec i s = .next t) : exec i (f s) = .next (f t) := by
  cases i with
  | nop0 p => cases h; rfl
  | info3 p => cases h; rfl
  | nophi o p => cases h; rfl
  | setfreq p =>
    cases h
    exact congrArg Host.Outcome.next (configureSource_unseen hf _ _ (hf.centerFrequency (u32ToF64 p)) s)
  | setrate p =>
    cases hd : differ64 (u32ToF64 p) s.ts.sampleRate with
    | false =>
      cases h.symm.trans (exec_setrate_of_not_differ hd)
      exact exec_setrate_of_not_differ (by rwa [hf.ts])
    | true =>
      cases h.symm.trans (exec_setrate_of_differ hd)
      rw [exec_setrate_of_differ (by rwa [hf.ts]), configureSource_unseen hf _ _ (hf.sampleRate (u32ToF64 p))]
  | setgain p =>
    by_cases hd : s.ts.bitDepth = .d32
    · cases h.symm.trans (exec_setgain_of_d32 p hd)
      exact exec_setgain_of_d32 p (by rwa [hf.ts])
    · cases h.symm.trans (exec_setgain_of_ne_d32 p hd)
      rw [exec_setgain_of_ne_d32 p (by rwa [hf.ts]), hf.cfg, hf.gainLinear]
  | quant8 => cases hi
  | quant16 => cases hi
  | pass32 => cases hi

/-- `s` with other quantizer registers. -/
def State.withQuantizer (ds : Dither) (dbg : Debug) (s : State) : State := { s with ds := ds, dbg := dbg }

theorem unseenByCommands_withQuantizer (ds : Dither) (dbg : Debug) : UnseenByCommands (State.withQuantizer ds dbg) :=
  ⟨fun _ => rfl, fun _ => rfl, fun _ => rfl, fun _ _ => rfl, fun _ _ => rfl, fun _ _ => rfl, fun _ _ _ => rfl,
    fun _ => rfl⟩

/-- Settles O16: the frame of a command, and that another DitherState and other accumulators are unseen by it. -/
theorem commandsNeverTouchTheQuantizer : Obligations.CommandsNeverTouchTheQuantizer := by
  intro i s hi
  obtain ⟨t, ht⟩ := exec_next s i
  obtain ⟨hframe, hend⟩ := exec_command_frame s hi ht
  refine ⟨t, ht, ?_, ⟨?_, ?_⟩, ?_, fun ds dbg => exec_unseen (unseenByCommands_withQuantizer ds dbg) hi ht⟩
  · refine ⟨?_, ?_, ?_, ?_, ?_⟩ <;> rw [hframe]
  · rw [hframe]
  · exact hend.imp (fun ⟨hphase, _⟩ => hphase) fun ⟨hphase, haction, _, hreply⟩ => ⟨hphase, haction, hreply⟩
  · refine ⟨?_, ?_, ?_, ?_, ?_, ?_, ?_⟩ <;> rw [hframe]

/-! ### The frame loop -/

/-- `f` changes what neither the commands nor the frame loop look at. -/
structure UnseenByFrames (f : State → State) : Prop extends UnseenByCommands f where
  phase : ∀ s, (f s).phase = s.phase
  cmd : ∀ s, (f s).cmd = s.cmd
  pos : ∀ s, (f s).pos = s.pos
  setPos : ∀ p s, (f s).setPos p = f (s.setPos p)
  loadCmd : ∀ bs s, (f s).loadCmd bs = f (s.loadCmd bs)
  setAction : ∀ a s, (f s).setAction a = f (s.setAction a)

theorem frameLoop_unseen {f : State → State} (hf : UnseenByFrames f) :
    ∀ (n : Nat) (s t : State), frameLoop n s = .next t → frameLoop n (f s) = .next (f t)
  | 0, s, t, h => by cases h; rfl
  | n + 1, s, t, h => by
    by_cases hp : s.phase = .halted
    · rw [frameLoop_halted s _ hp] at h
      cases h
      exact frameLoop_halted _ _ ((hf.phase s).trans hp)
    · have hfetch : fetchFrame (f s) = fetchFrame s := by rw [fetchFrame, hf.cmd, hf.pos, fetchFrame]
      cases hd : fetchFrame s with
      | rejected why =>
        rw [frameLoop_of_rejected _ hd] at h
        cases h
        exact frameLoop_of_rejected _ (hfetch.trans hd)
      | ok i rest =>
        obtain ⟨u, hu⟩ := exec_next s i
        have hu' := exec_unseen hf.toUnseenByCommands (decode_cmd_format hd) hu
        have hp' : (f s).phase ≠ .halted := by rwa [hf.phase]
        rw [frameLoop_succ s n hp hd hu] at h
        rw [frameLoop_succ (f s) n hp' (hfetch.trans hd) hu', hf.setPos, hf.pos]
        exact frameLoop_unseen hf n _ t h

theorem finishDecode_unseen {f : State → State} (hf : UnseenByFrames f) (s : State) :
    finishDecode (f s) = f (finishDecode s) := by
  by_cases hp : s.phase = .halted
  · rw [finishDecode_of_halted hp, finishDecode_of_halted ((hf.phase s).trans hp), hf.loadCmd]
  · rw [finishDecode_of_not_halted hp, finishDecode_of_not_halted (by rwa [hf.phase]), hf.loadCmd, hf.setAction]

end Sys2Proof.Machine
end

section
/-! PROOF. DECODE requests as a whole (R100 to R102, R110, R163): they complete, one frame is one instruction, a failed
call halts, and a buffer may be cut between two frames. -/

namespace Sys2Proof.Machine

/-- Settles O18: every instruction ends in a next state, and the loop goes on from there. -/
theorem frameLoopRunsTheFrameAtTheCursor : Obligations.FrameLoopRunsTheFrameAtTheCursor := by
  intro n s i rest hp hdec
  obtain ⟨t, ht⟩ := exec_next s i
  exact ⟨t, ht, frameLoop_succ s n hp hdec ht⟩

theorem length_encode_of_cmd {i : Instr} (h : i.format = .cmd) : (encode i).length = 5 := by
  cases i with
  | quant8 => cases h
  | quant16 => cases h
  | pass32 => cases h
  | _ => rfl

/-- The loop over a buffer that begins with the encoding of a command runs that command first. -/
theorem frameLoop_loadCmd_encode {s t : State} {i : Instr} (n : Nat) (tail : List Byte) (hp : s.phase ≠ .halted)
    (hi : i.format = .cmd) (hwf : i.wellFormed = true) (h : exec i (s.loadCmd (encode i ++ tail)) = .next t) :
    frameLoop (n + 1) (s.loadCmd (encode i ++ tail)) = frameLoop n (t.setPos (t.pos + 5)) := by
  refine frameLoop_succ (s.loadCmd (encode i ++ tail)) n hp (rest := tail) ?_ h
  have hdec := decodeOfEncodeIsTheInstruction i tail hwf
  rwa [hi] at hdec

/-- Settles O17: the buffer holds one frame, so the loop is one turn. -/
theorem stepRunsTheDecodedCommand : Obligations.StepRunsTheDecodedCommand := by
  intro s i rest hp hi hwf hmax hreq
  have hlen := length_encode_of_cmd hi
  have hfit : (readBytes (.data (encode i))).length ≤ s.cfg.cmdBufMax := hlen.trans_le hmax
  have hne : encode i ≠ [] := List.ne_nil_of_length_pos (by omega)
  obtain ⟨t, ht⟩ := exec_next ((s.takeRequest rest).loadCmd (encode i)) i
  have hactive : (s.takeRequest rest).phase ≠ .halted := by rw [State.takeRequest_phase, hp]; decide
  have hloop := frameLoop_loadCmd_encode (s := s.takeRequest rest) 0 [] hactive hi hwf (by rwa [List.append_nil])
  rw [List.append_nil] at hloop
  rw [step_decode s hp hfit hreq, decodeRequest_data _ hne, hlen, hloop, ht]
  rfl

/-- Settles O23: the first turn of the loop halts the block, and no other frame runs. -/
theorem failedRetuneHaltsTheBlock : Obligations.FailedRetuneHaltsTheBlock := by
  intro s p tail rest hp hmax hreply hreq
  have hlen : (encode (.setfreq p) ++ tail).length = 5 + tail.length := List.length_append
  have hfit : (readBytes (.data (encode (.setfreq p) ++ tail))).length ≤ s.cfg.cmdBufMax := hlen.trans_le hmax
  have hne : encode (.setfreq p) ++ tail ≠ [] := List.cons_ne_nil _ _
  have hcount : (encode (.setfreq p) ++ tail).length / 5 = tail.length / 5 + 1 := by omega
  have hactive : (s.takeRequest rest).phase ≠ .halted := by rw [State.takeRequest_phase, hp]; decide
  have hexec := exec_setfreq_of_err (s := (s.takeRequest rest).loadCmd (encode (.setfreq p) ++ tail)) p hreply
  rw [step_decode s hp hfit hreq, decodeRequest_data _ hne, hcount,
    frameLoop_loadCmd_encode _ tail hactive rfl rfl hexec, frameLoop_halted _ _ rfl]
  rfl

/-- Settles O24: the request is a disconnect, or the frame loop ends in the session or in a DeviceFatal. -/
theorem everyDecodeRequestCompletes : Obligations.EveryDecodeRequestCompletes := by
  intro s read sendFailed rest hp hmax hreq
  have hstep := step_decode s hp hmax hreq
  unfold decodeRequest at hstep
  split at hstep
  · exact ⟨_, hstep, rfl, .inl ⟨hp, .inr rfl⟩⟩
  · obtain ⟨u, hu⟩ := frameLoop_next ((readBytes read).length / 5) ((s.takeRequest rest).loadCmd (readBytes read))
    rw [hu] at hstep
    refine ⟨finishDecode u, hstep, step_requests hreq hstep, ?_⟩
    rw [finishDecode_phase]
    obtain ⟨hactive, -⟩ | ⟨hhalted, hfatal⟩ :=
      frameLoop_of_active (s := (s.takeRequest rest).loadCmd (readBytes read)) hp hu
    · have hon : u.phase ≠ .halted := by rw [hactive]; decide
      rw [finishDecode_of_not_halted hon]
      exact .inl ⟨hactive, .inl rfl⟩
    · rw [finishDecode_of_halted hhalted]
      exact .inr ⟨hhalted, hfatal⟩

/-! ### Replies -/

/-- The next `n` replies of the Sample Source are `ok`. -/
def RepliesOk (n : Nat) (s : State) : Prop := ∀ k, k < n → replyAt s k = .ok

theorem RepliesOk.mono {m n : Nat} {s : State} (h : RepliesOk n s) (hmn : m ≤ n) : RepliesOk m s :=
  fun k hk => h k (hk.trans_le hmn)

theorem nextReply_eq_replyAt (s : State) : s.nextReply = replyAt s 0 := by
  unfold State.nextReply replyAt
  cases s.srcReplies <;> rfl

theorem replyAt_recordCall (op : SrcOp) (arg : F64) (s : State) (k : Nat) :
    replyAt (s.recordCall op arg) k = replyAt s (k + 1) := by
  simp only [replyAt, State.recordCall_srcReplies, State.recordCall_srcCalls, List.getElem?_tail, List.length_append,
    List.length_singleton, Nat.add_assoc, Nat.add_comm 1 k]

/-- `replyAt` sees only the Sample Source port. -/
theorem replyAt_congr {s t : State} (hr : t.srcReplies = s.srcReplies) (hc : t.srcCalls = s.srcCalls) (k : Nat) :
    replyAt t k = replyAt s k := by
  simp only [replyAt, hr, hc]

/-- A command whose call, if any, is answered `ok` leaves PHASE, and uses at most one reply. -/
theorem exec_command_repliesOk {i : Instr} {s t : State} {n : Nat} (hi : i.format = .cmd) (h : exec i s = .next t)
    (hok : RepliesOk (n + 1) s) : t.phase = s.phase ∧ RepliesOk n t := by
  have hfirst : s.nextReply = .ok := (nextReply_eq_replyAt s).trans (hok 0 (Nat.succ_pos n))
  have hsame : ∀ u : State, u.srcReplies = s.srcReplies → u.srcCalls = s.srcCalls → RepliesOk n u :=
    fun u hr hc k hk => (replyAt_congr hr hc k).trans (hok k (by omega))
  have hcall : ∀ op arg, RepliesOk n (s.recordCall op arg) :=
    fun op arg k hk => (replyAt_recordCall op arg s k).trans (hok (k + 1) (by omega))
  cases i with
  | nop0 p => cases h; exact ⟨rfl, hsame s rfl rfl⟩
  | info3 p => cases h; exact ⟨rfl, hsame s rfl rfl⟩
  | nophi o p => cases h; exact ⟨rfl, hsame s rfl rfl⟩
  | setfreq p =>
    cases h.symm.trans (exec_setfreq_of_ok p hfirst)
    exact ⟨rfl, hcall _ _⟩
  | setrate p =>
    cases hd : differ64 (u32ToF64 p) s.ts.sampleRate with
    | false =>
      cases h.symm.trans (exec_setrate_of_not_differ hd)
      exact ⟨rfl, hsame s rfl rfl⟩
    | true =>
      cases h.symm.trans (exec_setrate_of_ok hd hfirst)
      exact ⟨rfl, hcall _ _⟩
  | setgain p =>
    by_cases hd : s.ts.bitDepth = .d32
    · cases h.symm.trans (exec_setgain_of_d32 p hd)
      exact ⟨rfl, hsame s rfl rfl⟩
    · cases h.symm.trans (exec_setgain_of_ne_d32 p hd)
      exact ⟨rfl, hsame _ rfl rfl⟩
  | quant8 => cases hi
  | quant16 => cases hi
  | pass32 => cases hi

/-- A loop none of whose calls fails leaves PHASE, and uses at most one reply for each frame. -/
theorem frameLoop_repliesOk (m : Nat) :
    ∀ (n : Nat) (s t : State), frameLoop n s = .next t → RepliesOk (n + m) s → t.phase = s.phase ∧ RepliesOk m t
  | 0, s, t, h, hok => by cases h; exact ⟨rfl, hok.mono (Nat.le_add_left m 0)⟩
  | n + 1, s, t, h, hok => by
    by_cases hp : s.phase = .halted
    · rw [frameLoop_halted s _ hp] at h
      cases h
      exact ⟨rfl, hok.mono (Nat.le_add_left m _)⟩
    · cases hd : fetchFrame s with
      | rejected why =>
        rw [frameLoop_of_rejected _ hd] at h
        cases h
        exact ⟨rfl, hok.mono (Nat.le_add_left m _)⟩
      | ok i rest =>
        obtain ⟨u, hu⟩ := exec_next s i
        rw [Nat.add_right_comm] at hok
        obtain ⟨hphase, hleft⟩ := exec_command_repliesOk (decode_cmd_format hd) hu hok
        rw [frameLoop_succ s n hp hd hu] at h
        obtain ⟨hphase', hleft'⟩ := frameLoop_repliesOk m n _ t h hleft
        exact ⟨hphase'.trans hphase, hleft'⟩

/-! ### The concatenation law -/

/-- `s` with other requests waiting. -/
def State.withRequests (rs : List Request) (s : State) : State := { s with requests := rs }

theorem unseenByFrames_withRequests (rs : List Request) : UnseenByFrames (State.withRequests rs) where
  cfg _ := rfl
  ts _ := rfl
  reply _ := rfl
  sampleRate _ _ := rfl
  centerFrequency _ _ := rfl
  gainLinear _ _ := rfl
  call _ _ _ := rfl
  fatal _ := rfl
  phase _ := rfl
  cmd _ := rfl
  pos _ := rfl
  setPos _ _ := rfl
  loadCmd _ _ := rfl
  setAction _ _ := rfl

theorem finishDecode_action_of_active {s : State} (h : s.phase = .active) :
    (finishDecode s).action = some .continued := by
  rw [finishDecode_of_not_halted (by rw [h]; decide)]
  rfl

/-- What waits in the queue is not seen by the loop of the request being served. -/
theorem decodeRequest_takeRequest {s t : State} {bytes : List Byte} (rest rest' : List Request) (hne : bytes ≠ [])
    (h : frameLoop (bytes.length / 5) ((s.takeRequest rest).loadCmd bytes) = .next t) :
    decodeRequest (.data bytes) false (s.takeRequest rest') = .next ((finishDecode t).withRequests rest') := by
  rw [decodeRequest_data _ hne, ← finishDecode_unseen (unseenByFrames_withRequests rest')]
  exact congrArg (fun o => thenNext o finishDecode) (frameLoop_unseen (unseenByFrames_withRequests rest') _ _ _ h)

/-- Settles O21: the one request is cut behind `a`, and the two requests differ from that only in the queue, which no
command reads. -/
theorem decodeOfConcatenationIsBothInOrder : Obligations.DecodeOfConcatenationIsBothInOrder := by
  intro s a b rest hp ha hb ha5 hb5 hmax hok
  obtain ⟨v, hv⟩ := frameLoop_next (a.length / 5) ((s.takeRequest rest).loadCmd a)
  obtain ⟨w, hw⟩ := frameLoop_next (b.length / 5) (v.loadCmd b)
  have hsplit : (a.length + b.length) / 5 = a.length / 5 + b.length / 5 := by omega
  have hok' : RepliesOk (a.length / 5 + b.length / 5) ((s.takeRequest rest).loadCmd a) := by rw [← hsplit]; exact hok
  obtain ⟨hvphase, hvok⟩ := frameLoop_repliesOk _ _ _ _ hv hok'
  obtain ⟨hwphase, -⟩ := frameLoop_repliesOk 0 _ _ _ hw hvok
  have hvactive : v.phase = .active := hvphase.trans hp
  have hon : v.phase ≠ .halted := by rw [hvactive]; decide
  have hvaction : v.action = none := by
    obtain ⟨-, h⟩ | ⟨h, -⟩ := frameLoop_of_active (s := (s.takeRequest rest).loadCmd a) hp hv
    · exact h
    · exact absurd h hon
  have hframe := (frameLoop_frame hv).1
  have hwire : v.wire = [] := by rw [hframe]; rfl
  have hrest : v.requests = rest := by rw [hframe]; rfl
  have hcfg : v.cfg = s.cfg := by rw [hframe]; rfl
  have hsecond : decodeRequest (.data b) false v = .next (finishDecode w) := by rw [decodeRequest_data v hb, hw]; rfl
  refine ⟨finishDecode w, (finishDecode v).withRequests (.decode (.data b) false :: rest), ?_, ?_, ?_,
    finishDecode_action_of_active hvactive, finishDecode_action_of_active (hwphase.trans hvactive)⟩
  · rw [step_decode_data rest hp (by rwa [List.length_append]), decodeRequest_append_of_not_halted b ha5 hv hb hon,
      hsecond]
  · rw [step_decode_data _ hp (by omega)]
    exact decodeRequest_takeRequest rest _ ha hv
  · rw [← hsecond, ← step_decode_finishDecode hvactive hwire hvaction hb (by rw [hcfg]; omega), hrest]
    rfl

end Sys2Proof.Machine
end

section
/-! PROOF. The 8-bit mode pair by pair (R134, R135): which draws, carries and residues each component uses. -/

namespace Sys2Proof.Machine

/-! ### One component -/

/-- The accumulator after one more residue (R28, R135). -/
def addResidue (acc y : F32) : F32 := fadd32 acc (fsub32 y (roundHalfAway y))

/-- The byte a component emits for `y`, with the number of the free value if it needs one (R136, R137). -/
def byte8 (y : F32) (free : Nat) : Byte := if finite32 y then narrow8 (roundHalfAway y) else Config.freeAny8 free

theorem byte8_of_finite {y : F32} (h : finite32 y = true) (free : Nat) : byte8 y free = narrow8 (roundHalfAway y) :=
  if_pos h

section Component

variable (g8 : F32) (c : Channel) (x : F32) (s : State)

theorem quant8Component_wire :
    (quant8Component g8 c x s).wire = s.wire ++ [byte8 (dithered g8 x s.nextDraw (s.carry c)) s.freeUsed] := by
  rw [quant8Component_eq]
  rfl

theorem quant8Component_rnd : (quant8Component g8 c x s).rnd = s.rnd.tail := by rw [quant8Component_eq]

theorem quant8Component_drawn : (quant8Component g8 c x s).drawn = s.drawn + 1 := by rw [quant8Component_eq]

theorem quant8Component_carry (d : Channel) :
    (quant8Component g8 c x s).carry d = if d = c then s.nextDraw else s.carry d := by
  rw [← State.carry_setCarry, quant8Component_eq]
  cases d <;> rfl

theorem quant8Component_errAcc (d : Channel) :
    (quant8Component g8 c x s).errAcc d =
      if d = c then addResidue (s.errAcc c) (dithered g8 x s.nextDraw (s.carry c)) else s.errAcc d := by
  rw [addResidue, ← State.errAcc_setErrAcc, quant8Component_eq]
  cases d <;> rfl

theorem drawAt_quant8Component (k : Nat) : drawAt (quant8Component g8 c x s) k = drawAt s (k + 1) := by
  rw [← drawAt_dropDraw]
  exact drawAt_congr (quant8Component_rnd g8 c x s) (quant8Component_drawn g8 c x s) k

end Component

/-! ### One pair -/

/-- The draw a channel subtracts at pair `k`: its previous one, or the carry the request starts with (R134). -/
def prevDraw (s : State) (k : Nat) (c : Channel) : F32 :=
  if k = 0 then s.carry c else drawAt s (2 * (k - 1) + chanOff c)

/-- `u` stands, on its way through a block begun in `s`, before pair `k`. -/
structure BeforePair (s : State) (k : Nat) (u : State) : Prop where
  rnd : u.rnd = s.rnd.drop (2 * k)
  drawn : u.drawn = s.drawn + 2 * k
  carry : ∀ c, u.carry c = prevDraw s k c

theorem BeforePair.drawAt_eq {s u : State} {k : Nat} (h : BeforePair s k u) (j : Nat) :
    drawAt u j = drawAt s (2 * k + j) := by
  simp only [drawAt, h.rnd, h.drawn, List.getElem?_drop, Nat.add_assoc]

/-- The gain factor of the 8-bit mode (R131, R133). -/
def gain8 (s : State) : F32 := fmul32 f32Quarter s.ts.gainLinear

/-- Both components of a pair. -/
def quant8Pair (g8 : F32) (p : Pair) (s : State) : State := quant8Component g8 .q p.q (quant8Component g8 .i p.i s)

section Pair

variable {s u : State} {k : Nat} (h : BeforePair s k u) (p : Pair)
include h

theorem BeforePair.scaled_i : dithered (gain8 s) p.i u.nextDraw (u.carry .i) = scaled8 s k .i p.i := by
  rw [nextDraw_eq_drawAt, h.drawAt_eq, h.carry]
  rfl

theorem BeforePair.scaled_q :
    dithered (gain8 s) p.q (quant8Component (gain8 s) .i p.i u).nextDraw
      ((quant8Component (gain8 s) .i p.i u).carry .q) = scaled8 s k .q p.q := by
  rw [nextDraw_eq_drawAt, drawAt_quant8Component, h.drawAt_eq, quant8Component_carry, if_neg (by decide), h.carry]
  rfl

theorem BeforePair.succ : BeforePair s (k + 1) (quant8Pair (gain8 s) p u) where
  rnd := by
    rw [quant8Pair, quant8Component_rnd, quant8Component_rnd, h.rnd, List.tail_drop, List.tail_drop]
    rfl
  drawn := by
    rw [quant8Pair, quant8Component_drawn, quant8Component_drawn, h.drawn]
    rfl
  carry := fun c => by
    rw [quant8Pair, quant8Component_carry, quant8Component_carry, nextDraw_eq_drawAt, nextDraw_eq_drawAt,
      drawAt_quant8Component, h.drawAt_eq, h.drawAt_eq]
    cases c <;> rfl

theorem BeforePair.errAcc (c : Channel) :
    (quant8Pair (gain8 s) p u).errAcc c = addResidue (u.errAcc c) (scaled8 s k c (p.at c)) := by
  rw [quant8Pair, quant8Component_errAcc, h.scaled_q, quant8Component_errAcc, quant8Component_errAcc, h.scaled_i]
  cases c <;> rfl

theorem BeforePair.wire : ∃ free, (quant8Pair (gain8 s) p u).wire =
    u.wire ++ [byte8 (scaled8 s k .i p.i) u.freeUsed, byte8 (scaled8 s k .q p.q) free] := by
  rw [quant8Pair, quant8Component_wire, h.scaled_q, quant8Component_wire, h.scaled_i, List.append_assoc]
  exact ⟨_, rfl⟩

/-- A component with a finite `y` emits its narrowed integer. -/
theorem BeforePair.bytesAt {c : Channel} (hfin : finite32 (scaled8 s k c (p.at c)) = true) :
    BytesAt (quant8Pair (gain8 s) p u).wire (u.wire.length + chanOff c)
      [narrow8 (roundHalfAway (scaled8 s k c (p.at c)))] := by
  obtain ⟨free, hwire⟩ := h.wire p
  rw [hwire, BytesAt, List.drop_length_add_append]
  cases c with
  | i => exact ⟨[byte8 (scaled8 s k .q p.q) free], by rw [← byte8_of_finite hfin u.freeUsed]; rfl⟩
  | q => exact ⟨[], by rw [← byte8_of_finite hfin free]; rfl⟩

end Pair

/-! ### A block -/

theorem BeforePair.setIdx {s u : State} {k : Nat} (h : BeforePair s k u) (n : Nat) : BeforePair s k (u.setIdx n) :=
  ⟨h.rnd, h.drawn, fun c => (by cases c <;> rfl : (u.setIdx n).carry c = u.carry c).trans (h.carry c)⟩

/-- The draws, carries and accumulators after the pairs `ps` that stand from pair `k` on. -/
theorem BeforePair.fold {s : State} : ∀ (ps : List Pair) (k : Nat) (u : State), BeforePair s k u →
    BeforePair s (k + ps.length) (pairFold (quant8Component (gain8 s)) ps u) ∧
      ∀ c, (pairFold (quant8Component (gain8 s)) ps u).errAcc c =
        (ps.zipIdx k).foldl (fun acc pk => addResidue acc (scaled8 s pk.2 c (pk.1.at c))) (u.errAcc c)
  | [], _, _, h => ⟨h, fun _ => rfl⟩
  | p :: ps, k, u, h => by
    obtain ⟨hbefore, hacc⟩ := BeforePair.fold ps (k + 1) _ ((h.succ p).setIdx (u.idx + 1))
    refine ⟨?_, fun c => ?_⟩
    · rw [List.length_cons, ← Nat.add_assoc, Nat.add_right_comm]
      exact hbefore
    · have hfirst : ((quant8Pair (gain8 s) p u).setIdx (u.idx + 1)).errAcc c = _ :=
        (by cases c <;> rfl : _ = (quant8Pair (gain8 s) p u).errAcc c).trans (h.errAcc p c)
      rw [List.zipIdx_cons, List.foldl_cons, ← hfirst]
      exact hacc c

theorem extendsWire_quant8 (g8 : F32) : ExtendsWire (quant8Component g8) := fun c x s => by
  rw [quant8Component_wire]
  exact List.prefix_append _ _

/-- The byte of pair `k + j`, the `j`-th of the pairs `ps` that stand from pair `k` on. -/
theorem BeforePair.bytesAt_fold {s : State} {p : Pair} {c : Channel} : ∀ (ps : List Pair) (j k : Nat) (u : State),
    BeforePair s k u → ps[j]? = some p → finite32 (scaled8 s (k + j) c (p.at c)) = true →
      BytesAt (pairFold (quant8Component (gain8 s)) ps u).wire (u.wire.length + (2 * j + chanOff c))
        [narrow8 (roundHalfAway (scaled8 s (k + j) c (p.at c)))]
  | [], _, _, _, _, hj, _ => by cases hj
  | p' :: ps, 0, k, u, h, hj, hfin => by
    obtain rfl : p' = p := Option.some.inj hj
    have hrest := pairFold_extends (extendsWire_quant8 (gain8 s)) ps ((quant8Pair (gain8 s) p' u).setIdx (u.idx + 1))
    rw [Nat.mul_zero, Nat.zero_add]
    exact (h.bytesAt p' hfin).mono hrest
  | p' :: ps, j + 1, k, u, h, hj, hfin => by
    have hpair : k + (j + 1) = k + 1 + j := by omega
    have hlen : (quant8Pair (gain8 s) p' u).wire.length = u.wire.length + 2 := by
      rw [quant8Pair, emitsEach_quant8, emitsEach_quant8]
    rw [hpair] at hfin ⊢
    have hrest := BeforePair.bytesAt_fold ps j (k + 1) _ ((h.succ p').setIdx (u.idx + 1)) hj hfin
    rw [State.setIdx_wire, hlen] at hrest
    have hoff : u.wire.length + (2 * (j + 1) + chanOff c) = u.wire.length + 2 + (2 * j + chanOff c) := by omega
    rw [hoff]
    exact hrest

/-- What a block in the 8-bit mode leaves: the fold over its pairs, from an empty `WIRE`. -/
theorem exec_quant8_eq (s : State) :
    exec .quant8 s =
      .next ((pairFold (quant8Component (gain8 s)) s.sample (s.clearWire.setIdx 0)).setIdx 0) :=
  congrArg Host.Outcome.next (quantizeBlock_eq (keepsBlock_quant8 _) s)

theorem beforePair_zero (s : State) : BeforePair s 0 (s.clearWire.setIdx 0) :=
  ⟨rfl, rfl, fun c => by cases c <;> rfl⟩

/-- Settles O26: two bytes a pair, and each component's byte stands at its offset. -/
theorem quant8EmitsTheDitheredSamples : Obligations.Quant8EmitsTheDitheredSamples := by
  intro s
  refine ⟨_, exec_quant8_eq s, ?_, fun k p c hk hfin => ?_⟩
  · rw [State.setIdx_wire, pairFold_wire_length (emitsEach_quant8 _)]
    exact Nat.zero_add _
  · rw [← Nat.zero_add k] at hfin
    have hbyte := (beforePair_zero s).bytesAt_fold s.sample k 0 _ hk hfin
    rw [State.setIdx_wire, State.clearWire_wire, List.length_nil, Nat.zero_add, Nat.zero_add] at hbyte
    exact hbyte.getElem?_add (j := 0) Nat.zero_lt_one

/-- Settles O27: the registers after the last pair are those the fold keeps, and the frame is that of the mode. -/
theorem quant8UpdatesCarriesAndAccumulators : Obligations.Quant8UpdatesCarriesAndAccumulators := by
  intro s
  obtain ⟨hbefore, hacc⟩ := (beforePair_zero s).fold s.sample 0
  rw [Nat.zero_add] at hbefore
  have hidx := hbefore.setIdx 0
  obtain ⟨hframe, -⟩ := execQuant8_frame (exec_quant8_eq s)
  refine ⟨_, exec_quant8_eq s, hidx.carry, fun c => ?_, ?_⟩
  · refine Eq.trans ?_ ((hacc c).trans ?_) <;> cases c <;> rfl
  · rw [OnlyQuantizes, hidx.rnd, hidx.drawn] at hframe
    exact hframe

end Sys2Proof.Machine
end

section
/-! PROOF. A `y` that is not finite (R137) and the narrowing of one that is (R136, R142). -/

namespace Sys2Proof.Machine

/-! ### Accumulators that are a NaN -/

theorem isNaN32_addResidue_of_acc {acc : F32} (h : isNaN32 acc = true) (y : F32) :
    isNaN32 (addResidue acc y) = true :=
  isNaN32_fadd32_of_nan (.inl ((isNaN32_iff acc).mp h))

/-- The residue of a `y` that is not finite is a NaN: of a NaN, and of an infinity less itself. -/
theorem isNaN32_residue {y : F32} (h : finite32 y = false) : isNaN32 (fsub32 y (roundHalfAway y)) = true := by
  obtain hn | ⟨s, hi⟩ | ⟨s, m, hf⟩ := unpack32_cases y
  · exact isNaN32_fsub32_of_nan (.inl hn)
  · rw [roundHalfAway_of_inf hi]
    exact isNaN32_fsub32_of_inf hi hi
  · rw [(unpack32_eq_fin hf).1] at h
    cases h

theorem isNaN32_addResidue_of_not_finite {y : F32} (acc : F32) (h : finite32 y = false) :
    isNaN32 (addResidue acc y) = true :=
  isNaN32_fadd32_of_nan (.inr ((isNaN32_iff _).mp (isNaN32_residue h)))

/-- One `y` that is not finite, anywhere in the block, is enough. -/
theorem isNaN32_foldl_addResidue {ι : Type} (y : ι → F32) :
    ∀ (l : List ι) (acc : F32), isNaN32 acc = true ∨ (∃ a ∈ l, finite32 (y a) = false) →
      isNaN32 (l.foldl (fun acc a => addResidue acc (y a)) acc) = true
  | [], _, .inl h => h
  | [], _, .inr ⟨_, ha, _⟩ => by cases ha
  | _ :: l, _, .inl h => isNaN32_foldl_addResidue y l _ (.inl (isNaN32_addResidue_of_acc h _))
  | _ :: l, acc, .inr ⟨_, ha, hy⟩ => by
    obtain rfl | ha := List.mem_cons.mp ha
    · exact isNaN32_foldl_addResidue y l _ (.inl (isNaN32_addResidue_of_not_finite acc hy))
    · exact isNaN32_foldl_addResidue y l _ (.inr ⟨_, ha, hy⟩)

/-- Settles O28: the accumulator is the fold of the residues, one of which is a NaN. -/
theorem nonFiniteSampleMakesTheAccumulatorNaN : Obligations.NonFiniteSampleMakesTheAccumulatorNaN := by
  intro s t k p c hk hfin h
  obtain ⟨u, hu, -, hacc, -⟩ := quant8UpdatesCarriesAndAccumulators s
  cases h.symm.trans hu
  have hmem : (p, k) ∈ s.sample.zipIdx := List.mk_mem_zipIdx_iff_getElem?.mpr hk
  rw [hacc c]
  exact isNaN32_foldl_addResidue (fun pk : Pair × Nat => scaled8 s pk.2 c (pk.1.at c)) _ _ (.inr ⟨_, hmem, hfin⟩)

/-! ### The rounded integer -/

theorem intOf_roundHalfAway {y : F32} {s : Bool} {m : Nat} (h : unpack32 y = .fin s m) :
    intOf (roundHalfAway y) = signedUnits s ((m + 2 ^ 148) / 2 ^ 149) := by
  rw [intOf, unpack32_roundHalfAway h]
  exact congrArg (signedUnits s) (Nat.mul_div_cancel _ (Nat.two_pow_pos 149))

/-- A significand has 24 bits, so an integer from `2^(23+k)` up is a multiple of `2^k`. -/
theorem dvd_nearestInteger {b k : Nat} (h : 2 ^ (23 + k) ≤ (unitsOf b + 2 ^ 148) / 2 ^ 149) (hk : 1 ≤ k) :
    2 ^ k ∣ (unitsOf b + 2 ^ 148) / 2 ^ 149 := by
  obtain ⟨sh, q, -, hq, -, hu⟩ := unitsOf_form b
  rw [Nat.le_div_iff_mul_le (Nat.two_pow_pos 149)] at h
  have hsh : 149 + k ≤ sh := by
    by_contra hlt
    have hpow : q * 2 ^ sh ≤ (2 ^ 24 - 1) * 2 ^ (148 + k) :=
      Nat.mul_le_mul (by omega) (Nat.pow_le_pow_right Nat.two_pos (by omega))
    have hone : 2 ^ 1 ≤ 2 ^ k := Nat.pow_le_pow_right Nat.two_pos hk
    rw [hu, pow_add] at h
    rw [pow_add] at hpow
    omega
  obtain ⟨j, rfl⟩ := Nat.exists_eq_add_of_le hsh
  have hint : unitsOf b = 2 ^ 149 * (2 ^ k * (q * 2 ^ j)) := by rw [hu, pow_add, pow_add]; ring
  have hdiv : (unitsOf b + 2 ^ 148) / 2 ^ 149 = 2 ^ k * (q * 2 ^ j) := by omega
  exact ⟨_, hdiv⟩

/-- Large integers that a number is rounded to are multiples of a power of two. -/
theorem dvd_intOf_roundHalfAway {y : F32} {k : Nat} (hfin : finite32 y = true) (hk : 1 ≤ k)
    (h : 2 ^ (23 + k) ≤ (intOf (roundHalfAway y)).natAbs) : ((2 ^ k : Nat) : Int) ∣ intOf (roundHalfAway y) := by
  rw [intOf_roundHalfAway (unpack32_of_finite hfin), natAbs_signedUnits] at h
  rw [intOf_roundHalfAway (unpack32_of_finite hfin), Int.natCast_dvd, natAbs_signedUnits]
  exact dvd_nearestInteger h hk

/-! ### Narrowing -/

theorem toNat_narrow8 (q : F32) : ((narrow8 q).toNat : Int) = (intOf q + 128) % 256 := by
  rw [narrow8, BitVec.toNat_ofInt]
  omega

/-- Settles O37: the byte is the number modulo 256 by definition, and a number of magnitude `2^31` or more is a multiple
of 256. -/
theorem eightBitNarrowingWrapsAround : Obligations.EightBitNarrowingWrapsAround := by
  intro y s hfin
  have hbyte := toNat_narrow8 (roundHalfAway y)
  refine ⟨narrow8 (roundHalfAway y), ?_, hbyte, fun hlo hhi => by omega, fun hlarge => ?_⟩
  · rw [emit8_eq, if_pos hfin, if_pos hfin]
  · have hdvd := dvd_intOf_roundHalfAway (k := 8) hfin (by decide) hlarge
    apply BitVec.eq_of_toNat_eq
    rw [BitVec.toNat_ofNat]
    omega

/-- Settles O38: the word is the number modulo 65536 by definition, and a number of magnitude `2^39` or more is a multiple
of 65536. -/
theorem sixteenBitNarrowingWrapsAround : Obligations.SixteenBitNarrowingWrapsAround := by
  intro y s hfin
  have hword := toNat_narrow16 (roundHalfAway y)
  refine ⟨narrow16 (roundHalfAway y), ?_, hword, fun hlo hhi => ?_, fun hlarge => ?_⟩
  · rw [emit16_eq, if_pos hfin, if_pos hfin, le16_eq_extractLsb']
  · rw [BitVec.toInt_eq_toNat_cond]
    split <;> omega
  · have hdvd := dvd_intOf_roundHalfAway (k := 16) hfin (by decide) hlarge
    apply BitVec.eq_of_toNat_eq
    rw [BitVec.toNat_ofNat]
    omega

/-! ### All-zero input -/

theorem inUnit_drawAt (s : State) (k : Nat) : inUnit (drawAt s k) = true := by
  unfold drawAt
  split <;> exact inUnit_drawBits _

theorem unpack32_of_magBits_zero {x : F32} (h : magBits x = 0) : unpack32 x = .fin (signBit x) 0 := by
  rw [unpack32_of_finite ((finite32_iff x).mpr (by rw [h]; decide)), h]
  rfl

/-- A quarter of a finite gain is finite. -/
theorem finite32_gain8 {s : State} (h : finite32 s.ts.gainLinear = true) : finite32 (gain8 s) = true := by
  have hquarter : unpack32 f32Quarter = .fin false (2 ^ 147) := by decide +kernel
  have hle : roundMag (2 ^ 147 * unitsOf (magBits s.ts.gainLinear)) (2 ^ 149) ≤ magBits s.ts.gainLinear :=
    roundMag_le_of_le_unitsOf (Nat.two_pow_pos 149) (by omega)
  rw [finite32_iff, gain8, fmul32_of_fin hquarter (unpack32_of_finite h), magBits_pack32 _ _ (roundMag_lt_two_pow _ _)]
  exact hle.trans_lt ((finite32_iff _).mp h)

/-- Of a zero sample only the dither value is left. -/
theorem magBits_dithered_of_zero {g x rnd carry : F32} (hg : finite32 g = true) (hx : magBits x = 0)
    (hr : inUnit rnd = true) (hc : inUnit carry = true) : magBits (dithered g x rnd carry) < 0x3F800000 := by
  have hdither := ditherValueIsBelowOne rnd carry hr hc
  have hfin : finite32 (fsub32 rnd carry) = true := (finite32_iff _).mpr (hdither.trans (by decide))
  have hprod : fmul32 g x = pack32 (signBit g != signBit x) 0 := by
    rw [fmul32_of_fin (unpack32_of_finite hg) (unpack32_of_magBits_zero hx), Nat.mul_zero]
    exact congrArg (pack32 _) (by decide +kernel)
  have hzero : unpack32 (fmul32 g x) = .fin (signBit g != signBit x) 0 := by
    rw [hprod]
    exact unpack32_pack32 _ (by decide)
  have hnone : ∀ b, signedUnits b 0 = 0 := by decide
  rw [dithered, fadd32_of_fin hzero (unpack32_of_finite hfin), magBits_roundUnits, hnone, zero_add,
    natAbs_signedUnits, ← Nat.mul_one (unitsOf _), roundMag_unitsOf_mul Nat.one_pos ((finite32_iff _).mp hfin).le]
  exact hdither

/-- A `y` between -1 and 1 is rounded to -1, 0 or 1. -/
theorem narrow8_of_lt_one {y : F32} (h : magBits y < 0x3F800000) :
    narrow8 (roundHalfAway y) = 0x7F#8 ∨ narrow8 (roundHalfAway y) = 0x80#8 ∨ narrow8 (roundHalfAway y) = 0x81#8 := by
  have hfin : finite32 y = true := (finite32_iff y).mpr (h.trans (by decide))
  have hlt : unitsOf (magBits y) < 2 ^ 149 := by
    have hone : unitsOf 0x3F800000 = 2 ^ 149 := by decide +kernel
    exact hone ▸ unitsOf_strictMono h
  have hint := intOf_roundHalfAway (unpack32_of_finite hfin)
  have hq : (unitsOf (magBits y) + 2 ^ 148) / 2 ^ 149 = 0 ∨ (unitsOf (magBits y) + 2 ^ 148) / 2 ^ 149 = 1 := by omega
  obtain hq | hq := hq <;> rw [hq] at hint <;> rw [narrow8, hint] <;> cases signBit y <;> decide

theorem inUnit_prevDraw {s : State} (hs : ∀ c, inUnit (s.carry c) = true) (k : Nat) (c : Channel) :
    inUnit (prevDraw s k c) = true := by
  unfold prevDraw
  split
  · exact hs c
  · exact inUnit_drawAt s _

/-- Every offset is that of a pair and a channel. -/
theorem exists_chanOff_eq (j : Nat) : ∃ c, 2 * (j / 2) + chanOff c = j := by
  obtain h0 | h1 := Nat.mod_two_eq_zero_or_one j
  · exact ⟨.i, by rw [chanOff]; omega⟩
  · exact ⟨.q, by rw [chanOff]; omega⟩

/-- Settles O36: the byte of every component is that of its dither value, which is below 1. -/
theorem allZeroInputStaysAtTheOffset : Obligations.AllZeroInputStaysAtTheOffset := by
  intro s t b hgain hi hq hzero h hb
  obtain ⟨u, hu, hlen, hbytes⟩ := quant8EmitsTheDitheredSamples s
  cases h.symm.trans hu
  obtain ⟨j, hj, rfl⟩ := List.getElem_of_mem hb
  obtain ⟨c, hc⟩ := exists_chanOff_eq j
  have hk : j / 2 < s.sample.length := by omega
  obtain ⟨hxi, hxq⟩ := hzero _ (List.getElem_mem hk)
  have hx : magBits (s.sample[j / 2].at c) = 0 := by
    cases c with
    | i => exact hxi
    | q => exact hxq
  have hcarry : ∀ d, inUnit (s.carry d) = true := fun d => by
    cases d with
    | i => exact hi
    | q => exact hq
  have hy : magBits (scaled8 s (j / 2) c (s.sample[j / 2].at c)) < 0x3F800000 :=
    magBits_dithered_of_zero (finite32_gain8 hgain) hx (inUnit_drawAt s _) (inUnit_prevDraw hcarry _ c)
  have hfin := (finite32_iff _).mpr (hy.trans (by decide))
  have hbyte := hbytes (j / 2) _ c (List.getElem?_eq_getElem hk) hfin
  rw [hc, List.getElem?_eq_getElem hj] at hbyte
  rw [Option.some.inj hbyte]
  exact narrow8_of_lt_one hy

end Sys2Proof.Machine
end

section
/-! PROOF. What the quantizer reads (R53, R130): two runs of a mode over the same pairs from states alike in what it reads
stay alike. -/

namespace Sys2Proof.Machine

/-! ### States alike for the quantizer -/

/-- `u` and `v` agree in what a mode reads while it runs; the bytes of `v` are those of `u` behind `w`. The accumulators
need to agree only where `sameDbg` asks for it. -/
structure Alike (sameDbg : Prop) (w : List Byte) (u v : State) : Prop where
  ds : v.ds = u.ds
  rnd : v.rnd = u.rnd
  drawn : v.drawn = u.drawn
  freeUsed : v.freeUsed = u.freeUsed
  wire : u.wire = w ++ v.wire
  dbg : sameDbg → v.dbg = u.dbg

/-- A component of a mode reads nothing but what alike states agree in. -/
def KeepsAlike (component : Channel → F32 → State → State) : Prop :=
  ∀ sameDbg w u v c x, Alike sameDbg w u v → Alike sameDbg w (component c x u) (component c x v)

theorem Alike.setIdx {sameDbg : Prop} {w : List Byte} {u v : State} (h : Alike sameDbg w u v) (m n : Nat) :
    Alike sameDbg w (u.setIdx m) (v.setIdx n) :=
  ⟨h.ds, h.rnd, h.drawn, h.freeUsed, h.wire, h.dbg⟩

theorem Alike.setIdx_right {sameDbg : Prop} {w : List Byte} {u v : State} (h : Alike sameDbg w u v) (n : Nat) :
    Alike sameDbg w u (v.setIdx n) :=
  ⟨h.ds, h.rnd, h.drawn, h.freeUsed, h.wire, h.dbg⟩

/-- The same bytes appended, and the same further free values used. -/
theorem Alike.emit {sameDbg : Prop} {w : List Byte} {u v : State} (h : Alike sameDbg w u v) (bs : List Byte) (n : Nat) :
    Alike sameDbg w { u with wire := u.wire ++ bs, freeUsed := n } { v with wire := v.wire ++ bs, freeUsed := n } :=
  ⟨h.ds, h.rnd, h.drawn, rfl, by rw [h.wire, List.append_assoc], h.dbg⟩

theorem keepsAlike_pass32 : KeepsAlike pass32Component := fun _ _ u v _ x h => by
  have hemit := h.emit (le32 x) u.freeUsed
  rw [pass32Component_eq, pass32Component_eq]
  exact ⟨hemit.ds, hemit.rnd, hemit.drawn, h.freeUsed, hemit.wire, hemit.dbg⟩

theorem keepsAlike_quant16 (g16 : F32) : KeepsAlike (quant16Component g16) := fun _ _ u v c x h => by
  rw [quant16Component, quant16Component, emit16_eq, emit16_eq, h.freeUsed]
  exact h.emit _ _

theorem keepsAlike_quant8 (g8 : F32) : KeepsAlike (quant8Component g8) := fun sameDbg w u v c x h => by
  have hdraw : v.nextDraw = u.nextDraw := by
    rw [nextDraw_eq_drawAt, nextDraw_eq_drawAt, drawAt_congr h.rnd h.drawn]
  have hcarry : v.carry c = u.carry c := by unfold State.carry; rw [h.ds]
  have hreg : Alike sameDbg w (carryDraw c (dithered g8 x u.nextDraw (u.carry c)) u)
      (carryDraw c (dithered g8 x u.nextDraw (u.carry c)) v) := by
    rw [carryDraw_eq, carryDraw_eq, h.rnd, h.drawn, hdraw]
    refine ⟨?_, rfl, rfl, h.freeUsed, h.wire, fun hd => ?_⟩
    · cases c <;> simp only [State.setCarry, h.ds]
    · cases c <;> simp only [State.setErrAcc, State.errAcc, h.dbg hd]
  rw [quant8Component, quant8Component, hdraw, hcarry, emit8_eq, emit8_eq, hreg.freeUsed]
  exact hreg.emit _ _

theorem Alike.pairFold {sameDbg : Prop} {w : List Byte} {component : Channel → F32 → State → State}
    (hk : KeepsAlike component) : ∀ (ps : List Pair) (u v : State), Alike sameDbg w u v →
      Alike sameDbg w (pairFold component ps u) (pairFold component ps v)
  | [], _, _, h => h
  | p :: ps, _, _, h => Alike.pairFold hk ps _ _ ((hk _ _ _ _ .q p.q (hk _ _ _ _ .i p.i h)).setIdx _ _)

/-! ### The modes -/

/-- The component of a mode, for a gain. -/
def modeComponent : Instr → F32 → Channel → F32 → State → State
  | .quant8, gain => quant8Component (fmul32 f32Quarter gain)
  | .quant16, gain => quant16Component (fmul32 f32Four gain)
  | _, _ => pass32Component

theorem keepsBlock_modeComponent {i : Instr} (hi : i.format = .mode) (gain : F32) :
    KeepsBlock (modeComponent i gain) := by
  obtain rfl | rfl | rfl := format_mode_cases hi
  · exact keepsBlock_quant8 _
  · exact keepsBlock_quant16 _
  · exact keepsBlock_pass32

theorem keepsAlike_modeComponent {i : Instr} (hi : i.format = .mode) (gain : F32) :
    KeepsAlike (modeComponent i gain) := by
  obtain rfl | rfl | rfl := format_mode_cases hi
  · exact keepsAlike_quant8 _
  · exact keepsAlike_quant16 _
  · exact keepsAlike_pass32

/-- A mode is the fold of its component over the block, from an empty `WIRE`. -/
theorem exec_mode_eq {i : Instr} (hi : i.format = .mode) (s : State) :
    exec i s =
      .next ((pairFold (modeComponent i s.ts.gainLinear) s.sample (s.clearWire.setIdx 0)).setIdx 0) := by
  rw [← quantizeBlock_eq (keepsBlock_modeComponent hi _)]
  obtain rfl | rfl | rfl := format_mode_cases hi <;> rfl

theorem exec_mode_frame {i : Instr} {s t : State} (hi : i.format = .mode) (h : exec i s = .next t) :
    OnlyQuantizes s t ∧ t.idx = 0 := by
  obtain rfl | rfl | rfl := format_mode_cases hi
  · exact execQuant8_frame h
  · obtain ⟨hframe, hidx⟩ := execQuant16_frame h
    exact ⟨hframe.onlyQuantizes, hidx⟩
  · obtain ⟨hframe, hidx⟩ := execPass32_frame h
    exact ⟨hframe.onlyQuantizes, hidx⟩

/-- Over the same block, with the same gain, a mode gives from alike registers the same bytes and alike registers. -/
theorem exec_mode_alike {i : Instr} {s s' t t' : State} {sameDbg : Prop} (hi : i.format = .mode)
    (hgain : s'.ts.gainLinear = s.ts.gainLinear) (hsample : s'.sample = s.sample)
    (halike : Alike sameDbg [] s.clearWire s'.clearWire) (h : exec i s = .next t) (h' : exec i s' = .next t') :
    Alike sameDbg [] t t' := by
  cases h.symm.trans (exec_mode_eq hi s)
  cases h'.symm.trans (exec_mode_eq hi s')
  rw [hgain, hsample]
  exact (Alike.pairFold (keepsAlike_modeComponent hi _) _ _ _ (halike.setIdx 0 0)).setIdx 0 0

/-- What a mode leaves is known from its frame and from a run that leaves alike registers. -/
theorem Alike.eq_of_onlyQuantizes {w : List Byte} {t s' t' : State} (h : Alike True w t t') (hframe : OnlyQuantizes s' t')
    (hidx : t'.idx = 0) :
    t' =
      { s' with
        idx := 0
        wire := t'.wire
        ds := t.ds
        dbg := t.dbg
        rnd := t.rnd
        drawn := t.drawn
        freeUsed := t.freeUsed } := by
  rwa [OnlyQuantizes, hidx, h.ds, h.rnd, h.drawn, h.freeUsed, h.dbg trivial] at hframe

/-- `s` with another sample rate and centre frequency. -/
def State.withRates (rate freq : F64) (s : State) : State :=
  { s with ts := { s.ts with sampleRate := rate, centerFrequency := freq } }

/-- Settles O34: the states are alike, and the rest is the frame of the mode. -/
theorem quantizerDoesNotReadRateOrFrequency : Obligations.QuantizerDoesNotReadRateOrFrequency := by
  intro i s rate freq hi
  obtain ⟨t, ht⟩ := exec_next s i
  obtain ⟨t', ht'⟩ := exec_next (s.withRates rate freq) i
  obtain ⟨hframe, hidx⟩ := exec_mode_frame hi ht
  obtain ⟨hframe', hidx'⟩ := exec_mode_frame hi ht'
  have halike : Alike True [] t t' := exec_mode_alike (s := s) (s' := s.withRates rate freq) hi rfl rfl
    ⟨rfl, rfl, rfl, rfl, rfl, fun _ => rfl⟩ ht ht'
  have hwire : t'.wire = t.wire := halike.wire.symm
  have heq := halike.eq_of_onlyQuantizes hframe' hidx'
  rw [hwire] at heq
  rw [OnlyQuantizes, hidx] at hframe
  refine ⟨t, ht, ht'.trans (congrArg Host.Outcome.next (heq.trans ?_))⟩
  rw [hframe]
  rfl

/-! ### Cutting a block -/

theorem pairFold_append (component : Channel → F32 → State → State) :
    ∀ (a b : List Pair) (s : State), pairFold component (a ++ b) s = pairFold component b (pairFold component a s)
  | [], _, _ => rfl
  | _ :: a, b, _ => pairFold_append component a b _

theorem Alike.trans {sameDbg : Prop} {w w' : List Byte} {u v x : State} (h : Alike sameDbg w u v)
    (h' : Alike sameDbg w' v x) : Alike sameDbg (w ++ w') u x where
  ds := h'.ds.trans h.ds
  rnd := h'.rnd.trans h.rnd
  drawn := h'.drawn.trans h.drawn
  freeUsed := h'.freeUsed.trans h.freeUsed
  wire := by rw [h.wire, h'.wire, List.append_assoc]
  dbg hd := (h'.dbg hd).trans (h.dbg hd)

/-- The next request of a mode starts from what the last one left, with an empty `WIRE`. -/
theorem alike_nextBlock (u : State) (block : List Pair) :
    Alike True u.wire u ((u.loadSample block).clearWire.setIdx 0) :=
  ⟨rfl, rfl, rfl, rfl, (List.append_nil _).symm, fun _ => rfl⟩

/-- The run on `a ++ b`, compared with the run on `b` that follows the run on `a`. -/
theorem exec_mode_append {i : Instr} {s t u v : State} {a b : List Pair} (hi : i.format = .mode)
    (ht : exec i (s.loadSample (a ++ b)) = .next t) (hu : exec i (s.loadSample a) = .next u)
    (hv : exec i (u.loadSample b) = .next v) : Alike True u.wire t v := by
  have hgain : (u.loadSample b).ts.gainLinear = s.ts.gainLinear := by rw [(exec_mode_frame hi hu).1]; rfl
  have hkeep := keepsAlike_modeComponent hi s.ts.gainLinear
  have hstart : Alike True [] ((s.loadSample (a ++ b)).clearWire.setIdx 0) ((s.loadSample a).clearWire.setIdx 0) :=
    ⟨rfl, rfl, rfl, rfl, rfl, fun _ => rfl⟩
  rw [exec_mode_eq hi] at ht hu hv
  rw [hgain] at hv
  have hfirst := (hstart.pairFold hkeep a).setIdx_right 0
  rw [State.loadSample_sample, State.loadSample_ts] at ht hu
  rw [Host.Outcome.next.inj hu] at hfirst
  rw [pairFold_append] at ht
  cases ht
  cases hv
  exact ((hfirst.trans (alike_nextBlock u b)).pairFold hkeep b).setIdx 0 0

/-- Settles O35: by `exec_mode_append` and the frames of the three runs. -/
theorem blocksMayBeCutAnywhere : Obligations.BlocksMayBeCutAnywhere := by
  intro i s a b hi
  obtain ⟨t, ht⟩ := exec_next (s.loadSample (a ++ b)) i
  obtain ⟨u, hu⟩ := exec_next (s.loadSample a) i
  obtain ⟨v, hv⟩ := exec_next (u.loadSample b) i
  have halike := exec_mode_append hi ht hu hv
  obtain ⟨hframet, hidxt⟩ := exec_mode_frame hi ht
  obtain ⟨hframeu, -⟩ := exec_mode_frame hi hu
  obtain ⟨hframev, hidxv⟩ := exec_mode_frame hi hv
  refine ⟨t, u, v, ht, hu, hv, halike.wire, (halike.eq_of_onlyQuantizes hframev hidxv).trans ?_⟩
  rw [OnlyQuantizes, hidxt] at hframet
  rw [OnlyQuantizes] at hframeu
  rw [hframet, hframeu]
  rfl

end Sys2Proof.Machine
end

section
/-! PROOF. Which requests are served, refused or a fault (R7, R8, R32, R169, R191). -/

namespace Sys2Proof.Machine

/-- Settles O25: the mode byte of the bit depth is what the request fetches. -/
theorem stepRunsTheSelectedMode : Obligations.StepRunsTheSelectedMode :=
  fun s _ _ _ hp hmax hmode hreq => step_quantize s hp hmax hmode hreq

/-! ### Outcomes -/

theorem decodeRequest_next (read : SocketRead) (sendFailed : Bool) (s : State) :
    ∃ t, decodeRequest read sendFailed s = .next t := by
  unfold decodeRequest
  split
  · exact ⟨_, rfl⟩
  · obtain ⟨u, hu⟩ := frameLoop_next ((readBytes read).length / 5) (s.loadCmd (readBytes read))
    rw [hu]
    exact ⟨_, rfl⟩

/-- The bit depth always selects a mode (R91). -/
theorem fetchMode_ok (s : State) : ∃ i, fetchMode s = .ok i [] ∧ i.format = .mode := by
  unfold fetchMode
  cases s.ts.bitDepth <;> exact ⟨_, rfl, rfl⟩

theorem quantizeRequest_eq {s : State} {i : Instr} (block : List Pair) (h : fetchMode s = .ok i []) :
    quantizeRequest block s = thenNext (exec i (s.loadSample block)) (State.loadSample []) := by
  simp only [quantizeRequest, h]

theorem quantizeRequest_next (block : List Pair) (s : State) : ∃ t, quantizeRequest block s = .next t := by
  obtain ⟨i, hi, -⟩ := fetchMode_ok s
  obtain ⟨u, hu⟩ := exec_next (s.loadSample block) i
  rw [quantizeRequest_eq block hi, hu]
  exact ⟨_, rfl⟩

/-- An admitted request ends in a next state, or is refused for a reason of its own. -/
theorem serve_of_admitted {r : Request} {s : State} (h : phaseAdmits s.phase r = true) :
    (∃ t, serve r s = .next t) ∨ ∃ why, why ≠ .notAdmitted ∧ serve r s = .refused why := by
  unfold serve
  rw [if_pos h]
  cases r with
  | por =>
    dsimp only
    split
    · exact .inl ⟨_, rfl⟩
    · exact .inr ⟨_, by decide, rfl⟩
  | sessionStart => exact .inl ⟨_, rfl⟩
  | sessionEnd => exact .inl ⟨_, rfl⟩
  | decode read sendFailed =>
    dsimp only
    split
    · exact .inl (decodeRequest_next read sendFailed s)
    · exact .inr ⟨_, by decide, rfl⟩
  | quantize block =>
    dsimp only
    split
    · exact .inl (quantizeRequest_next block s)
    · exact .inr ⟨_, by decide, rfl⟩

theorem step_nil {s : State} (h : s.requests = []) : step s = noRequest s := by
  unfold step
  rw [h]

/-- The table of R32, with POR in every phase. -/
theorem phaseAdmits_iff (p : Phase) (r : Request) :
    phaseAdmits p r = true ↔
      r = .por ∨ p = .idle ∧ r = .sessionStart ∨
        p = .active ∧
          (r = .sessionEnd ∨ (∃ read sendFailed, r = .decode read sendFailed) ∨ ∃ block, r = .quantize block) := by
  cases r <;> cases p <;> simp [phaseAdmits]

/-- Settles O51: what the phase admits is refused, if at all, for another reason. -/
theorem requestsOutsideTheirPhaseAreRefused : Obligations.RequestsOutsideTheirPhaseAreRefused := by
  intro s r rest hreq
  rw [← phaseAdmits_iff, Bool.not_eq_true]
  refine ⟨fun h => Bool.eq_false_iff.mpr fun hadmit => ?_, fun h => step_of_not_admitted h hreq⟩
  rw [step_cons s hreq] at h
  obtain ⟨t, ht⟩ | ⟨why, hwhy, hr⟩ := serve_of_admitted (s := s.takeRequest rest) hadmit
  · rw [ht] at h
    cases h
  · rw [hr] at h
    exact hwhy (Host.Outcome.refused.inj h)

/-- Settles O52: the request is admitted, and then its length is compared with the bound. -/
theorem overlongRequestsAreRefused : Obligations.OverlongRequestsAreRefused := by
  intro s rest hp
  refine ⟨fun block hlen hreq => ?_, fun bytes sendFailed hlen hreq => ?_⟩ <;>
    rw [step_cons s hreq, serve, State.takeRequest_phase, hp]
  · exact if_neg (Nat.not_le.mpr hlen)
  · exact if_neg (Nat.not_le.mpr hlen)

/-- Settles O53: a request is served or refused, so only `noRequest` faults. -/
theorem onlyHaltedIsAFault : Obligations.OnlyHaltedIsAFault := by
  refine fun s => ⟨fun r h => ?_, fun hp hnil => ?_, fun hp hnil => ?_⟩
  · cases hreq : s.requests with
    | nil =>
      rw [step_nil hreq, noRequest] at h
      split at h
      · exact ⟨‹_›, rfl⟩
      · cases h
    | cons q rest =>
      cases hadmit : phaseAdmits s.phase q with
      | false =>
        rw [step_of_not_admitted hadmit hreq] at h
        cases h
      | true =>
        rw [step_cons s hreq] at h
        obtain ⟨t, ht⟩ | ⟨why, -, hr⟩ := serve_of_admitted (s := s.takeRequest rest) hadmit
        · rw [ht] at h
          cases h
        · rw [hr] at h
          cases h
  · rw [step_nil hnil]
    exact if_pos hp
  · rw [step_nil hnil]
    exact if_neg hp

/-- Settles O46: a draw is the pattern of a `UnitDraw`, and consuming one shifts the others. -/
theorem drawsAreInTheUnitInterval : Obligations.DrawsAreInTheUnitInterval :=
  fun s k => ⟨of_decide_eq_true (inUnit_drawAt s k), nextDraw_eq_drawAt s, drawAt_dropDraw s k⟩

end Sys2Proof.Machine
end

section
/-! PROOF. What each request changes (R24, R32, R172): the frame of a step, and from it who writes what. -/

namespace Sys2Proof.Machine

/-- A served DECODE request: what it changes, and how it ends. -/
structure DecodeFrame (s : State) (rest : List Request) (sendFailed : Bool) (t : State) : Prop where
  frame : t =
    { s with
      requests := rest
      wire := []
      cmd := t.cmd
      pos := t.pos
      ts := { t.ts with bitDepth := s.ts.bitDepth }
      phase := t.phase
      action := t.action
      srcReplies := t.srcReplies
      srcCalls := t.srcCalls }
  buffer : t.cmd = s.cmd ∧ t.pos = s.pos ∨ t.cmd = [] ∧ t.pos = 0
  outcome : t.phase = .active ∨ t.phase = .halted ∧ t.action = some .fatal
  disconnect : sendFailed = true → t.ts = s.ts ∧ t.phase = s.phase

theorem finishDecode_frame (s : State) :
    finishDecode s = { s with cmd := [], pos := 0, action := (finishDecode s).action } := by
  by_cases hp : s.phase = .halted
  · rw [finishDecode_of_halted hp]
    rfl
  · rw [finishDecode_of_not_halted hp]
    rfl

theorem decodeFrame_disconnect {s : State} (rest : List Request) (sendFailed : Bool) (hp : s.phase = .active) :
    DecodeFrame s rest sendFailed (raiseDisconnect (s.takeRequest rest)) :=
  ⟨rfl, .inl ⟨rfl, rfl⟩, .inl hp, fun _ => ⟨rfl, rfl⟩⟩

theorem decodeFrame_frames {s u : State} {rest : List Request} {bytes : List Byte} {n : Nat} (hp : s.phase = .active)
    (hu : frameLoop n ((s.takeRequest rest).loadCmd bytes) = .next u) :
    DecodeFrame s rest false (finishDecode u) := by
  have hframe := (frameLoop_frame hu).1
  have hfinish := finishDecode_frame u
  refine ⟨?_, .inr ⟨by rw [hfinish], by rw [hfinish]⟩, ?_, fun h => by cases h⟩
  · rw [hfinish, hframe]
    rfl
  · obtain ⟨hactive, -⟩ | ⟨hhalted, hfatal⟩ := frameLoop_of_active (s := (s.takeRequest rest).loadCmd bytes) hp hu
    · exact .inl (by rw [finishDecode_phase, hactive])
    · rw [finishDecode_of_halted hhalted]
      exact .inr ⟨hhalted, hfatal⟩

theorem step_decode_frame {s t : State} {read : SocketRead} {sendFailed : Bool} {rest : List Request}
    (hreq : s.requests = .decode read sendFailed :: rest) (h : step s = .next t) : DecodeFrame s rest sendFailed t := by
  obtain ⟨hr, -⟩ | ⟨hr, -⟩ | ⟨hr, -⟩ | ⟨read', f, hr, hp, -, hd⟩ | ⟨_, _, _, hr, -⟩ := step_cases s hreq h <;> cases hr
  obtain ⟨-, rfl⟩ | ⟨hcond, u, hu, rfl⟩ := hd
  · exact decodeFrame_disconnect rest sendFailed hp
  · rw [disconnectCondition, Bool.or_eq_false_iff] at hcond
    obtain ⟨-, rfl⟩ := hcond
    exact decodeFrame_frames hp hu

/-- A served QUANTIZE request: what it changes (R147). -/
structure QuantizeFrame (s : State) (rest : List Request) (t : State) : Prop where
  frame : t =
    { s with
      requests := rest
      action := none
      sample := []
      idx := 0
      wire := t.wire
      ds := t.ds
      dbg := t.dbg
      rnd := t.rnd
      drawn := t.drawn
      freeUsed := t.freeUsed }
  only8 : s.ts.bitDepth ≠ .d8 → t.ds = s.ds ∧ t.dbg = s.dbg

theorem step_quantize_frame {s t : State} {block : List Pair} {rest : List Request}
    (hreq : s.requests = .quantize block :: rest) (h : step s = .next t) : QuantizeFrame s rest t := by
  obtain ⟨hr, -⟩ | ⟨hr, -⟩ | ⟨hr, -⟩ | ⟨_, _, hr, -⟩ | ⟨block', i, u, hr, hp, hmax, -⟩ := step_cases s hreq h <;> cases hr
  obtain ⟨t', ht', hframe, honly⟩ := quantizeIsPure s block rest hp hmax hreq
  cases h.symm.trans ht'
  refine ⟨hframe, fun hd => ?_⟩
  obtain ⟨hds, hdbg, -, -⟩ := honly hd
  exact ⟨hds, hdbg⟩

/-- The requests other than DECODE and QUANTIZE, as the step they are. -/
theorem step_por_eq {s t : State} {rest : List Request} (hreq : s.requests = .por :: rest) (h : step s = .next t) :
    configLegal s.cfg = true ∧ t = powerOnReset (s.takeRequest rest) := by
  rw [step_por hreq] at h
  split at h
  · exact ⟨‹_›, (Host.Outcome.next.inj h).symm⟩
  · cases h

theorem step_sessionStart_eq {s t : State} {rest : List Request} (hreq : s.requests = .sessionStart :: rest)
    (h : step s = .next t) : s.phase = .idle ∧ t = sessionStart (s.takeRequest rest) := by
  by_cases hp : s.phase = .idle
  · rw [step_sessionStart hp hreq] at h
    exact ⟨hp, (Host.Outcome.next.inj h).symm⟩
  · rw [step_of_not_admitted (phaseAdmits_sessionStart_of_ne hp) hreq] at h
    cases h

theorem step_sessionEnd_eq {s t : State} {rest : List Request} (hreq : s.requests = .sessionEnd :: rest)
    (h : step s = .next t) : s.phase = .active ∧ t = sessionEnd (s.takeRequest rest) := by
  by_cases hp : s.phase = .active
  · rw [step_sessionEnd hp hreq] at h
    exact ⟨hp, (Host.Outcome.next.inj h).symm⟩
  · rw [step_of_not_admitted (phaseAdmits_sessionEnd_of_ne hp) hreq] at h
    cases h

theorem phase_of_step_decode {s t : State} {read : SocketRead} {sendFailed : Bool} {rest : List Request}
    (hreq : s.requests = .decode read sendFailed :: rest) (h : step s = .next t) : s.phase = .active := by
  obtain ⟨hr, -⟩ | ⟨hr, -⟩ | ⟨hr, -⟩ | ⟨_, _, hr, hp, -⟩ | ⟨_, _, _, hr, -⟩ := step_cases s hreq h <;> cases hr
  exact hp

theorem phase_of_step_quantize {s t : State} {block : List Pair} {rest : List Request}
    (hreq : s.requests = .quantize block :: rest) (h : step s = .next t) : s.phase = .active ∧ t.phase = .active := by
  obtain ⟨hr, -⟩ | ⟨hr, -⟩ | ⟨hr, -⟩ | ⟨_, _, hr, -⟩ | ⟨_, _, _, hr, hp, -⟩ := step_cases s hreq h <;> cases hr
  exact ⟨hp, by rw [(step_quantize_frame hreq h).frame]; exact hp⟩

theorem step_nil_eq {s t : State} (hreq : s.requests = []) (h : step s = .next t) : t = s := by
  rw [step_nil hreq, noRequest] at h
  split at h
  · cases h
  · exact (Host.Outcome.next.inj h).symm

/-! ### Who writes what -/

/-- Settles O56: no frame writes the parameters, and only POR's writes the bit depth. -/
theorem onlyPorSetsTheBitDepth : Obligations.OnlyPorSetsTheBitDepth := by
  intro s t h
  cases hreq : s.requests with
  | nil =>
    rw [step_nil_eq hreq h]
    exact ⟨rfl, .inl rfl⟩
  | cons r rest =>
    cases r with
    | por =>
      obtain ⟨-, rfl⟩ := step_por_eq hreq h
      exact ⟨rfl, .inr ⟨rest, rfl, rfl⟩⟩
    | sessionStart =>
      obtain ⟨-, rfl⟩ := step_sessionStart_eq hreq h
      exact ⟨rfl, .inl rfl⟩
    | sessionEnd =>
      obtain ⟨-, rfl⟩ := step_sessionEnd_eq hreq h
      exact ⟨rfl, .inl rfl⟩
    | decode read sendFailed =>
      have hframe := (step_decode_frame hreq h).frame
      exact ⟨by rw [hframe], .inl (by rw [hframe])⟩
    | quantize block =>
      have hframe := (step_quantize_frame hreq h).frame
      exact ⟨by rw [hframe], .inl (by rw [hframe])⟩

/-- Settles O57: the frame of each request writes the registers of its own rule only. -/
theorem registersAreWrittenOnlyByTheirOwners : Obligations.RegistersAreWrittenOnlyByTheirOwners := by
  intro s t r rest hreq h
  cases r with
  | por => exact ⟨fun _ => .inl rfl, fun _ => .inl rfl⟩
  | sessionStart =>
    obtain ⟨-, rfl⟩ := step_sessionStart_eq hreq h
    exact ⟨fun hts => absurd rfl hts, fun _ => .inr (.inl rfl)⟩
  | sessionEnd =>
    obtain ⟨-, rfl⟩ := step_sessionEnd_eq hreq h
    exact ⟨fun hts => absurd rfl hts, fun hreg => hreg.elim (absurd rfl) (absurd rfl)⟩
  | decode read sendFailed =>
    obtain ⟨hframe, -, -, hdisc⟩ := step_decode_frame hreq h
    refine ⟨fun hts => .inr ⟨read, ?_⟩, fun hreg => ?_⟩
    · cases sendFailed with
      | false => rfl
      | true =>
        obtain ⟨hsame, -⟩ := hdisc rfl
        exact absurd hsame hts
    · have hds : t.ds = s.ds := by rw [hframe]
      have hdbg : t.dbg = s.dbg := by rw [hframe]
      exact hreg.elim (absurd hds) (absurd hdbg)
  | quantize block =>
    obtain ⟨hframe, honly⟩ := step_quantize_frame hreq h
    have hts : t.ts = s.ts := by rw [hframe]
    refine ⟨fun hne => absurd hts hne, fun hreg => .inr (.inr ⟨block, rfl, ?_⟩)⟩
    by_contra hd
    obtain ⟨hds, hdbg⟩ := honly hd
    exact hreg.elim (absurd hds) (absurd hdbg)

/-- Settles O58: the phase of the frame of each request. -/
theorem phaseChangesOnlyAsListed : Obligations.PhaseChangesOnlyAsListed := by
  intro s t r rest hreq h hne
  cases r with
  | por =>
    obtain ⟨-, rfl⟩ := step_por_eq hreq h
    exact .inl ⟨rfl, rfl⟩
  | sessionStart =>
    obtain ⟨hp, rfl⟩ := step_sessionStart_eq hreq h
    exact .inr (.inl ⟨rfl, hp, rfl⟩)
  | sessionEnd =>
    obtain ⟨hp, rfl⟩ := step_sessionEnd_eq hreq h
    exact .inr (.inr (.inl ⟨rfl, hp, rfl⟩))
  | decode read sendFailed =>
    have hp := phase_of_step_decode hreq h
    obtain ⟨-, -, hactive | ⟨hhalted, hfatal⟩, hdisc⟩ := step_decode_frame hreq h
    · exact absurd (hactive.trans hp.symm) hne
    · cases sendFailed with
      | false => exact .inr (.inr (.inr ⟨read, rfl, hp, hhalted, hfatal⟩))
      | true =>
        obtain ⟨-, hsame⟩ := hdisc rfl
        exact absurd hsame hne
  | quantize block =>
    obtain ⟨hp, hp'⟩ := phase_of_step_quantize hreq h
    exact absurd (hp'.trans hp.symm) hne

end Sys2Proof.Machine
end

section
/-! PROOF. The invariant between two requests (R20 to R27, R30, R31, R191): it holds at reset, and every step keeps it. -/

namespace Sys2Proof.Machine

/-! ### Reset -/

theorem finite64_f64OfSignMagnitude (v : Bool × Fin 0x7FF0000000000000) :
    finite64 (Config.f64OfSignMagnitude v) = true := by
  have hv := v.2.isLt
  rw [finite64, bne_iff_ne, Config.f64OfSignMagnitude, BitVec.toNat_ofNat]
  split <;> omega

theorem toNat_atReset_initGainLinear :
    0 < Config.atReset.initGainLinear.toNat ∧ Config.atReset.initGainLinear.toNat < infBits := by
  have hg := Config.openInitGain.isLt
  have hbits : Config.atReset.initGainLinear.toNat = 1 + Config.openInitGain.val := by
    simp only [Config.atReset, BitVec.toNat_ofNat]
    omega
  rw [hbits, infBits]
  omega

theorem toNat_atReset_gainScale :
    0x00800000 ≤ Config.atReset.gainScale.toNat ∧ Config.atReset.gainScale.toNat < infBits := by
  have hg := Config.openGainScale.isLt
  have hbits : Config.atReset.gainScale.toNat = 0x00800000 + Config.openGainScale.val := by
    simp only [Config.atReset, BitVec.toNat_ofNat]
    omega
  rw [hbits, infBits]
  omega

/-- The conditions of R5, R7, R8 and R10, one by one. -/
theorem configLegal_iff (c : Config) :
    configLegal c = true ↔
      (0x00800000 ≤ c.gainScale.toNat ∧ c.gainScale.toNat < infBits) ∧
        (0 < c.initGainLinear.toNat ∧ c.initGainLinear.toNat < infBits) ∧
        (finite64 c.initSampleRate = true ∧ finite64 c.initCenterFreq = true) ∧
        0 < c.maxBlockPairs ∧ 0 < c.cmdBufMax := by
  simp only [configLegal, Bool.and_eq_true, decide_eq_true_eq, and_assoc]

/-- The parameters at reset are drawn from the legal ones (log entry 3). -/
theorem configLegal_atReset : configLegal Config.atReset = true :=
  (configLegal_iff _).mpr ⟨toNat_atReset_gainScale, toNat_atReset_initGainLinear,
    ⟨finite64_f64OfSignMagnitude _, finite64_f64OfSignMagnitude _⟩, by decide, Nat.succ_pos _⟩

/-- Settles O47: the fields are those of `State.reset`, and the parameters are legal by their construction. -/
theorem resetLeavesTheInitialConfiguration : Obligations.ResetLeavesTheInitialConfiguration :=
  ⟨rfl, rfl, rfl, configLegal_atReset, rfl, rfl, rfl⟩

/-! ### TuningState -/

/-- What the invariant says of the parameters and of TuningState. -/
structure TuningValid (c : Config) (ts : Tuning) : Prop where
  legal : configLegal c = true
  gain : positive32 ts.gainLinear = true
  rate : finite64 ts.sampleRate = true
  freq : finite64 ts.centerFrequency = true

/-- Legal parameters are valid initial values (R10, R36). -/
theorem tuningValid_initial {c : Config} (h : configLegal c = true) :
    TuningValid c
      { sampleRate := c.initSampleRate
        centerFrequency := c.initCenterFreq
        gainLinear := c.initGainLinear
        bitDepth := c.bitDepth } := by
  obtain ⟨-, ⟨hpos, hlt⟩, ⟨hrate, hfreq⟩, -⟩ := (configLegal_iff c).mp h
  refine ⟨h, ?_, hrate, hfreq⟩
  rw [positive32, Bool.and_eq_true, decide_eq_true_eq, decide_eq_true_eq]
  exact ⟨hpos, hlt.le⟩

/-- Commands write rates and frequencies of payloads, and positive gains. -/
theorem exec_command_tuningValid {i : Instr} {s t : State} (hi : i.format = .cmd) (h : exec i s = .next t)
    (hs : TuningValid s.cfg s.ts) : TuningValid t.cfg t.ts := by
  obtain ⟨hlegal, hgain, hrate, hfreq⟩ := hs
  cases i with
  | nop0 p => cases h; exact ⟨hlegal, hgain, hrate, hfreq⟩
  | info3 p => cases h; exact ⟨hlegal, hgain, hrate, hfreq⟩
  | nophi o p => cases h; exact ⟨hlegal, hgain, hrate, hfreq⟩
  | setfreq p =>
    cases hr : s.nextReply with
    | ok =>
      cases h.symm.trans (exec_setfreq_of_ok p hr)
      exact ⟨hlegal, hgain, hrate, finite64_u32ToF64 p⟩
    | err =>
      cases h.symm.trans (exec_setfreq_of_err p hr)
      exact ⟨hlegal, hgain, hrate, hfreq⟩
  | setrate p =>
    cases hd : differ64 (u32ToF64 p) s.ts.sampleRate with
    | false =>
      cases h.symm.trans (exec_setrate_of_not_differ hd)
      exact ⟨hlegal, hgain, hrate, hfreq⟩
    | true =>
      cases hr : s.nextReply with
      | ok =>
        cases h.symm.trans (exec_setrate_of_ok hd hr)
        exact ⟨hlegal, hgain, finite64_u32ToF64 p, hfreq⟩
      | err =>
        cases h.symm.trans (exec_setrate_of_err hd hr)
        exact ⟨hlegal, hgain, hrate, hfreq⟩
  | setgain p =>
    by_cases hd : s.ts.bitDepth = .d32
    · cases h.symm.trans (exec_setgain_of_d32 p hd)
      exact ⟨hlegal, hgain, hrate, hfreq⟩
    · cases h.symm.trans (exec_setgain_of_ne_d32 p hd)
      exact ⟨hlegal, positive32_gainOf hlegal p, hrate, hfreq⟩
  | quant8 => cases hi
  | quant16 => cases hi
  | pass32 => cases hi

theorem frameLoop_tuningValid {n : Nat} {s t : State} (h : frameLoop n s = .next t) (hs : TuningValid s.cfg s.ts) :
    TuningValid t.cfg t.ts :=
  frameLoop_induction (P := fun u => TuningValid u.cfg u.ts) (fun _ _ _ => exec_command_tuningValid) (fun _ _ hu => hu)
    n s t h hs

/-! ### Carries -/

/-- The carries are in `[0,1)` (R27). -/
def CarriesInUnit (s : State) : Prop := ∀ c, inUnit (s.carry c) = true

/-- A carry is only ever replaced by a draw. -/
theorem execQuant8_carriesInUnit {s t : State} (h : exec .quant8 s = .next t) (hs : CarriesInUnit s) :
    CarriesInUnit t := by
  obtain ⟨u, hu, hcarry, -⟩ := quant8UpdatesCarriesAndAccumulators s
  cases h.symm.trans hu
  intro c
  rw [hcarry]
  split
  · exact hs c
  · exact inUnit_drawAt s _

theorem CarriesInUnit.of_ds_eq {s t : State} (h : t.ds = s.ds) (hs : CarriesInUnit s) : CarriesInUnit t := fun c => by
  have hcarry : t.carry c = s.carry c := by unfold State.carry; rw [h]
  rw [hcarry]
  exact hs c

theorem exec_mode_carriesInUnit {i : Instr} {s t : State} (hi : i.format = .mode) (h : exec i s = .next t)
    (hs : CarriesInUnit s) : CarriesInUnit t := by
  obtain rfl | rfl | rfl := format_mode_cases hi
  · exact execQuant8_carriesInUnit h hs
  · obtain ⟨hframe, -⟩ := execQuant16_frame h
    obtain ⟨hds, -⟩ := hframe.registers
    exact hs.of_ds_eq hds
  · obtain ⟨hframe, -⟩ := execPass32_frame h
    obtain ⟨hds, -⟩ := hframe.registers
    exact hs.of_ds_eq hds

/-! ### The invariant -/

/-- The invariant by its parts. -/
theorem inv_iff (s : State) :
    Inv s ↔ TuningValid s.cfg s.ts ∧ (s.phase = .active → CarriesInUnit s) ∧
      (s.cmd = [] ∧ s.pos = 0 ∧ s.sample = [] ∧ s.idx = 0) := by
  constructor
  · intro ⟨hlegal, hgain, ⟨hrate, hfreq⟩, hcarries, htransient⟩
    refine ⟨⟨hlegal, hgain, hrate, hfreq⟩, fun hp c => ?_, htransient⟩
    obtain ⟨hi, hq⟩ := hcarries hp
    cases c with
    | i => exact hi
    | q => exact hq
  · intro ⟨⟨hlegal, hgain, hrate, hfreq⟩, hcarries, htransient⟩
    exact ⟨hlegal, hgain, ⟨hrate, hfreq⟩, fun hp => ⟨hcarries hp .i, hcarries hp .q⟩, htransient⟩

/-- Settles O54: TuningState is the parameters', and no session is open. -/
theorem invariantHoldsAtReset : Obligations.InvariantHoldsAtReset :=
  (inv_iff _).mpr ⟨tuningValid_initial configLegal_atReset, fun hp => (by cases hp), rfl, rfl, rfl, rfl⟩

theorem step_decode_tuningValid {s t : State} {read : SocketRead} {sendFailed : Bool} {rest : List Request}
    (hreq : s.requests = .decode read sendFailed :: rest) (h : step s = .next t) (hs : TuningValid s.cfg s.ts) :
    TuningValid t.cfg t.ts := by
  obtain ⟨hr, -⟩ | ⟨hr, -⟩ | ⟨hr, -⟩ | ⟨_, _, hr, -, -, hd⟩ | ⟨_, _, _, hr, -⟩ := step_cases s hreq h <;> cases hr
  obtain ⟨-, rfl⟩ | ⟨-, u, hu, rfl⟩ := hd
  · exact hs
  · have hts : (finishDecode u).ts = u.ts := by rw [finishDecode_frame]
    rw [finishDecode_cfg, hts]
    exact frameLoop_tuningValid hu hs

theorem step_quantize_carriesInUnit {s t : State} {block : List Pair} {rest : List Request}
    (hreq : s.requests = .quantize block :: rest) (h : step s = .next t) (hs : CarriesInUnit s) : CarriesInUnit t := by
  obtain ⟨hr, -⟩ | ⟨hr, -⟩ | ⟨hr, -⟩ | ⟨_, _, hr, -⟩ | ⟨_, i, u, hr, -, -, hmode, hu, rfl⟩ := step_cases s hreq h <;>
    cases hr
  obtain ⟨-, hi, -⟩ := encodeOfDecodeIsTheBytes .mode _ i [] hmode
  exact (exec_mode_carriesInUnit hi hu (hs.of_ds_eq rfl)).of_ds_eq rfl

/-- Settles O55, request by request: TuningState is written by POR and commands only, the carries are draws, and the
frame of each request gives back empty spaces. -/
theorem everyStepKeepsTheInvariant : Obligations.EveryStepKeepsTheInvariant := by
  intro s t hinv h
  obtain ⟨hvalid, hcarries, htransient⟩ := (inv_iff s).mp hinv
  cases hreq : s.requests with
  | nil =>
    rw [step_nil_eq hreq h]
    exact hinv
  | cons r rest =>
    rw [inv_iff]
    cases r with
    | por =>
      obtain ⟨hlegal, rfl⟩ := step_por_eq hreq h
      exact ⟨tuningValid_initial hlegal, fun hp => (by cases hp), htransient⟩
    | sessionStart =>
      obtain ⟨-, rfl⟩ := step_sessionStart_eq hreq h
      rw [sessionStart_eq]
      refine ⟨hvalid, fun _ c => ?_, htransient⟩
      cases c <;> exact inUnit_drawAt _ _
    | sessionEnd =>
      obtain ⟨-, rfl⟩ := step_sessionEnd_eq hreq h
      exact ⟨hvalid, fun hp => (by cases hp), htransient⟩
    | decode read sendFailed =>
      obtain ⟨hcmd, hpos, hsample, hidx⟩ := htransient
      obtain ⟨hframe, hbuffer, -, -⟩ := step_decode_frame hreq h
      have hds : t.ds = s.ds := by rw [hframe]
      refine ⟨step_decode_tuningValid hreq h hvalid,
        fun _ => (hcarries (phase_of_step_decode hreq h)).of_ds_eq hds, ?_, ?_, ?_, ?_⟩
      · exact hbuffer.elim (fun ⟨hc, _⟩ => hc.trans hcmd) fun ⟨hc, _⟩ => hc
      · exact hbuffer.elim (fun ⟨_, hp⟩ => hp.trans hpos) fun ⟨_, hp⟩ => hp
      · rw [hframe]
        exact hsample
      · rw [hframe]
        exact hidx
    | quantize block =>
      obtain ⟨hcmd, hpos, -, -⟩ := htransient
      obtain ⟨hp, -⟩ := phase_of_step_quantize hreq h
      have hframe := (step_quantize_frame hreq h).frame
      refine ⟨?_, fun _ => step_quantize_carriesInUnit hreq h (hcarries hp), ?_, ?_, ?_, ?_⟩
      · rw [hframe]
        exact hvalid
      · rw [hframe]
        exact hcmd
      · rw [hframe]
        exact hpos
      · rw [hframe]
      · rw [hframe]

end Sys2Proof.Machine
end

section
/-! PROOF. The debug accumulators are seen by nothing else (R28). -/

namespace Sys2Proof.Machine

/-- `s` with other accumulators. -/
def State.withDebug (dbg : Debug) (s : State) : State := { s with dbg := dbg }

/-- Two outcomes that differ at most in the accumulators of a next state. -/
inductive SameButDebug : Host.Outcome State Fault Refusal → Host.Outcome State Fault Refusal → Prop
  | next (t : State) (dbg : Debug) : SameButDebug (.next t) (.next (t.withDebug dbg))
  | fault (r : Fault) : SameButDebug (.fault r) (.fault r)
  | refused (r : Refusal) : SameButDebug (.refused r) (.refused r)

theorem unseenByFrames_withDebug (dbg : Debug) : UnseenByFrames (State.withDebug dbg) where
  cfg _ := rfl
  ts _ := rfl
  reply _ := rfl
  sampleRate _ _ := rfl
  centerFrequency _ _ := rfl
  gainLinear _ _ := rfl
  call _ _ _ := rfl
  fatal _ := rfl
  phase _ := rfl
  cmd _ := rfl
  pos _ := rfl
  setPos _ _ := rfl
  loadCmd _ _ := rfl
  setAction _ _ := rfl

theorem decodeRequest_withDebug (read : SocketRead) (sendFailed : Bool) (dbg : Debug) (s : State) :
    SameButDebug (decodeRequest read sendFailed s) (decodeRequest read sendFailed (s.withDebug dbg)) := by
  unfold decodeRequest
  split
  · exact .next (raiseDisconnect s) dbg
  · obtain ⟨u, hu⟩ := frameLoop_next ((readBytes read).length / 5) (s.loadCmd (readBytes read))
    have hu' := frameLoop_unseen (unseenByFrames_withDebug dbg) _ _ _ hu
    have hload : (s.withDebug dbg).loadCmd (readBytes read) = (s.loadCmd (readBytes read)).withDebug dbg := rfl
    rw [hload, hu, hu', thenNext, thenNext, finishDecode_unseen (unseenByFrames_withDebug dbg)]
    exact .next (finishDecode u) dbg

/-- A mode writes the accumulators and reads them for nothing else. -/
theorem exec_mode_withDebug {i : Instr} {s t : State} (hi : i.format = .mode) (h : exec i s = .next t) (dbg : Debug) :
    ∃ dbg', exec i (s.withDebug dbg) = .next (t.withDebug dbg') := by
  obtain ⟨t', ht'⟩ := exec_next (s.withDebug dbg) i
  obtain ⟨hframe, hidx⟩ := exec_mode_frame hi h
  obtain ⟨hframe', hidx'⟩ := exec_mode_frame hi ht'
  obtain ⟨hds, hrnd, hdrawn, hfree, hwire, -⟩ :=
    exec_mode_alike (s := s) (s' := s.withDebug dbg) (sameDbg := False) hi rfl rfl
      ⟨rfl, rfl, rfl, rfl, rfl, fun hd => hd.elim⟩ h ht'
  have hwire' : t'.wire = t.wire := hwire.symm
  refine ⟨t'.dbg, ht'.trans (congrArg Host.Outcome.next ?_)⟩
  rw [OnlyQuantizes, hidx', hds, hrnd, hdrawn, hfree, hwire'] at hframe'
  rw [OnlyQuantizes, hidx] at hframe
  refine hframe'.trans ?_
  rw [hframe]
  rfl

theorem quantizeRequest_withDebug (block : List Pair) (dbg : Debug) (s : State) :
    SameButDebug (quantizeRequest block s) (quantizeRequest block (s.withDebug dbg)) := by
  obtain ⟨i, hmode, hi⟩ := fetchMode_ok s
  obtain ⟨u, hu⟩ := exec_next (s.loadSample block) i
  obtain ⟨dbg', hu'⟩ := exec_mode_withDebug hi hu dbg
  have hload : (s.withDebug dbg).loadSample block = (s.loadSample block).withDebug dbg := rfl
  rw [quantizeRequest_eq block hmode, quantizeRequest_eq (s := s.withDebug dbg) block hmode, hload, hu, hu']
  exact .next (u.loadSample []) dbg'

theorem serve_withDebug (r : Request) (dbg : Debug) (s : State) :
    SameButDebug (serve r s) (serve r (s.withDebug dbg)) := by
  cases hadmit : phaseAdmits s.phase r with
  | false =>
    have hclosed : ¬phaseAdmits s.phase r = true := Bool.eq_false_iff.mp hadmit
    unfold serve
    rw [if_neg hclosed, if_neg (c := phaseAdmits (s.withDebug dbg).phase r = true) hclosed]
    exact .refused _
  | true =>
    unfold serve
    rw [if_pos hadmit, if_pos (c := phaseAdmits (s.withDebug dbg).phase r = true) hadmit]
    cases r with
    | por =>
      have hlegal : configLegal (s.withDebug dbg).cfg = configLegal s.cfg := rfl
      dsimp only
      rw [hlegal]
      split
      · exact .next (powerOnReset s) _
      · exact .refused _
    | sessionStart =>
      have hstart : sessionStart (s.withDebug dbg) = sessionStart s := by
        rw [sessionStart_eq, sessionStart_eq]
        rfl
      dsimp only
      rw [hstart]
      exact .next (sessionStart s) _
    | sessionEnd => exact .next (sessionEnd s) dbg
    | decode read sendFailed =>
      have hbound : (s.withDebug dbg).cfg.cmdBufMax = s.cfg.cmdBufMax := rfl
      dsimp only
      rw [hbound]
      split
      · exact decodeRequest_withDebug read sendFailed dbg s
      · exact .refused _
    | quantize block =>
      have hbound : (s.withDebug dbg).cfg.maxBlockPairs = s.cfg.maxBlockPairs := rfl
      dsimp only
      rw [hbound]
      split
      · exact quantizeRequest_withDebug block dbg s
      · exact .refused _

theorem step_withDebug (dbg : Debug) (s : State) : SameButDebug (step s) (step (s.withDebug dbg)) := by
  cases hreq : s.requests with
  | nil =>
    rw [step_nil hreq, step_nil (s := s.withDebug dbg) hreq]
    unfold noRequest
    by_cases hp : s.phase = .halted
    · rw [if_pos hp, if_pos (c := (s.withDebug dbg).phase = .halted) hp]
      exact .fault _
    · rw [if_neg hp, if_neg (c := (s.withDebug dbg).phase = .halted) hp]
      exact .next s dbg
  | cons r rest =>
    rw [step_cons s hreq, step_cons (s.withDebug dbg) hreq]
    exact serve_withDebug r dbg (s.takeRequest rest)

/-- Settles O59: the two steps have the same outcome but for the accumulators. -/
theorem nothingDependsOnTheAccumulators : Obligations.NothingDependsOnTheAccumulators := by
  intro s dbg
  have hsame : SameButDebug (step s) (step { s with dbg := dbg }) := step_withDebug dbg s
  refine ⟨fun t h => ?_, fun r h => ?_, fun r h => ?_⟩ <;> rw [h] at hsame
  · generalize step { s with dbg := dbg } = o at hsame ⊢
    cases hsame with
    | next _ dbg' => exact ⟨dbg', rfl⟩
  · generalize step { s with dbg := dbg } = o at hsame ⊢
    cases hsame
    rfl
  · generalize step { s with dbg := dbg } = o at hsame ⊢
    cases hsame
    rfl

end Sys2Proof.Machine
end

section
/-! PROOF. How runs end (R206): the last request alone decides. -/

namespace Sys2Proof.Machine

/-- Which requests leave PHASE IDLE. -/
theorem step_phase_idle_iff {s t : State} {r : Request} {rest : List Request} (hreq : s.requests = r :: rest)
    (h : step s = .next t) : t.phase = .idle ↔ r = .por ∨ r = .sessionEnd := by
  cases r with
  | por =>
    obtain ⟨-, rfl⟩ := step_por_eq hreq h
    exact ⟨fun _ => .inl rfl, fun _ => rfl⟩
  | sessionStart =>
    obtain ⟨-, rfl⟩ := step_sessionStart_eq hreq h
    exact ⟨fun hp => (by cases hp), fun hr => by obtain hr | hr := hr <;> cases hr⟩
  | sessionEnd =>
    obtain ⟨-, rfl⟩ := step_sessionEnd_eq hreq h
    exact ⟨fun _ => .inr rfl, fun _ => rfl⟩
  | decode read sendFailed =>
    refine ⟨fun hp => ?_, fun hr => by obtain hr | hr := hr <;> cases hr⟩
    obtain ⟨-, -, hactive | ⟨hhalted, -⟩, -⟩ := step_decode_frame hreq h
    · cases hp.symm.trans hactive
    · cases hp.symm.trans hhalted
  | quantize block =>
    refine ⟨fun hp => ?_, fun hr => by obtain hr | hr := hr <;> cases hr⟩
    obtain ⟨-, hactive⟩ := phase_of_step_quantize hreq h
    cases hp.symm.trans hactive

/-- When the pending requests have been served none is left, and the last of them decides whether PHASE is IDLE. -/
theorem steps_served : ∀ (rs : List Request) (r : Request) (s t : State), s.requests = r :: rs →
    steps (r :: rs).length s = .next t →
      t.requests = [] ∧
        (t.phase = .idle ↔ (r :: rs).getLast? = some .por ∨ (r :: rs).getLast? = some .sessionEnd) := by
  intro rs
  induction rs with
  | nil =>
    intro r s t hreq h
    rw [List.length_singleton, steps] at h
    split at h
    · cases h
      rename_i hstep
      rw [List.getLast?_singleton, Option.some.injEq, Option.some.injEq]
      exact ⟨step_requests hreq hstep, step_phase_idle_iff hreq hstep⟩
    · cases h
    · cases h
  | cons r' rs ih =>
    intro r s t hreq h
    rw [List.length_cons, steps] at h
    split at h
    · rename_i u hstep
      rw [List.getLast?_cons_cons]
      exact ih r' u t (step_requests hreq hstep) h
    · cases h
    · cases h

/-- A run whose last request is a POR is that POR alone. -/
theorem requests_eq_por {rs : List Request} (hhead : rs.head? = some .por) (htail : .por ∉ rs.tail)
    (hlast : rs.getLast? = some .por) : rs = [.por] := by
  match rs, hhead with
  | [_], hhead =>
    cases hhead
    rfl
  | r :: r' :: rs, _ =>
    rw [List.getLast?_cons_cons] at hlast
    exact absurd (List.mem_of_getLast? hlast) htail

/-- Settles O60: by `steps_served`, since the only POR of the run is its first request. -/
theorem runEndsWellExactlyAfterItsSession : Obligations.RunEndsWellExactlyAfterItsSession := by
  intro s t hrun
  obtain ⟨hhead, htail, hsteps⟩ := hrun
  obtain ⟨r, rs, hreq⟩ : ∃ r rs, s.requests = r :: rs := by
    cases hreq : s.requests with
    | nil => rw [hreq] at hhead; cases hhead
    | cons r rs => exact ⟨r, rs, rfl⟩
  rw [hreq] at hsteps
  obtain ⟨hempty, hidle⟩ := steps_served rs r s t hreq hsteps
  rw [← hreq] at hsteps hidle
  have hwell : EndsWell s t ↔ s.requests.getLast? = some .sessionEnd :=
    ⟨fun ⟨_, hlast, _⟩ => hlast, fun hlast => ⟨⟨hhead, htail, hsteps⟩, hlast, hidle.mpr (.inr hlast), hempty⟩⟩
  refine ⟨hempty, hwell, ?_⟩
  rw [hidle, hwell, or_comm]
  refine or_congr_right ⟨requests_eq_por hhead htail, fun h => ?_⟩
  rw [h]
  rfl

end Sys2Proof.Machine
end
